-- ==== Sys2Proof/Word.lean ====
section
/-! DEFINITION. The word type of the block: every register and every DMEM word is 32 bits (R28, R60); a byte exists only
in the host's view of a word (R66). -/

namespace Sys2Proof

/-- A 32-bit word: a register, a DMEM word, a command (R9, R28, R60, R75). -/
abbrev Word := BitVec 32

/-- One byte of the host's byte-addressed view of a word (R66). -/
abbrev Byte := BitVec 8

end Sys2Proof
end

