-- ==== Sys2Proof/Config.lean ====
section
/-! DEFINITION. What an implementation fixes (R7, R8): the build parameters, the parameters the spec gives a value, and
the OPEN numeric functions as constants without a body. The functions the rules name (sin32, log10_32, atan2_32, hypot32,
rdft32) are built over these constants in Machine/Numeric.lean, with the properties of R19 to R23. -/

namespace Sys2Proof

/-- BIQUAD_FORM: which realization of the biquad is built (R7, R8). -/
inductive BiquadForm where
  /-- Four state registers X1, X2, Y1, Y2. -/
  | direct
  /-- Two accumulator registers Z1, Z2. -/
  | transposed
  deriving DecidableEq, Repr

/-- The parameters fixed when the block is built or placed: DMEM_WORDS and BIQUAD_FORM (R7, R8), REG_BASE (R63) and
DATA_BASE (R65). Every one is OPEN: the model carries them in State, and no step changes them (log 2). -/
structure Build where
  /-- DMEM_WORDS, the number of 32-bit words of DMEM. -/
  dmemWords : Nat
  /-- BIQUAD_FORM. -/
  form : BiquadForm
  /-- REG_BASE, the bus address of the host register window. -/
  regBase : Nat
  /-- DATA_BASE, the bus address of the host data window. -/
  dataBase : Nat
  deriving DecidableEq, Repr

namespace Config

/-- The size in bytes of the host register window (R63). -/
def regWindowBytes : Nat := 256

/-- DESIGN CHOICE, unsafe (log 2): the build State.reset is given. 64 words is the DMEM of the spec's programs
(95_test_vectors.md L3); the form and the window bases are the model's. -/
def resetBuild : Build := ⟨64, .direct, 0, 256⟩

/-- RESET_FS = 48000.0 (R7). -/
def resetFs : Word := 0x473B8000#32

/-- RESET_BS = 16 (R7). -/
def resetBs : Word := 16#32

/-- AN_GEN_GAIN = 1.0, the gain of the analyzer's private sweep (R7). -/
def anGenGain : Word := 0x3F800000#32

/-- The OPEN part of sin32 (R19, log 8). -/
opaque sinRaw : Word → Word

/-- The OPEN part of log10_32 (R20, log 9). -/
opaque log10Raw : Word → Word

/-- The OPEN part of atan2_32, of `y` and `x` in this order (R21, log 10). -/
opaque atan2Raw : Word → Word → Word

/-- The OPEN part of hypot32, of the magnitudes of its operands, the larger first (R22, log 11). -/
opaque hypotRaw : Word → Word → Word

/-- The OPEN part of rdft32: bin `k` of the transform of a list (R23, log 12). -/
opaque rdftRaw : List Word → Nat → Word × Word

end Config

end Sys2Proof
end

