-- ==== Sys2Proof/Machine/Binary32.lean ====
section
/-! DEFINITION. Binary32 arithmetic on words (R11 to R16). A finite value is read as an exact integer number of units of
2^-149, the smallest positive binary32 value; every operation forms its exact result as a ratio of naturals in that unit
and rounds it once, to nearest with ties to even. The four operations the commands use are irreducible: a proof unfolds them
by name, and no unification evaluates them by accident; the kernel evaluates them all the same. -/

namespace Sys2Proof.Machine

/-- The canonical quiet NaN (R14). -/
def qNaN : Word := 0x7FC00000#32

/-- The sign bit. -/
def signBit (w : Word) : Bool := decide (2 ^ 31 ≤ w.toNat)

/-- The word without its sign: exponent and fraction. -/
def magBits (w : Word) : Nat := w.toNat % 2 ^ 31

/-- The magnitude of infinity. -/
def infMag : Nat := 0x7F800000

/-- The word is a NaN. -/
def isNaN32 (w : Word) : Bool := decide (infMag < magBits w)

/-- The word is an infinity. -/
def isInf32 (w : Word) : Bool := magBits w == infMag

/-- The word is a finite value. -/
def isFinite32 (w : Word) : Bool := decide (magBits w < infMag)

/-- The word is a zero of either sign. -/
def isZero32 (w : Word) : Bool := magBits w == 0

/-- The word is a normal number: finite and not below 2^-126 in magnitude. -/
def isNormal32 (w : Word) : Bool := decide (2 ^ 23 ≤ magBits w ∧ magBits w < infMag)

/-- A word from a sign and a magnitude. -/
def withSign (neg : Bool) (mag : Nat) : Word := BitVec.ofNat 32 ((if neg then 2 ^ 31 else 0) + mag)

/-- Negation: the sign flipped, a NaN kept as it is (log 14). -/
def neg32 (w : Word) : Word := if isNaN32 w then w else withSign (!signBit w) (magBits w)

/-- The magnitude `|a|` of a value. -/
def abs32 (w : Word) : Word := withSign false (magBits w)

/-- Every NaN result is the canonical one (R14). -/
def canonNaN (w : Word) : Word := if isNaN32 w then qNaN else w

/-- The finite magnitude of an exponent and fraction field in units of 2^-149. -/
def unitsOfMag (mag : Nat) : Nat :=
  if mag / 2 ^ 23 = 0 then mag % 2 ^ 23 else (mag % 2 ^ 23 + 2 ^ 23) * 2 ^ (mag / 2 ^ 23 - 1)

/-- The magnitude of a finite value in units of 2^-149. -/
def unitsMag (w : Word) : Nat := unitsOfMag (magBits w)

/-- A finite value in units of 2^-149. -/
def units (w : Word) : Int := if signBit w then -(unitsMag w : Int) else (unitsMag w : Int)

/-- How many units of 2^-149, as a power of two, the last place of `n` units weighs. -/
def lastPlace (n : Nat) : Nat := Nat.log2 n - 23

/-- The quotient of two naturals rounded to nearest, ties to even. -/
def divNearestEven (num den : Nat) : Nat :=
  let q := num / den
  let r := num % den
  if den < 2 * r ∨ (2 * r = den ∧ q % 2 = 1) then q + 1 else q

/-- The magnitude of `num / den` units of 2^-149 rounded to binary32, to nearest with ties to even; overflow gives
infinity (R12, R13). A quotient that rounds up to the next power of two carries into the exponent by itself. -/
def roundMag (num den : Nat) : Nat :=
  let e := lastPlace (num / den)
  let q := divNearestEven num (den * 2 ^ e)
  min (e * 2 ^ 23 + q) infMag

/-- The rounded word of `± num / den` units of 2^-149. -/
def roundUnits (neg : Bool) (num den : Nat) : Word := withSign neg (roundMag num den)

/-- `add32` (R12, R13): the sum of two zeros of opposite sign, and `x - x`, is +0.0. -/
@[irreducible] def add32 (a b : Word) : Word :=
  if isNaN32 a || isNaN32 b then qNaN
  else if isInf32 a then (if isInf32 b && (signBit a != signBit b) then qNaN else a)
  else if isInf32 b then b
  else
    let sum := units a + units b
    if sum = 0 then withSign (signBit a && signBit b) 0
    else roundUnits (decide (sum < 0)) sum.natAbs 1

/-- `sub32` (R12, R13). -/
def sub32 (a b : Word) : Word := add32 a (neg32 b)

/-- `mul32` (R12, R13). -/
@[irreducible] def mul32 (a b : Word) : Word :=
  let neg := signBit a != signBit b
  if isNaN32 a || isNaN32 b then qNaN
  else if isInf32 a || isInf32 b then (if isZero32 a || isZero32 b then qNaN else withSign neg infMag)
  else roundUnits neg (unitsMag a * unitsMag b) (2 ^ 149)

/-- `div32` (R12, R13): a nonzero finite value over zero is an infinity, 0/0 and inf/inf are NaN. -/
@[irreducible] def div32 (a b : Word) : Word :=
  let neg := signBit a != signBit b
  if isNaN32 a || isNaN32 b then qNaN
  else if isInf32 a then (if isInf32 b then qNaN else withSign neg infMag)
  else if isInf32 b then withSign neg 0
  else if isZero32 b then (if isZero32 a then qNaN else withSign neg infMag)
  else roundUnits neg (unitsMag a * 2 ^ 149) (unitsMag b)

/-- The largest `r` below `2 ^ bits` with `r * r ≤ n`, built bit by bit above `r`. -/
def isqrtFrom (n : Nat) : Nat → Nat → Nat
  | 0, r => r
  | bits + 1, r =>
    let r' := r + 2 ^ bits
    isqrtFrom n bits (if r' * r' ≤ n then r' else r)

/-- `sqrt32` (R12). The block's rules name it and no command uses it (log 18). A root of `m` units is the root of
`m * 2^149` in units of 2^-149; a half unit below the last kept place marks a root that is not exact. -/
def sqrt32 (a : Word) : Word :=
  if isNaN32 a then qNaN
  else if isZero32 a then a
  else if signBit a then qNaN
  else if isInf32 a then a
  else
    let n := unitsMag a * 2 ^ 149
    let r := isqrtFrom n 214 0
    roundUnits false (2 * r + (if r * r = n then 0 else 1)) 2

/-- The order of values as integers: magnitudes in order, zeros of both signs equal. -/
def orderKey (w : Word) : Int := if signBit w then -(magBits w : Int) else (magBits w : Int)

/-- The ordered comparison `a > b`: false on a NaN, zeros equal (R15). -/
def gt32 (a b : Word) : Bool := !isNaN32 a && !isNaN32 b && decide (orderKey b < orderKey a)

/-- The comparison `a == b` of values: false on a NaN, zeros equal (R15). -/
def eq32 (a b : Word) : Bool := !isNaN32 a && !isNaN32 b && (orderKey a == orderKey b)

/-- `fmod32`, the exact remainder with truncation toward zero and the sign of `a` (R16). -/
@[irreducible] def fmod32 (a m : Word) : Word :=
  if isNaN32 a || isNaN32 m || isInf32 a || isZero32 m then qNaN
  else if isInf32 m then a
  else roundUnits (signBit a) (unitsMag a % unitsMag m) 1

end Sys2Proof.Machine
end

