-- ==== Sys2Proof/Machine/Numeric.lean ====
section
/-! DEFINITION. The constants of R17, the numeric functions of R19 to R23 and the complex quotient of R24. Each numeric
function is OPEN: an opaque constant of Config gives its value wherever the spec states none, and the properties the spec
assumes hold by the way the function is built over that constant (all of them but D3 of R23, which is a named premise). -/

namespace Sys2Proof.Machine

/-- PI32 (R17). -/
def pi32 : Word := 0x40490FDB#32

/-- TWO_PI (R17). -/
def twoPi : Word := 0x40C90FDB#32

/-- RAD2DEG (R17). -/
def rad2deg : Word := 0x42652EE1#32

/-- K20 (R17). -/
def k20 : Word := 0x41A00000#32

/-- F_ONE (R17). -/
def fOne : Word := 0x3F800000#32

/-- F_ZERO (R17). -/
def fZero : Word := 0#32

/-- `v` where it is a value of magnitude at most `bound`, else +0.0: the choices an OPEN function has under a bound. -/
def boundedBy (bound : Word) (v : Word) : Word := if magBits v ≤ magBits bound then v else fZero

/-- `sin32` (R19, log 8): S2 by the bound 1.0, S3, S4; S1 since it is a function. -/
def sin32 (x : Word) : Word :=
  if !isFinite32 x then qNaN
  else if x = fZero then fZero
  else boundedBy fOne (Config.sinRaw x)

/-- The powers of ten that binary32 represents, with their exponents: `10^k` for k = 0 .. 10 (R20, L2 and L6). -/
def powersOfTen : List (Word × Word) :=
  [(0x3F800000#32, 0x00000000#32), (0x41200000#32, 0x3F800000#32), (0x42C80000#32, 0x40000000#32),
   (0x447A0000#32, 0x40400000#32), (0x461C4000#32, 0x40800000#32), (0x47C35000#32, 0x40A00000#32),
   (0x49742400#32, 0x40C00000#32), (0x4B189680#32, 0x40E00000#32), (0x4CBEBC20#32, 0x41000000#32),
   (0x4E6E6B28#32, 0x41100000#32), (0x501502F9#32, 0x41200000#32)]

/-- `log10_32` (R20, log 9): L3, L4, L5, then L2 and L6, then the OPEN value. -/
def log10_32 (x : Word) : Word :=
  if isNaN32 x then qNaN
  else if isZero32 x then withSign true infMag
  else if signBit x then qNaN
  else if isInf32 x then x
  else match powersOfTen.lookup x with
    | some k => k
    | none => canonNaN (Config.log10Raw x)

/-- PI32 / 4, exactly: the angle of (+inf, +inf) (R21, R135, log 10). -/
def quarterPi : Word := 0x3F490FDB#32

/-- 3 pi / 4 rounded to binary32: the angle of (+inf, -inf) (R21, R135, log 10). -/
def threeQuarterPi : Word := 0x4016CBE4#32

/-- `atan2_32` (R21, log 10): A3, the four values of A2, the IEEE 754 value of two infinities (PRESUMED: R135 needs it and
A2 does not list it), then the OPEN value in [-PI32, PI32]. -/
def atan2_32 (y x : Word) : Word :=
  if isNaN32 y || isNaN32 x then qNaN
  else if isZero32 y then withSign (signBit y) (if signBit x then magBits pi32 else 0)
  else if isInf32 y && isInf32 x then withSign (signBit y) (magBits (if signBit x then threeQuarterPi else quarterPi))
  else boundedBy pi32 (Config.atan2Raw y x)

/-- `hypot32` (R22, log 11): H3, NaN operands, H2 with H4, then the OPEN value of the two magnitudes, the larger first,
so that it is symmetric in its operands and in their signs (H4). -/
def hypot32 (a b : Word) : Word :=
  if isInf32 a || isInf32 b then withSign false infMag
  else if isNaN32 a || isNaN32 b then qNaN
  else if isZero32 b then abs32 a
  else if isZero32 a then abs32 b
  else if magBits a < magBits b then canonNaN (Config.hypotRaw (abs32 b) (abs32 a))
  else canonNaN (Config.hypotRaw (abs32 a) (abs32 b))

/-- The sign of the first element that is not a NaN: it tells a list from its negation (R23, D2). -/
def leadingSign (v : List Word) : Option Bool := (v.find? (fun x => !isNaN32 x)).map signBit

/-- Bin `k` of the transform with D2 alone: a list whose leading sign is negative has the negated transform of its
negation (R23, log 12); a list of NaNs is its own negation, so its transform is NaN. -/
def rdftOddBin (v : List Word) (k : Nat) : Word × Word :=
  match leadingSign v with
  | none => (qNaN, qNaN)
  | some false => let z := Config.rdftRaw v k
                  (canonNaN z.1, canonNaN z.2)
  | some true => let z := Config.rdftRaw (v.map neg32) k
                 (neg32 (canonNaN z.1), neg32 (canonNaN z.2))

/-- Element `n` of `len` enters the real part of bin `k`: its weight cos(2 pi k n / len) is not zero (R23). -/
def entersRe (len k n : Nat) : Bool := 4 * k * n % (2 * len) != len

/-- Element `n` of `len` enters the imaginary part of bin `k`: its weight sin(2 pi k n / len) is not zero (R23). -/
def entersIm (len k n : Nat) : Bool := 2 * k * n % len != 0

/-- A NaN of the list enters a component (R135). -/
def nanEnters (enters : Nat → Bool) (v : List Word) : Bool := v.zipIdx.any (fun p => isNaN32 p.1 && enters p.2)

/-- Bin `k` of the transform: NaN in the components a NaN of the list enters (R135, log 12); else D2, and D4, which fixes
the imaginary part of bin 0 and of bin L/2 (L even) to +0.0 for a finite list (R23, log 13). -/
def rdftBin (v : List Word) (k : Nat) : Word × Word :=
  let z := rdftOddBin v k
  (if nanEnters (entersRe v.length k) v then qNaN else z.1,
   if nanEnters (entersIm v.length k) v then qNaN
   else if v.all isFinite32 && (k == 0 || 2 * k == v.length) then fZero
   else z.2)

/-- `rdft32` (R23): the floor(L/2) + 1 bins of a list of L values. -/
def rdft32 (v : List Word) : List (Word × Word) := (List.range (v.length / 2 + 1)).map (rdftBin v)

/-! ## Scaling by a power of two (R23, D3) -/

/-- `2^j * w` is `w`'s fraction under another exponent: `w` is a zero, or `w` and `2^j * w` are both normal numbers. -/
def scalesExactly (j : Int) (w : Word) : Bool :=
  isZero32 w || (isNormal32 w && decide (2 ^ 23 ≤ (magBits w : Int) + j * 2 ^ 23 ∧ (magBits w : Int) + j * 2 ^ 23 < infMag))

/-- `2^j * w`, for a `w` that `scalesExactly` admits: a zero stays, a normal number has `j` added to its exponent. -/
def scale32 (j : Int) (w : Word) : Word :=
  if isZero32 w then w else withSign (signBit w) ((magBits w : Int) + j * 2 ^ 23).toNat

/-- A pair of values scaled. -/
def scalePair (j : Int) (z : Word × Word) : Word × Word := (scale32 j z.1, scale32 j z.2)

/-- The component `w` of a transform did not overflow and did not become subnormal: it is above the smallest normal number,
to which a value below it may have been rounded. -/
def clearOfUnderflow (w : Word) : Bool := decide (2 ^ 23 < magBits w ∧ magBits w < infMag)

/-- A component before and after scaling, with nothing overflowed or subnormal: both zero, or both clear of underflow. -/
def componentScales (j : Int) (z w : Word) : Bool :=
  (isZero32 z && isZero32 w) || (clearOfUnderflow z && clearOfUnderflow w && scalesExactly j z)

/-- The condition of D3 for a list and a power: no element of either side overflows or becomes subnormal (R23). -/
def rdftScaleGuard (v : List Word) (j : Int) : Prop :=
  (∀ x ∈ v, scalesExactly j x = true) ∧
  ∀ k < v.length / 2 + 1,
    componentScales j (rdftBin v k).1 (rdftBin (v.map (scale32 j)) k).1 = true ∧
      componentScales j (rdftBin v k).2 (rdftBin (v.map (scale32 j)) k).2 = true

/-- D3 of R23 for one list and one power of two. -/
def RdftScalesAt (v : List Word) (j : Int) : Prop :=
  rdftScaleGuard v j → rdft32 (v.map (scale32 j)) = (rdft32 v).map (scalePair j)

/-- D3 of R23, a NAMED PREMISE: scaling a list by a power of two scales its transform. It is the one property of R19 to R23
the model does not build into the function (log 12). -/
def RdftScales : Prop := ∀ (v : List Word) (j : Int), RdftScalesAt v j

/-- `cdiv32((a, b), (c, d))`, unguarded and rounded operation by operation (R24). -/
def cdiv32 (num den : Word × Word) : Word × Word :=
  let a := num.1
  let b := num.2
  let c := den.1
  let d := den.2
  let n := add32 (mul32 c c) (mul32 d d)
  (div32 (add32 (mul32 a c) (mul32 b d)) n, div32 (sub32 (mul32 b c) (mul32 a d)) n)

end Sys2Proof.Machine
end

