-- ==== Sys2Proof/Syntax.lean ====
section
/-! DEFINITION. The commands of the block, one constructor per row of the opcode map (R83). -/

namespace Sys2Proof

/-- A command. `count` is the field N of the three commands that take a count (R76, R79); the operands of every other
kind stand in the ARG registers (R80). -/
inductive Instr where
  /-- NOP: unit 0, OP 0 (R90). -/
  | nop
  /-- SYS_RESET: unit 0, OP 1 (R91). -/
  | sysReset
  /-- SG_INIT: unit 1, OP 0 (R96). -/
  | sgInit
  /-- SG_SET_RANGE: unit 1, OP 1 (R97). -/
  | sgSetRange
  /-- SG_SET_TIME: unit 1, OP 2 (R98). -/
  | sgSetTime
  /-- SG_SET_GAIN: unit 1, OP 3 (R99). -/
  | sgSetGain
  /-- SG_START: unit 1, OP 4 (R100). -/
  | sgStart
  /-- SG_PROCESS: unit 1, OP 5 (R101). -/
  | sgProcess (count : Nat)
  /-- BQ_RESET: unit 2, OP 0 (R111). -/
  | bqReset
  /-- BQ_SET_COEFS: unit 2, OP 1 (R112). -/
  | bqSetCoefs
  /-- BQ_PROCESS_SAMPLE: unit 2, OP 2 (R113). -/
  | bqProcessSample
  /-- BQ_PROCESS_BLOCK: unit 2, OP 3 (R114). -/
  | bqProcessBlock (count : Nat)
  /-- AN_CONFIG: unit 3, OP 0 (R121). -/
  | anConfig
  /-- AN_BEGIN: unit 3, OP 1 (R125). -/
  | anBegin
  /-- AN_NEXT: unit 3, OP 2 (R127). -/
  | anNext
  /-- AN_FINISH: unit 3, OP 3 (R129). -/
  | anFinish
  /-- AN_RUN_BQ: unit 3, OP 4 (R130). -/
  | anRunBq
  /-- AN_SPECTRUM: unit 3, OP 5 (R134). -/
  | anSpectrum (count : Nat)
  deriving DecidableEq, Repr

end Sys2Proof
end

