-- ==== Sys2Proof/WellFormed.lean ====
section
/-! DEFINITION. Which commands an encoding can hold: a count fits the 24-bit field N (R76, R79). -/

namespace Sys2Proof

/-- A count fits the field N, `0 .. 2^24 - 1` (R79). -/
def countFits (count : Nat) : Bool := decide (count < 2 ^ 24)

/-- The command can be written as a command word (R76, R79). -/
def Instr.wellFormed (i : Instr) : Bool :=
  match i with
  | .sgProcess count => countFits count
  | .bqProcessBlock count => countFits count
  | .anSpectrum count => countFits count
  | .nop => true
  | .sysReset => true
  | .sgInit => true
  | .sgSetRange => true
  | .sgSetTime => true
  | .sgSetGain => true
  | .sgStart => true
  | .bqReset => true
  | .bqSetCoefs => true
  | .bqProcessSample => true
  | .anConfig => true
  | .anBegin => true
  | .anNext => true
  | .anFinish => true
  | .anRunBq => true

end Sys2Proof
end

