-- ==== Sys2Proof/Decode.lean ====
section
/-! DEFINITION. The decoder of command words and the encoder (30_encoding.md). -/

namespace Sys2Proof

/-- Why a word, or a list of bytes, is no command. The three reasons for a word are those of R84. -/
inductive Illegal where
  /-- UNIT is 4..15 (R77, R84). -/
  | noUnit
  /-- The unit lists no such OP (R78, R84). -/
  | noCommand
  /-- A command without a count has a nonzero field N (R76, R84). -/
  | countNotZero
  /-- The bytes are not exactly one word (R75, R86). -/
  | notOneWord
  deriving DecidableEq, Repr

/-- UNIT, `cmd[31:28]` (R76). -/
def unitField (w : Word) : Nat := w.toNat / 2 ^ 28

/-- OP, `cmd[27:24]` (R76). -/
def opField (w : Word) : Nat := w.toNat / 2 ^ 24 % 2 ^ 4

/-- N, `cmd[23:0]`, zero-extended and not scaled (R76, R79). -/
def countField (w : Word) : Nat := w.toNat % 2 ^ 24

/-- A C0 command: N must be 0 (R76, R84). -/
def withoutCount (count : Nat) (i : Instr) : Except Illegal Instr :=
  if count = 0 then .ok i else .error .countNotZero

/-- The commands of unit 0, CTL (R83). -/
def decodeCtl (op count : Nat) : Except Illegal Instr :=
  match op with
  | 0 => withoutCount count .nop
  | 1 => withoutCount count .sysReset
  | _ => .error .noCommand

/-- The commands of unit 1, SG (R83). -/
def decodeSg (op count : Nat) : Except Illegal Instr :=
  match op with
  | 0 => withoutCount count .sgInit
  | 1 => withoutCount count .sgSetRange
  | 2 => withoutCount count .sgSetTime
  | 3 => withoutCount count .sgSetGain
  | 4 => withoutCount count .sgStart
  | 5 => .ok (.sgProcess count)
  | _ => .error .noCommand

/-- The commands of unit 2, BQ (R83). -/
def decodeBq (op count : Nat) : Except Illegal Instr :=
  match op with
  | 0 => withoutCount count .bqReset
  | 1 => withoutCount count .bqSetCoefs
  | 2 => withoutCount count .bqProcessSample
  | 3 => .ok (.bqProcessBlock count)
  | _ => .error .noCommand

/-- The commands of unit 3, AN (R83). -/
def decodeAn (op count : Nat) : Except Illegal Instr :=
  match op with
  | 0 => withoutCount count .anConfig
  | 1 => withoutCount count .anBegin
  | 2 => withoutCount count .anNext
  | 3 => withoutCount count .anFinish
  | 4 => withoutCount count .anRunBq
  | 5 => .ok (.anSpectrum count)
  | _ => .error .noCommand

/-- The decoder, total over all words (R83 to R85). -/
def decode (w : Word) : Except Illegal Instr :=
  match unitField w with
  | 0 => decodeCtl (opField w) (countField w)
  | 1 => decodeSg (opField w) (countField w)
  | 2 => decodeBq (opField w) (countField w)
  | 3 => decodeAn (opField w) (countField w)
  | _ => .error .noUnit

/-- The bytes of a word on the host bus, lowest address first: byte `j` is `word[8j+7 : 8j]` (R66). -/
def wordBytes (w : Word) : List Byte :=
  [w.extractLsb' 0 8, w.extractLsb' 8 8, w.extractLsb' 16 8, w.extractLsb' 24 8]

/-- The word whose bytes, lowest address first, are `b0 .. b3` (R66). -/
def wordOfBytes (b0 b1 b2 b3 : Byte) : Word := b3 ++ b2 ++ b1 ++ b0

/-- The decoder on the bytes of a command as the host bus carries them: exactly one word (R66, R75, R86). -/
def decodeBytes : List Byte → Except Illegal Instr
  | [b0, b1, b2, b3] => decode (wordOfBytes b0 b1 b2 b3)
  | _ => .error .notOneWord

/-- The command word `UNIT, OP, N` (R76, R83). -/
def commandWord (unit op count : Nat) : Word := BitVec.ofNat 32 (unit * 2 ^ 28 + op * 2 ^ 24 + count)

/-- The encoder: the word of a well-formed command, from the opcode map (R83). -/
def encode (i : Instr) : Word :=
  match i with
  | .nop => commandWord 0 0 0
  | .sysReset => commandWord 0 1 0
  | .sgInit => commandWord 1 0 0
  | .sgSetRange => commandWord 1 1 0
  | .sgSetTime => commandWord 1 2 0
  | .sgSetGain => commandWord 1 3 0
  | .sgStart => commandWord 1 4 0
  | .sgProcess count => commandWord 1 5 count
  | .bqReset => commandWord 2 0 0
  | .bqSetCoefs => commandWord 2 1 0
  | .bqProcessSample => commandWord 2 2 0
  | .bqProcessBlock count => commandWord 2 3 count
  | .anConfig => commandWord 3 0 0
  | .anBegin => commandWord 3 1 0
  | .anNext => commandWord 3 2 0
  | .anFinish => commandWord 3 3 0
  | .anRunBq => commandWord 3 4 0
  | .anSpectrum count => commandWord 3 5 count

/-- The word of an instruction of `nbits` bits `w`, the bits above `nbits` zero (R75: one word of 32 bits). -/
def tableWord (nbits w : Nat) : Word := BitVec.ofNat 32 (w % 2 ^ nbits)

/-- The command the decoder reads from an instruction of the opcode table, laid out as the bytes of one word (R66, R75). -/
def decodeTableWord (nbits w : Nat) : Option Instr :=
  match decodeBytes (wordBytes (tableWord nbits w)) with
  | .ok i => some i
  | .error _ => none

end Sys2Proof
end

