-- ==== Sys2Proof/Machine/State.lean ====
section
/-! DEFINITION. The state of the block (10_state.md, 20_memory.md), the events the host sends it, the reasons a step can
stop, and the state after reset (R58, R151). -/

namespace Sys2Proof.Machine

/-- The result codes (R141). Codes 8 to 15 are never written, so they are not values of the field (log 20). -/
inductive ResultCode where
  /-- 0: the command completed. -/
  | ok
  /-- 1: SG_PROCESS on a generator that is not started (R102). -/
  | notStarted
  /-- 2: the sweep ended within the call (R103). -/
  | maxFreqReached
  /-- 3: the command word is illegal (R84). -/
  | illegalCmd
  /-- 4: a region does not fit in DMEM, or a length is out of range (R62, R134). -/
  | range
  /-- 5: an analyzer command in the wrong AN_STATE (R127, R129). -/
  | sequence
  /-- 6: the sweep is longer than AN_CAP (R125). -/
  | capacity
  /-- 7: block size or capacity 0, or analyzer never configured (R121, R125). -/
  | config
  deriving DecidableEq, Repr

/-- AN_STATE, the state of the analyzer's run (R56). -/
inductive AnState where
  /-- 0: no run. -/
  | idle
  /-- 1: the sweep is in IN and OUT and chunks remain. -/
  | chunks
  /-- 2: every chunk has been handed out. -/
  | processed
  /-- 3: the spectra are in MAG and PH. -/
  | done
  deriving DecidableEq, Repr

/-- A generator record: the SG registers (R35 to R44), or the analyzer's private generator `G` (R57). Every word is a
binary32 value. -/
@[ext]
structure SweepGen where
  /-- Sample rate in Hz (R35). -/
  fs : Word
  /-- Lower frequency bound in Hz (R36). -/
  fmin : Word
  /-- Upper frequency bound in Hz (R37). -/
  fmax : Word
  /-- Sweep duration in seconds (R38). -/
  time : Word
  /-- Output gain (R39). -/
  gain : Word
  /-- Current phase in radians (R40). -/
  phase : Word
  /-- Current frequency in Hz (R41). -/
  freq : Word
  /-- Phase increment in radians per sample (R42). -/
  pinc : Word
  /-- Frequency increment in Hz per sample (R43). -/
  finc : Word
  /-- The `started` flag (R44). -/
  started : Bool
  deriving DecidableEq, Repr

/-- The BQ registers: five coefficients (R46) and four state registers (R47, R48). -/
@[ext]
structure Biquad where
  /-- Coefficient a0. -/
  a0 : Word
  /-- Coefficient a1. -/
  a1 : Word
  /-- Coefficient a2. -/
  a2 : Word
  /-- Coefficient b1. -/
  b1 : Word
  /-- Coefficient b2. -/
  b2 : Word
  /-- BQ_S0: X1 of a DIRECT build, Z1 of a TRANSPOSED one. -/
  s0 : Word
  /-- BQ_S1: X2 or Z2. -/
  s1 : Word
  /-- BQ_S2: Y1 of a DIRECT build (a TRANSPOSED build has none, log 22). -/
  s2 : Word
  /-- BQ_S3: Y2 of a DIRECT build (a TRANSPOSED build has none, log 22). -/
  s3 : Word
  deriving DecidableEq, Repr

/-- The AN registers (R49 to R56) and the private generator (R57). -/
@[ext]
structure Analyzer where
  /-- AN_FS, binary32 (R49). -/
  fs : Word
  /-- AN_BS, the block size (R50). -/
  bs : Word
  /-- AN_BASE, a DMEM word address (R51). -/
  base : Word
  /-- AN_CAP, the capacity in words of IN and of OUT (R52). -/
  cap : Word
  /-- AN_LEN, the sweep length L of the run (R53). -/
  len : Word
  /-- AN_POS, the chunk cursor (R54). -/
  pos : Word
  /-- AN_K, the number of valid bins (R55). -/
  k : Word
  /-- AN_STATE (R56). -/
  state : AnState
  /-- The private generator `G` (R57). -/
  gen : SweepGen
  deriving DecidableEq, Repr

/-- DMEM: the bytes the host sees in its data window (R65, R66), byte `4a + j` of word `a`, addresses strictly rising. A
byte that is not listed has no value: the word's "written" mark is the presence of its bytes (R74, log 1). -/
abbrev Memory := List Host.Cell

/-- A host access reads a word or writes one (R64, R65). -/
inductive AccessKind where
  /-- A read. -/
  | read
  /-- A write of a word. -/
  | write (value : Word)
  deriving DecidableEq, Repr

/-- One access of the host on its bus (R63 to R65): a byte address, how many bytes, and what it does. -/
structure HostAccess where
  /-- The bus address of the access. -/
  addr : Nat
  /-- Its width in bytes; only 4 is inside the interface (R64). -/
  bytes : Nat
  /-- Read or write. -/
  kind : AccessKind
  deriving DecidableEq, Repr

/-- What the outside world does to the block: one access of the host, or the reset input (R151). -/
inductive HostEvent where
  /-- A host access. -/
  | access (a : HostAccess)
  /-- Hardware reset (R151, log 17). -/
  | reset
  deriving DecidableEq, Repr

/-- The whole state of the block. -/
@[ext]
structure State where
  /-- The build parameters, DMEM_SIZE and STATUS.FORM among them (R7, R33, R34). -/
  build : Build
  /-- STATUS.RESULT (R33, R141). -/
  result : ResultCode
  /-- ARG0 (R29). -/
  arg0 : Word
  /-- ARG1 (R29). -/
  arg1 : Word
  /-- ARG2 (R29). -/
  arg2 : Word
  /-- ARG3 (R29). -/
  arg3 : Word
  /-- ARG4 (R29). -/
  arg4 : Word
  /-- RES0 (R30). -/
  res0 : Word
  /-- RES1 (R30). -/
  res1 : Word
  /-- RES2 (R30). -/
  res2 : Word
  /-- The SG registers (R35 to R44). -/
  sg : SweepGen
  /-- The BQ registers (R46 to R48). -/
  bq : Biquad
  /-- The AN registers and the private generator (R49 to R57). -/
  an : Analyzer
  /-- DMEM (R59, R74). -/
  mem : Memory
  /-- The MODEL's own: the events of the host not yet served, oldest first (R71, log 3). -/
  hostQueue : List HostEvent
  /-- The MODEL's own: the word the host's last read returned (R64, R65, log 4). -/
  hostRead : Option Word
  deriving DecidableEq, Repr

/-- Why the model stops. The block itself has no traps (R144). -/
inductive Fault where
  /-- A read of DMEM word `address`, which nothing has written: raised by BQ_PROCESS_BLOCK, AN_BEGIN, AN_FINISH,
  AN_RUN_BQ, AN_SPECTRUM and by a host read (R74, U6, log 5). Safe: the spec makes it a fault of the model. -/
  | unwrittenWord (address : Nat)
  /-- A command's access to DMEM word `address` outside DMEM. Every command checks its region first (R62, R121), so no
  state with a configuration AN_CONFIG accepted raises it (log 16). Safe. -/
  | outsideDmem (address : Nat)
  /-- AN_RUN_BQ with a block size of 0, which AN_CONFIG refuses (R121): its chunk loop would not end (log 16). Safe. -/
  | zeroBlockSize
  /-- A host access at a bus address in neither of the block's windows (R63, R65, log 6). Safe. -/
  | outsideWindows (address : Nat)
  deriving DecidableEq, Repr

/-- What the model refuses to give a meaning. -/
inductive Refusal where
  /-- An instruction without a meaning, rejected by name in Machine/Dispatch.lean. Safe; no arm uses it. -/
  | notModelled (mnemonic : String)
  /-- A host access that is not one aligned 32-bit word: outside the interface, "a model gives such an access no step"
  (R64, U7). Safe. -/
  | accessOutsideInterface
  deriving DecidableEq, Repr

/-- The SG registers after reset (R58). -/
def SweepGen.reset : SweepGen where
  fs := Config.resetFs
  fmin := 0x41A00000#32
  fmax := 0x469C4000#32
  time := 0x3F800000#32
  gain := 0x3F800000#32
  phase := 0#32
  freq := 0x41A00000#32
  pinc := 0x3B2B92A7#32
  finc := 0x3ED51EB8#32
  started := false

/-- DESIGN CHOICE (log 15): the private generator after hardware reset. Its value is unspecified and unobservable (R57,
R58, U10): AN_BEGIN and AN_RUN_BQ re-initialize it before they use it. -/
def SweepGen.resetPrivate : SweepGen where
  fs := 0#32
  fmin := 0#32
  fmax := 0#32
  time := 0#32
  gain := 0#32
  phase := 0#32
  freq := 0#32
  pinc := 0#32
  finc := 0#32
  started := false

/-- The BQ registers after reset: the bypass set and a cleared state (R58). -/
def Biquad.reset : Biquad where
  a0 := 0x3F800000#32
  a1 := 0#32
  a2 := 0#32
  b1 := 0#32
  b2 := 0#32
  s0 := 0#32
  s1 := 0#32
  s2 := 0#32
  s3 := 0#32

/-- The AN registers after reset (R58). -/
def Analyzer.reset : Analyzer where
  fs := Config.resetFs
  bs := Config.resetBs
  base := 0#32
  cap := 0#32
  len := 0#32
  pos := 0#32
  k := 0#32
  state := .idle
  gen := SweepGen.resetPrivate

/-- The machine right after hardware reset (R58, R151), as a build of Config.resetBuild (log 2), with no host event
pending (log 3). -/
def State.reset : State where
  build := Config.resetBuild
  result := .ok
  arg0 := 0#32
  arg1 := 0#32
  arg2 := 0#32
  arg3 := 0#32
  arg4 := 0#32
  res0 := 0#32
  res1 := 0#32
  res2 := 0#32
  sg := SweepGen.reset
  bq := Biquad.reset
  an := Analyzer.reset
  mem := []
  hostQueue := []
  hostRead := none

end Sys2Proof.Machine
end

