-- ==== Sys2Proof/Machine/Flags.lean ====
section
/-! DEFINITION. STATUS (R33): the codes of its fields, the composed word the host reads, and the one operation that writes
each field. RESULT is the block's only flag; no floating-point flag exists (R13, R33). -/

namespace Sys2Proof.Machine

/-- The number of a result code (R141). -/
def ResultCode.code : ResultCode → Nat
  | .ok => 0
  | .notStarted => 1
  | .maxFreqReached => 2
  | .illegalCmd => 3
  | .range => 4
  | .sequence => 5
  | .capacity => 6
  | .config => 7

/-- The number of an AN_STATE (R33, R56). -/
def AnState.code : AnState → Nat
  | .idle => 0
  | .chunks => 1
  | .processed => 2
  | .done => 3

/-- The FORM bit of a build (R33). -/
def formCode : BiquadForm → Nat
  | .direct => 0
  | .transposed => 1

/-- The STATUS word: RESULT in bits 3:0, AN_STATE in 5:4, SG_STARTED in 6, FORM in 7, zeros above (R33). -/
def statusWord (s : State) : Word :=
  BitVec.ofNat 32
    (s.result.code + 2 ^ 4 * s.an.state.code + 2 ^ 6 * s.sg.started.toNat + 2 ^ 7 * formCode s.build.form)

/-- `STATUS.RESULT <- code` (R145). -/
def State.withResult (s : State) (c : ResultCode) : State := { s with result := c }

/-- `STATUS.AN_STATE <- a` (R56). -/
def State.withAnState (s : State) (a : AnState) : State := { s with an := { s.an with state := a } }

end Sys2Proof.Machine
end

