-- ==== Sys2Proof/Machine/Operands.lean ====
section
/-! DEFINITION. The operand forms of the commands (R79 to R82): an ARG register read as a binary32 word or as an unsigned
integer, and the result registers. The count N is the argument of the command's constructor. -/

namespace Sys2Proof.Machine

/-- The five operand registers (R29). -/
inductive ArgReg where
  /-- ARG0. -/
  | arg0
  /-- ARG1. -/
  | arg1
  /-- ARG2. -/
  | arg2
  /-- ARG3. -/
  | arg3
  /-- ARG4. -/
  | arg4
  deriving DecidableEq, Repr

/-- The word an operand register holds (R29). -/
def argWord (s : State) : ArgReg → Word
  | .arg0 => s.arg0
  | .arg1 => s.arg1
  | .arg2 => s.arg2
  | .arg3 => s.arg3
  | .arg4 => s.arg4

/-- The form `f`: the ARG word as a binary32 value, bit for bit, with no conversion and no check (R80, R81). -/
def f32Arg (s : State) (r : ArgReg) : Word := argWord s r

/-- The form `u`: the ARG word as an unsigned integer, not extended and not scaled (R80, R82). -/
def u32Arg (s : State) (r : ArgReg) : Nat := (argWord s r).toNat

/-- An unsigned result written to a 32-bit register (R18, R30, log 21). -/
def u32Word (n : Nat) : Word := BitVec.ofNat 32 n

/-- `RES0 <- w` (R30). -/
def State.withRes0 (s : State) (w : Word) : State := { s with res0 := w }

/-- `RES1 <- w` (R30). -/
def State.withRes1 (s : State) (w : Word) : State := { s with res1 := w }

/-- `RES2 <- w` (R30). -/
def State.withRes2 (s : State) (w : Word) : State := { s with res2 := w }

end Sys2Proof.Machine
end

