-- ==== Sys2Proof/Machine/Ops.lean ====
section
/-! DEFINITION. The shared operations: DMEM by bytes and by words (20_memory.md), the region check (R62), ending a command
(R142, R145), and the register reset (R58, R91). -/

namespace Sys2Proof.Machine

/-! ## DMEM -/

/-- The byte of the data window at byte offset `x`, if it has a value (R65, R74). -/
def readByte : Memory → Nat → Option Byte
  | [], _ => none
  | (a, b) :: m, x => if a = x then some b else readByte m x

/-- Give the byte at offset `x` a value, keeping the addresses strictly rising. -/
def writeByte : Memory → Nat → Byte → Memory
  | [], x, v => [(x, v)]
  | (a, b) :: m, x, v =>
    if x < a then (x, v) :: (a, b) :: m
    else if x = a then (x, v) :: m
    else (a, b) :: writeByte m x v

/-- The one canonical form of DMEM: byte offsets strictly rising. An unlisted byte reads as no value, which no entry
equals. -/
abbrev Memory.wf (m : Memory) : Prop := m.Pairwise (fun x y => x.1 < y.1)

/-- DMEM word `a`, if it is written: bytes `4a .. 4a+3`, little-endian (R66, R74). -/
def readWord (m : Memory) (a : Nat) : Option Word :=
  match readByte m (4 * a), readByte m (4 * a + 1), readByte m (4 * a + 2), readByte m (4 * a + 3) with
  | some b0, some b1, some b2, some b3 => some (wordOfBytes b0 b1 b2 b3)
  | _, _, _, _ => none

/-- Write DMEM word `a`, which sets its "written" mark (R66, R74). -/
def writeWord (m : Memory) (a : Nat) (w : Word) : Memory :=
  let m0 := writeByte m (4 * a) (w.extractLsb' 0 8)
  let m1 := writeByte m0 (4 * a + 1) (w.extractLsb' 8 8)
  let m2 := writeByte m1 (4 * a + 2) (w.extractLsb' 16 8)
  writeByte m2 (4 * a + 3) (w.extractLsb' 24 8)

/-- DMEM as a command or the host's data window sees it: its cells and how many words exist (R59, R74). -/
structure Dmem where
  /-- DMEM_WORDS. -/
  words : Nat
  /-- The written bytes. -/
  cells : Memory
  deriving DecidableEq, Repr

/-- `MemRead(a, 1)` (R10, R60): an unwritten word is a fault (R74). -/
def memRead (d : Dmem) (a : Nat) : Except Fault Word :=
  if a < d.words then
    match readWord d.cells a with
    | some w => .ok w
    | none => .error (.unwrittenWord a)
  else .error (.outsideDmem a)

/-- `MemWrite(a, 1, w)` (R10, R60). -/
def memWrite (d : Dmem) (a : Nat) (w : Word) : Except Fault Dmem :=
  if a < d.words then .ok { d with cells := writeWord d.cells a w } else .error (.outsideDmem a)

/-- `InRange(b, n)`, over mathematical integers (R18, R62). -/
def inRange (words b n : Nat) : Bool := decide (b + n ≤ words)

/-- The words `a .. a+n-1`, read in rising order (R131). -/
def readWords (d : Dmem) : Nat → Nat → Except Fault (List Word)
  | 0, _ => .ok []
  | n + 1, a =>
    match memRead d a with
    | .error f => .error f
    | .ok w =>
      match readWords d n (a + 1) with
      | .error f => .error f
      | .ok ws => .ok (w :: ws)

/-- Copy `n` words from `src` on to `dst` on, word by word in rising order, bit for bit (R14, R125). -/
def copyWords : Nat → Nat → Nat → Dmem → Except Fault Dmem
  | 0, _, _, d => .ok d
  | n + 1, src, dst, d =>
    match memRead d src with
    | .error f => .error f
    | .ok w =>
      match memWrite d dst w with
      | .error f => .error f
      | .ok d' => copyWords n (src + 1) (dst + 1) d'

/-- DMEM of a state. -/
def State.dmem (s : State) : Dmem := ⟨s.build.dmemWords, s.mem⟩

/-- The state with the DMEM a command left. -/
def State.withDmem (s : State) (d : Dmem) : State := { s with mem := d.cells }

/-! ## Ending a command -/

/-- `raise <code>` (R10, R142): the block's whole error mechanism. There is no trap: no saved state, no mode, no handler
(R144), and no return from one (R147). A command that raises sets STATUS.RESULT and changes nothing else. -/
def raise (c : ResultCode) (s : State) : State := s.withResult c

/-- `STATUS.RESULT <- OK`, the last effect of a command that completes (R145). -/
def complete (s : State) : State := s.withResult .ok

/-- The outcome of a command whose DMEM accesses may stop the model (R74). -/
def outcomeOf : Except Fault State → Host.Outcome State Fault Refusal
  | .ok s => .next s
  | .error f => .fault f

/-! ## Reset of the registers -/

/-- Every register of R28 at its value of R58: what SYS_RESET does (R91). The build, DMEM and the private generator, which
is no register of R28, stay as they are (log 15). -/
def resetRegisters (s : State) : State :=
  { s with
    result := State.reset.result
    arg0 := State.reset.arg0
    arg1 := State.reset.arg1
    arg2 := State.reset.arg2
    arg3 := State.reset.arg3
    arg4 := State.reset.arg4
    res0 := State.reset.res0
    res1 := State.reset.res1
    res2 := State.reset.res2
    sg := SweepGen.reset
    bq := Biquad.reset
    an := { Analyzer.reset with gen := s.an.gen } }

/-- Hardware reset (R151): the registers as SYS_RESET leaves them, every DMEM word without value and mark, the private
generator at the model's value (log 15, log 17). -/
def hardwareReset (s : State) : State :=
  { resetRegisters s with an := Analyzer.reset, mem := [] }

end Sys2Proof.Machine
end

