-- ==== Sys2Proof/Machine/BiquadEngine.lean ====
section
/-! DEFINITION. The biquad engine and the commands of unit 2, BQ (42_biquad.md). -/

namespace Sys2Proof.Machine

/-! ## Update functions (R108 to R110) -/

/-- `BQ_STEP_DIRECT(x)` (R108): the new state and the output `y`. DEDUCED (log 26): a zero `y` has the sign this sum
gives it, which may differ from the TRANSPOSED build's although R118 says "equal bit for bit". -/
def bqStepDirect (b : Biquad) (x : Word) : Biquad × Word :=
  let y :=
    sub32
      (sub32 (add32 (add32 (mul32 b.a0 x) (mul32 b.a1 b.s0)) (mul32 b.a2 b.s1)) (mul32 b.b1 b.s2))
      (mul32 b.b2 b.s3)
  ({ b with s1 := b.s0, s0 := x, s3 := b.s2, s2 := y }, y)

/-- `BQ_STEP_TRANSPOSED(x)` (R109, D15): the new Z1 uses the old Z2. DEDUCED (log 24): with the bypass set and a nonzero
Z1 the output is `x + Z1`, as this pseudocode and V-BQ-4 say, and not the `x` of R110.
DEDUCED (log 26): a zero output has the sign this sum gives it, which may differ from the DIRECT build's although R118
says "equal bit for bit" when every intermediate is exact. -/
def bqStepTransposed (b : Biquad) (x : Word) : Biquad × Word :=
  let y := add32 (mul32 b.a0 x) b.s0
  ({ b with
      s0 := sub32 (add32 (mul32 b.a1 x) b.s1) (mul32 b.b1 y)
      s1 := sub32 (mul32 b.a2 x) (mul32 b.b2 y) }, y)

/-- `BQ_STEP(x)` of the form that is built (R8, R113). -/
def bqStep (form : BiquadForm) (b : Biquad) (x : Word) : Biquad × Word :=
  match form with
  | .direct => bqStepDirect b x
  | .transposed => bqStepTransposed b x

/-- The bypass set and a cleared state (R110, R111). -/
def bqResetRegs : Biquad where
  a0 := fOne
  a1 := fZero
  a2 := fZero
  b1 := fZero
  b2 := fZero
  s0 := fZero
  s1 := fZero
  s2 := fZero
  s3 := fZero

/-- The loop of BQ_PROCESS_BLOCK (R114): `n` words from `a` on, each read, processed and written back before the next is
read (R72). -/
def bqBlock (form : BiquadForm) : Nat → Nat → Biquad → Dmem → Except Fault (Biquad × Dmem)
  | 0, _, b, d => .ok (b, d)
  | n + 1, a, b, d =>
    match memRead d a with
    | .error f => .error f
    | .ok x =>
      match memWrite d a (bqStep form b x).2 with
      | .error f => .error f
      | .ok d' => bqBlock form n (a + 1) (bqStep form b x).1 d'

/-! ## Commands -/

/-- BQ_RESET (R111). -/
def execBqReset (s : State) : Host.Outcome State Fault Refusal := .next (complete { s with bq := bqResetRegs })

/-- BQ_SET_COEFS (R112): the state registers are not changed (R116). -/
def execBqSetCoefs (s : State) : Host.Outcome State Fault Refusal :=
  .next (complete
    { s with
      bq :=
        { s.bq with
          a0 := f32Arg s .arg0
          a1 := f32Arg s .arg1
          a2 := f32Arg s .arg2
          b1 := f32Arg s .arg3
          b2 := f32Arg s .arg4 } })

/-- BQ_PROCESS_SAMPLE (R113). -/
def execBqProcessSample (s : State) : Host.Outcome State Fault Refusal :=
  let r := bqStep s.build.form s.bq (f32Arg s .arg0)
  .next (complete ({ s with bq := r.1 }.withRes0 r.2))

/-- BQ_PROCESS_BLOCK (R114). -/
def execBqProcessBlock (count : Nat) (s : State) : Host.Outcome State Fault Refusal :=
  if !inRange s.build.dmemWords (u32Arg s .arg0) count then .next (raise .range s)
  else
    match bqBlock s.build.form count (u32Arg s .arg0) s.bq s.dmem with
    | .error f => .fault f
    | .ok r => .next (complete ({ s with bq := r.1 }.withDmem r.2))

end Sys2Proof.Machine
end

