-- ==== Sys2Proof/Machine/SweepGenerator.lean ====
section
/-! DEFINITION. The sweep generator and the commands of unit 1, SG (41_sweep_generator.md). -/

namespace Sys2Proof.Machine

/-! ## Functions (R92 to R95) -/

/-- `FINC(fmin, fmax, fs, T)` (R92). -/
def fincOf (fmin fmax fs time : Word) : Word := div32 (sub32 fmax fmin) (mul32 fs time)

/-- `PINC(freq, fs)` (R93). -/
def pincOf (freq fs : Word) : Word := div32 (mul32 twoPi freq) fs

/-- `WRAP(p)` (R94). -/
def wrapPhase (p : Word) : Word :=
  let r := fmod32 p twoPi
  if gt32 fZero r then add32 r twoPi else r

/-- What one generator step gives (R95). -/
structure SgStepResult where
  /-- The generator after the step. -/
  gen : SweepGen
  /-- The sample `y`. -/
  sample : Word
  /-- The frequency has exceeded FMAX. -/
  exhausted : Bool
  deriving DecidableEq, Repr

/-- `SG_STEP(g)` (R95): the sample of the current phase, then phase, frequency and phase increment, then the end test.
DEDUCED (log 25): the phase advances by the increment that stood before the step. So a sweep whose only NaN is FMAX or TIME
has a number as its second sample, and with TIME = +0.0 and FS finite and positive the phase after its one sample is a
number, where two remarks of R106 say NaN; R95's pseudocode is followed. -/
def sgStep (g : SweepGen) : SgStepResult :=
  let freq := add32 g.freq g.finc
  let exhausted := gt32 freq g.fmax
  { gen :=
      { g with
        phase := wrapPhase (add32 g.phase g.pinc)
        freq := freq
        pinc := pincOf freq g.fs
        started := g.started && !exhausted }
    sample := mul32 g.gain (sin32 g.phase)
    exhausted := exhausted }

/-- What a run of generator steps into DMEM gives. -/
structure SgFillResult where
  /-- How many samples were written. -/
  count : Nat
  /-- The sweep ended with the last of them. -/
  exhausted : Bool
  /-- The generator after the run. -/
  gen : SweepGen
  /-- DMEM after the run. -/
  dmem : Dmem
  deriving DecidableEq, Repr

/-- The loop of SG_PROCESS (R101) and of GENERATE (R124): at most `n` steps, each sample written to the next word from
`a` on, ending with the step that exhausts the generator. -/
def sgFill : Nat → Nat → SweepGen → Dmem → Except Fault SgFillResult
  | 0, _, g, d => .ok ⟨0, false, g, d⟩
  | n + 1, a, g, d =>
    let r := sgStep g
    match memWrite d a r.sample with
    | .error f => .error f
    | .ok d' =>
      if r.exhausted then .ok ⟨1, true, r.gen, d'⟩
      else
        match sgFill n (a + 1) r.gen d' with
        | .error f => .error f
        | .ok t => .ok ⟨t.count + 1, t.exhausted, t.gen, t.dmem⟩

/-- `SG_FINC <- FINC(SG_FMIN, SG_FMAX, SG_FS, SG_TIME)`: every setter recomputes it (R43, R97 to R99). -/
def withFinc (g : SweepGen) : SweepGen := { g with finc := fincOf g.fmin g.fmax g.fs g.time }

/-- The generator SG_INIT constructs at a sample rate (R96). -/
def sgInitGen (fs : Word) : SweepGen :=
  withFinc
    { fs := fs
      fmin := 0x41A00000#32
      fmax := 0x469C4000#32
      time := fOne
      gain := fOne
      phase := fZero
      freq := 0x41A00000#32
      pinc := pincOf 0x41A00000#32 fs
      finc := fZero
      started := false }

/-- The range of a generator, with FINC recomputed (R97). -/
def sgSetRange (fmin fmax : Word) (g : SweepGen) : SweepGen := withFinc { g with fmin := fmin, fmax := fmax }

/-- The duration of a generator, with FINC recomputed (R98). -/
def sgSetTime (time : Word) (g : SweepGen) : SweepGen := withFinc { g with time := time }

/-- The gain of a generator, with FINC recomputed (R99). -/
def sgSetGain (gain : Word) (g : SweepGen) : SweepGen := withFinc { g with gain := gain }

/-- A started generator: frequency at FMIN, phase +0.0, PINC recomputed (R100, 90_conflicts.md C2). -/
def sgStartGen (g : SweepGen) : SweepGen :=
  { g with freq := g.fmin, phase := fZero, pinc := pincOf g.fmin g.fs, started := true }

/-! ## Commands -/

/-- SG_INIT (R96). -/
def execSgInit (s : State) : Host.Outcome State Fault Refusal :=
  .next (complete { s with sg := sgInitGen (f32Arg s .arg0) })

/-- SG_SET_RANGE (R97). -/
def execSgSetRange (s : State) : Host.Outcome State Fault Refusal :=
  .next (complete { s with sg := sgSetRange (f32Arg s .arg0) (f32Arg s .arg1) s.sg })

/-- SG_SET_TIME (R98). -/
def execSgSetTime (s : State) : Host.Outcome State Fault Refusal :=
  .next (complete { s with sg := sgSetTime (f32Arg s .arg0) s.sg })

/-- SG_SET_GAIN (R99). -/
def execSgSetGain (s : State) : Host.Outcome State Fault Refusal :=
  .next (complete { s with sg := sgSetGain (f32Arg s .arg0) s.sg })

/-- SG_START (R100). -/
def execSgStart (s : State) : Host.Outcome State Fault Refusal :=
  .next (complete { s with sg := sgStartGen s.sg })

/-- SG_PROCESS (R101): RANGE before NOT_STARTED (R143); MAX_FREQ_REACHED is the normal end of the sweep (R103). -/
def execSgProcess (count : Nat) (s : State) : Host.Outcome State Fault Refusal :=
  if !inRange s.build.dmemWords (u32Arg s .arg0) count then .next (raise .range s)
  else if !s.sg.started then .next (raise .notStarted s)
  else
    match sgFill count (u32Arg s .arg0) s.sg s.dmem with
    | .error f => .fault f
    | .ok r =>
      .next ((({ s with sg := r.gen }.withDmem r.dmem).withRes0 (u32Word r.count)).withResult
        (if r.exhausted then .maxFreqReached else .ok))

end Sys2Proof.Machine
end

