-- ==== Sys2Proof/Machine/AnalyzerUnit.lean ====
section
/-! DEFINITION. The frequency-response analyzer and the commands of unit 3, AN (43_analyzer.md). -/

namespace Sys2Proof.Machine

/-! ## Buffers (R122) -/

/-- `M = floor(C / 2) + 1`, the words of MAG and of PH for a capacity (R121, R122). -/
def binCapacity (cap : Nat) : Nat := cap / 2 + 1

/-- The number of bins of a transform of length `n` (R23, R131). -/
def binCount (n : Nat) : Nat := n / 2 + 1

/-- The words the four buffers take (R121). -/
def runWords (cap : Nat) : Nat := 2 * cap + 2 * binCapacity cap

/-- The first word of IN (R122). -/
def inBase (a : Analyzer) : Nat := a.base.toNat

/-- The first word of OUT (R122). -/
def outBase (a : Analyzer) : Nat := a.base.toNat + a.cap.toNat

/-- The first word of MAG (R122). -/
def magBase (a : Analyzer) : Nat := a.base.toNat + 2 * a.cap.toNat

/-- The first word of PH (R122). -/
def phBase (a : Analyzer) : Nat := a.base.toNat + 2 * a.cap.toNat + binCapacity a.cap.toNat

/-! ## The run (R123 to R126) -/

/-- `INIT_G()` (R123): the private generator at the analyzer's sample rate, 1 Hz to 20 kHz over 1 s, started. -/
def initPrivateGen (fs : Word) : SweepGen :=
  let g := sgSetRange fOne 0x469C4000#32 (sgInitGen fs)
  { sgStartGen g with gain := Config.anGenGain }

/-- "Clears prior run state": AN_LEN, AN_POS and AN_K are 0 and the state is IDLE (R125). -/
def clearRun (a : Analyzer) : Analyzer := { a with len := 0#32, pos := 0#32, k := 0#32, state := .idle }

/-- `GENERATE()` (R124): the private sweep into IN, at most AN_CAP samples. The sweep fits when it is exhausted. -/
def generate (a : Analyzer) (d : Dmem) : Except Fault SgFillResult :=
  sgFill a.cap.toNat (inBase a) (initPrivateGen a.fs) d

/-- What the common part of AN_BEGIN and AN_RUN_BQ gives. -/
structure SeedResult where
  /-- The sweep fits in AN_CAP. -/
  fits : Bool
  /-- The sweep length L, when it fits. -/
  len : Nat
  /-- The state so far: cleared, generated and, when the sweep fits, copied to OUT. -/
  state : State
  deriving DecidableEq, Repr

/-- The common part of AN_BEGIN (R125) and AN_RUN_BQ (R130): clear the run, generate the sweep into IN and, when it fits,
copy it to OUT bit for bit and set AN_LEN. -/
def seedRun (s : State) : Except Fault SeedResult :=
  match generate s.an s.dmem with
  | .error f => .error f
  | .ok r =>
    let cleared : State := { s with an := { clearRun s.an with gen := r.gen } }
    if !r.exhausted then .ok ⟨false, 0, cleared.withDmem r.dmem⟩
    else
      match copyWords r.count (inBase s.an) (outBase s.an) r.dmem with
      | .error f => .error f
      | .ok d =>
        .ok ⟨true, r.count, { cleared with an := { cleared.an with len := u32Word r.count } }.withDmem d⟩

/-- The end of a run whose sweep does not fit: RES0 is AN_CAP and RESULT is CAPACITY (R125, R146). -/
def capacityEnd (s : State) : State := (s.withRes0 s.an.cap).withResult .capacity

/-- The length of the chunk at a cursor: `min(AN_BS, L - pos)` (R126). -/
def chunkLen (bs len pos : Nat) : Nat := min bs (len - pos)

/-- The chunk loop of AN_RUN_BQ (R130): the `rest` words from `a` on, one block of at most `bs` words after the other.
The first argument bounds the number of chunks; only a block size of 0 exhausts it (log 16). -/
def bqChunks (form : BiquadForm) (bs : Nat) : Nat → Nat → Nat → Biquad → Dmem → Except Fault (Biquad × Dmem)
  | 0, rest, _, b, d => if rest = 0 then .ok (b, d) else .error .zeroBlockSize
  | fuel + 1, rest, a, b, d =>
    if rest = 0 then .ok (b, d)
    else
      match bqBlock form (chunkLen bs rest 0) a b d with
      | .error f => .error f
      | .ok r => bqChunks form bs fuel (rest - chunkLen bs rest 0) (a + chunkLen bs rest 0) r.1 r.2

/-! ## Spectral pipeline (R131 to R133) -/

/-- The magnitude of a ratio in dB (R132). -/
def ratioMagnitude (ratio : Word × Word) : Word := mul32 k20 (log10_32 (hypot32 ratio.1 ratio.2))

/-- The phase of a ratio in degrees, -180.0 replaced by +180.0 (R133). -/
def ratioPhase (ratio : Word × Word) : Word :=
  let ph := mul32 (atan2_32 ratio.2 ratio.1) rad2deg
  if eq32 ph 0xC3340000#32 then 0x43340000#32 else ph

/-- MAG and PH of one bin, from the output bin and the input bin (R131). -/
def spectrumBin (y x : Word × Word) : Word × Word :=
  let ratio := cdiv32 y x
  (ratioMagnitude ratio, ratioPhase ratio)

/-- Write the bins, each to the next word of MAG and then of PH, in rising order (R131). -/
def writeBins : List (Word × Word) → Nat → Nat → Dmem → Except Fault Dmem
  | [], _, _, d => .ok d
  | bin :: bins, mag, ph, d =>
    match memWrite d mag bin.1 with
    | .error f => .error f
    | .ok d1 =>
      match memWrite d1 ph bin.2 with
      | .error f => .error f
      | .ok d2 => writeBins bins (mag + 1) (ph + 1) d2

/-- The bins of an input and an output sequence (R131): the ratio of their transforms, bin by bin. -/
def spectrumBins (vin vout : List Word) : List (Word × Word) := List.zipWith spectrumBin (rdft32 vout) (rdft32 vin)

/-- `SPECTRUM(n)` (R131): DMEM with the spectra of the first `n` words of IN and OUT in MAG and PH. The number of bins is
`binCount n`. -/
def writeSpectra (a : Analyzer) (n : Nat) (d : Dmem) : Except Fault Dmem :=
  match readWords d n (inBase a) with
  | .error f => .error f
  | .ok vin =>
    match readWords d n (outBase a) with
    | .error f => .error f
    | .ok vout => writeBins (spectrumBins vin vout) (magBase a) (phBase a) d

/-! ## Commands -/

/-- AN_CONFIG (R121): CONFIG before RANGE (R143). -/
def execAnConfig (s : State) : Host.Outcome State Fault Refusal :=
  if u32Arg s .arg1 = 0 ∨ u32Arg s .arg3 = 0 then .next (raise .config s)
  else if !inRange s.build.dmemWords (u32Arg s .arg2) (runWords (u32Arg s .arg3)) then .next (raise .range s)
  else
    .next (complete
      { s with
        an :=
          { clearRun s.an with
            fs := f32Arg s .arg0
            bs := argWord s .arg1
            base := argWord s .arg2
            cap := argWord s .arg3 } })

/-- AN_BEGIN (R125). -/
def execAnBegin (s : State) : Host.Outcome State Fault Refusal :=
  if s.an.cap.toNat = 0 then .next (raise .config s)
  else
    match seedRun s with
    | .error f => .fault f
    | .ok r =>
      if !r.fits then .next (capacityEnd r.state)
      else .next (complete ((r.state.withAnState .chunks).withRes0 (u32Word r.len)))

/-- AN_NEXT (R127). -/
def execAnNext (s : State) : Host.Outcome State Fault Refusal :=
  if s.an.state ≠ .chunks then .next (raise .sequence s)
  else
    let len := chunkLen s.an.bs.toNat s.an.len.toNat s.an.pos.toNat
    let pos := s.an.pos.toNat + len
    .next (complete
      { s with
        res0 := u32Word (inBase s.an + s.an.pos.toNat)
        res1 := u32Word (outBase s.an + s.an.pos.toNat)
        res2 := u32Word len
        an :=
          { s.an with
            pos := u32Word pos
            state := if pos = s.an.len.toNat then .processed else .chunks } })

/-- AN_FINISH (R129). -/
def execAnFinish (s : State) : Host.Outcome State Fault Refusal :=
  if s.an.state ≠ .processed then .next (raise .sequence s)
  else
    match writeSpectra s.an s.an.len.toNat s.dmem with
    | .error f => .fault f
    | .ok d =>
      let k := u32Word (binCount s.an.len.toNat)
      .next (complete
        ((({ s with an := { s.an with k := k, state := .done } }.withDmem d).withRes0 s.an.len).withRes1 k))

/-- AN_RUN_BQ (R130): one run with the BQ unit as the device under test, its registers used as they are. -/
def execAnRunBq (s : State) : Host.Outcome State Fault Refusal :=
  if s.an.cap.toNat = 0 then .next (raise .config s)
  else
    match seedRun s with
    | .error f => .fault f
    | .ok r =>
      if !r.fits then .next (capacityEnd r.state)
      else
        match bqChunks s.build.form s.an.bs.toNat r.len r.len (outBase s.an) s.bq r.state.dmem with
        | .error f => .fault f
        | .ok p =>
          match writeSpectra s.an r.len p.2 with
          | .error f => .fault f
          | .ok d =>
            let k := u32Word (binCount r.len)
            let an := { r.state.an with pos := u32Word r.len, k := k, state := .done }
            .next (complete
              ((({ r.state with an := an, bq := p.1 }.withDmem d).withRes0 (u32Word r.len)).withRes1 k))

/-- AN_SPECTRUM (R134): CONFIG before RANGE (R143); AN_STATE, AN_LEN and AN_POS are not changed. -/
def execAnSpectrum (count : Nat) (s : State) : Host.Outcome State Fault Refusal :=
  if s.an.cap.toNat = 0 then .next (raise .config s)
  else if count = 0 ∨ s.an.cap.toNat < count then .next (raise .range s)
  else
    match writeSpectra s.an count s.dmem with
    | .error f => .fault f
    | .ok d =>
      let k := u32Word (binCount count)
      .next (complete
        ((({ s with an := { s.an with k := k } }.withDmem d).withRes0 (u32Word count)).withRes1 k))

end Sys2Proof.Machine
end

