-- ==== Sys2Proof/Machine/Control.lean ====
section
/-! DEFINITION. The commands of unit 0, CTL (40_control.md). -/

namespace Sys2Proof.Machine

/-- NOP (R90): RESULT is OK and nothing else changes. -/
def execNop (s : State) : Host.Outcome State Fault Refusal := .next (complete s)

/-- SYS_RESET (R91): every register takes its reset value; DMEM and its "written" marks stay. -/
def execSysReset (s : State) : Host.Outcome State Fault Refusal := .next (complete (resetRegisters s))

end Sys2Proof.Machine
end

