-- ==== Sys2Proof/Machine/Dispatch.lean ====
section
/-! DEFINITION. The dispatch of a command to its meaning (R83, R89). -/

namespace Sys2Proof.Machine

def exec (i : Instr) (s : State) : Host.Outcome State Fault Refusal :=
  match i with
  | .nop => Sys2Proof.Machine.execNop s
  | .sysReset => Sys2Proof.Machine.execSysReset s
  | .sgInit => Sys2Proof.Machine.execSgInit s
  | .sgSetRange => Sys2Proof.Machine.execSgSetRange s
  | .sgSetTime => Sys2Proof.Machine.execSgSetTime s
  | .sgSetGain => Sys2Proof.Machine.execSgSetGain s
  | .sgStart => Sys2Proof.Machine.execSgStart s
  | .sgProcess count => Sys2Proof.Machine.execSgProcess count s
  | .bqReset => Sys2Proof.Machine.execBqReset s
  | .bqSetCoefs => Sys2Proof.Machine.execBqSetCoefs s
  | .bqProcessSample => Sys2Proof.Machine.execBqProcessSample s
  | .bqProcessBlock count => Sys2Proof.Machine.execBqProcessBlock count s
  | .anConfig => Sys2Proof.Machine.execAnConfig s
  | .anBegin => Sys2Proof.Machine.execAnBegin s
  | .anNext => Sys2Proof.Machine.execAnNext s
  | .anFinish => Sys2Proof.Machine.execAnFinish s
  | .anRunBq => Sys2Proof.Machine.execAnRunBq s
  | .anSpectrum count => Sys2Proof.Machine.execAnSpectrum count s

end Sys2Proof.Machine
end

