-- ==== Sys2Proof/Machine/Registers.lean ====
section
/-! DEFINITION. The host-visible registers (R28): their names, their offsets in the register window, what a host read of
each returns, and what a host write of each does. -/

namespace Sys2Proof.Machine

/-- The host-visible registers of R28, in its order. -/
inductive RegName where
  /-- CMD at 0x000, write-only (reads 0). -/
  | cmd
  /-- STATUS at 0x004, read-only. -/
  | status
  /-- ARG0 at 0x008, read/write. -/
  | arg0
  /-- ARG1 at 0x00C, read/write. -/
  | arg1
  /-- ARG2 at 0x010, read/write. -/
  | arg2
  /-- ARG3 at 0x014, read/write. -/
  | arg3
  /-- ARG4 at 0x018, read/write. -/
  | arg4
  /-- RES0 at 0x01C, read-only. -/
  | res0
  /-- RES1 at 0x020, read-only. -/
  | res1
  /-- RES2 at 0x024, read-only. -/
  | res2
  /-- DMEM_SIZE at 0x028, read-only. -/
  | dmemSize
  /-- SG_FS at 0x040, read-only. -/
  | sgFs
  /-- SG_FMIN at 0x044, read-only. -/
  | sgFmin
  /-- SG_FMAX at 0x048, read-only. -/
  | sgFmax
  /-- SG_TIME at 0x04C, read-only. -/
  | sgTime
  /-- SG_GAIN at 0x050, read-only. -/
  | sgGain
  /-- SG_PHASE at 0x054, read-only. -/
  | sgPhase
  /-- SG_FREQ at 0x058, read-only. -/
  | sgFreq
  /-- SG_PINC at 0x05C, read-only. -/
  | sgPinc
  /-- SG_FINC at 0x060, read-only. -/
  | sgFinc
  /-- BQ_A0 at 0x080, read-only. -/
  | bqA0
  /-- BQ_A1 at 0x084, read-only. -/
  | bqA1
  /-- BQ_A2 at 0x088, read-only. -/
  | bqA2
  /-- BQ_B1 at 0x08C, read-only. -/
  | bqB1
  /-- BQ_B2 at 0x090, read-only. -/
  | bqB2
  /-- BQ_S0 at 0x094, read-only. -/
  | bqS0
  /-- BQ_S1 at 0x098, read-only. -/
  | bqS1
  /-- BQ_S2 at 0x09C, read-only. -/
  | bqS2
  /-- BQ_S3 at 0x0A0, read-only. -/
  | bqS3
  /-- AN_FS at 0x0C0, read-only. -/
  | anFs
  /-- AN_BS at 0x0C4, read-only. -/
  | anBs
  /-- AN_BASE at 0x0C8, read-only. -/
  | anBase
  /-- AN_CAP at 0x0CC, read-only. -/
  | anCap
  /-- AN_LEN at 0x0D0, read-only. -/
  | anLen
  /-- AN_POS at 0x0D4, read-only. -/
  | anPos
  /-- AN_K at 0x0D8, read-only. -/
  | anK
  deriving DecidableEq, Repr

/-- The byte offset of a register in the host register window (R28). -/
def RegName.offset : RegName → Nat
  | .cmd => 0x000
  | .status => 0x004
  | .arg0 => 0x008
  | .arg1 => 0x00C
  | .arg2 => 0x010
  | .arg3 => 0x014
  | .arg4 => 0x018
  | .res0 => 0x01C
  | .res1 => 0x020
  | .res2 => 0x024
  | .dmemSize => 0x028
  | .sgFs => 0x040
  | .sgFmin => 0x044
  | .sgFmax => 0x048
  | .sgTime => 0x04C
  | .sgGain => 0x050
  | .sgPhase => 0x054
  | .sgFreq => 0x058
  | .sgPinc => 0x05C
  | .sgFinc => 0x060
  | .bqA0 => 0x080
  | .bqA1 => 0x084
  | .bqA2 => 0x088
  | .bqB1 => 0x08C
  | .bqB2 => 0x090
  | .bqS0 => 0x094
  | .bqS1 => 0x098
  | .bqS2 => 0x09C
  | .bqS3 => 0x0A0
  | .anFs => 0x0C0
  | .anBs => 0x0C4
  | .anBase => 0x0C8
  | .anCap => 0x0CC
  | .anLen => 0x0D0
  | .anPos => 0x0D4
  | .anK => 0x0D8

/-- The register at a byte offset of the window, if the offset is mapped (R28, R63). -/
def regAt (offset : Nat) : Option RegName :=
  match offset with
  | 0x000 => some .cmd
  | 0x004 => some .status
  | 0x008 => some .arg0
  | 0x00C => some .arg1
  | 0x010 => some .arg2
  | 0x014 => some .arg3
  | 0x018 => some .arg4
  | 0x01C => some .res0
  | 0x020 => some .res1
  | 0x024 => some .res2
  | 0x028 => some .dmemSize
  | 0x040 => some .sgFs
  | 0x044 => some .sgFmin
  | 0x048 => some .sgFmax
  | 0x04C => some .sgTime
  | 0x050 => some .sgGain
  | 0x054 => some .sgPhase
  | 0x058 => some .sgFreq
  | 0x05C => some .sgPinc
  | 0x060 => some .sgFinc
  | 0x080 => some .bqA0
  | 0x084 => some .bqA1
  | 0x088 => some .bqA2
  | 0x08C => some .bqB1
  | 0x090 => some .bqB2
  | 0x094 => some .bqS0
  | 0x098 => some .bqS1
  | 0x09C => some .bqS2
  | 0x0A0 => some .bqS3
  | 0x0C0 => some .anFs
  | 0x0C4 => some .anBs
  | 0x0C8 => some .anBase
  | 0x0CC => some .anCap
  | 0x0D0 => some .anLen
  | 0x0D4 => some .anPos
  | 0x0D8 => some .anK
  | _ => none

/-- A register only a DIRECT build has: it reads 0 in a TRANSPOSED build (R28, R48). -/
def directOnly (form : BiquadForm) (w : Word) : Word :=
  match form with
  | .direct => w
  | .transposed => 0#32

/-- What a host read of a register returns (R28, R31, R33, R34, R48). -/
def readReg (s : State) : RegName → Word
  | .cmd => 0#32
  | .status => statusWord s
  | .arg0 => s.arg0
  | .arg1 => s.arg1
  | .arg2 => s.arg2
  | .arg3 => s.arg3
  | .arg4 => s.arg4
  | .res0 => s.res0
  | .res1 => s.res1
  | .res2 => s.res2
  | .dmemSize => u32Word s.build.dmemWords
  | .sgFs => s.sg.fs
  | .sgFmin => s.sg.fmin
  | .sgFmax => s.sg.fmax
  | .sgTime => s.sg.time
  | .sgGain => s.sg.gain
  | .sgPhase => s.sg.phase
  | .sgFreq => s.sg.freq
  | .sgPinc => s.sg.pinc
  | .sgFinc => s.sg.finc
  | .bqA0 => s.bq.a0
  | .bqA1 => s.bq.a1
  | .bqA2 => s.bq.a2
  | .bqB1 => s.bq.b1
  | .bqB2 => s.bq.b2
  | .bqS0 => s.bq.s0
  | .bqS1 => s.bq.s1
  | .bqS2 => directOnly s.build.form s.bq.s2
  | .bqS3 => directOnly s.build.form s.bq.s3
  | .anFs => s.an.fs
  | .anBs => s.an.bs
  | .anBase => s.an.base
  | .anCap => s.an.cap
  | .anLen => s.an.len
  | .anPos => s.an.pos
  | .anK => s.an.k

/-- What a host write of a register other than CMD does: it changes ARG0..ARG4 and is ignored elsewhere (R28, R64). A
write to CMD runs a command and is not this operation (R31, R89). -/
def writeReg (s : State) (w : Word) : RegName → State
  | .arg0 => { s with arg0 := w }
  | .arg1 => { s with arg1 := w }
  | .arg2 => { s with arg2 := w }
  | .arg3 => { s with arg3 := w }
  | .arg4 => { s with arg4 := w }
  | _ => s

end Sys2Proof.Machine
end

