-- ==== Sys2Proof/Machine/HostPort.lean ====
section
/-! DEFINITION. How the block serves one host event (R3, R63 to R71, R89, R151), and the host statements of the spec's
programs with their pseudo-instructions (R87, R88). -/

namespace Sys2Proof.Machine

/-! ## Serving an event -/

/-- Which window a bus address lies in, with the byte offset in it (R63, R65). The register window is looked up first, so
a platform that lets the windows overlap loses DMEM words, not registers (log 7). -/
inductive Target where
  /-- The register window, at a byte offset below 256. -/
  | reg (offset : Nat)
  /-- The data window, at a byte offset below 4 * DMEM_WORDS. -/
  | data (offset : Nat)
  /-- Neither window. -/
  | none
  deriving DecidableEq, Repr

/-- The window and offset of a bus address (R63, R65). -/
def targetOf (b : Build) (addr : Nat) : Target :=
  if b.regBase ≤ addr ∧ addr < b.regBase + Config.regWindowBytes then .reg (addr - b.regBase)
  else if b.dataBase ≤ addr ∧ addr < b.dataBase + 4 * b.dmemWords then .data (addr - b.dataBase)
  else .none

/-- `Execute(cmd)` (R89): an illegal word gives ILLEGAL_CMD and nothing else (R84, R142); any other runs its command. -/
def executeWord (w : Word) (s : State) : Host.Outcome State Fault Refusal :=
  match decode w with
  | .error _ => .next (raise .illegalCmd s)
  | .ok i => exec i s

/-- One aligned word access to the register window (R28, R64): a write to CMD is a command, an unmapped offset ignores
writes and reads as 0. -/
def serveReg (offset : Nat) (kind : AccessKind) (s : State) : Host.Outcome State Fault Refusal :=
  match kind, regAt offset with
  | .read, some r => .next { s with hostRead := some (readReg s r) }
  | .read, none => .next { s with hostRead := some 0#32 }
  | .write w, some r => if r = .cmd then executeWord w s else .next (writeReg s w r)
  | .write _, none => .next s

/-- One aligned word access to the data window, of DMEM word `a` (R65): a read of a word nothing has written is a fault of
the model (R74, log 5). -/
def serveData (a : Nat) (kind : AccessKind) (s : State) : Host.Outcome State Fault Refusal :=
  match kind with
  | .read =>
    match memRead s.dmem a with
    | .error f => .fault f
    | .ok w => .next { s with hostRead := some w }
  | .write w =>
    match memWrite s.dmem a w with
    | .error f => .fault f
    | .ok d => .next (s.withDmem d)

/-- An access is inside the interface when it is one word at an offset that is a multiple of 4 (R64, R65, R67). -/
def alignedWord (bytes offset : Nat) : Bool := bytes == 4 && offset % 4 == 0

/-- One host access (R63 to R67): outside the interface it has no step (R64, U7). -/
def serveAccess (x : HostAccess) (s : State) : Host.Outcome State Fault Refusal :=
  match targetOf s.build x.addr with
  | .none => .fault (.outsideWindows x.addr)
  | .reg offset => if alignedWord x.bytes offset then serveReg offset x.kind s else .refused .accessOutsideInterface
  | .data offset => if alignedWord x.bytes offset then serveData (offset / 4) x.kind s else .refused .accessOutsideInterface

/-- One host event: an access, or hardware reset (R151). -/
def serveEvent (e : HostEvent) (s : State) : Host.Outcome State Fault Refusal :=
  match e with
  | .access x => serveAccess x s
  | .reset => .next (hardwareReset s)

/-- One step of the block: with no event pending it is idle and keeps all state (R150, R151); else it serves the oldest
pending event, whole, before the next (R68, R71). -/
def serveNext (s : State) : Host.Outcome State Fault Refusal :=
  match s.hostQueue with
  | [] => .next s
  | e :: rest => serveEvent e { s with hostQueue := rest }

/-- The host write of a command word to CMD (R31, R87). -/
def commandEvent (b : Build) (w : Word) : HostEvent :=
  .access ⟨b.regBase + RegName.cmd.offset, 4, .write w⟩

/-- The state in which the host's next access writes a command word to CMD: the command is fetched from the host, since the
block fetches nothing (R3, R31, R73). -/
def issueCommand (s : State) (w : Word) : State :=
  { s with hostQueue := commandEvent s.build w :: s.hostQueue }

/-! ## Host statements (R87) and pseudo-instructions (R88) -/

/-- A statement of a host program (R87). Literals are words. -/
inductive HostStatement where
  /-- `wr REG, lit`. -/
  | wr (reg : RegName) (lit : Word)
  /-- `rd REG`. -/
  | rd (reg : RegName)
  /-- `st [a], lit`. -/
  | st (a : Nat) (lit : Word)
  /-- `ld [a]`. -/
  | ld (a : Nat)
  /-- A command mnemonic, with its count if it takes one. -/
  | cmd (i : Instr)
  deriving DecidableEq, Repr

/-- The host access a statement makes (R28, R65, R87). -/
def HostStatement.event (b : Build) : HostStatement → HostEvent
  | .wr reg lit => .access ⟨b.regBase + reg.offset, 4, .write lit⟩
  | .rd reg => .access ⟨b.regBase + reg.offset, 4, .read⟩
  | .st a lit => .access ⟨b.dataBase + 4 * a, 4, .write lit⟩
  | .ld a => .access ⟨b.dataBase + 4 * a, 4, .read⟩
  | .cmd i => commandEvent b (encode i)

/-- The pseudo-instructions of R88. -/
inductive Pseudo where
  /-- `sg.init.f fs`. -/
  | sgInit (fs : Word)
  /-- `sg.range.f min, max`. -/
  | sgRange (min max : Word)
  /-- `sg.time.f t`. -/
  | sgTime (t : Word)
  /-- `sg.gain.f g`. -/
  | sgGain (g : Word)
  /-- `sg.process.at base, n`. -/
  | sgProcessAt (base : Word) (n : Nat)
  /-- `bq.coefs.f a0, a1, a2, b1, b2`. -/
  | bqCoefs (a0 a1 a2 b1 b2 : Word)
  /-- `bq.bypass`. -/
  | bqBypass
  /-- `bq.sample.f x`. -/
  | bqSample (x : Word)
  /-- `bq.block.at base, n`. -/
  | bqBlockAt (base : Word) (n : Nat)
  /-- `an.config.f fs, bs, base, cap`. -/
  | anConfig (fs bs base cap : Word)
  deriving DecidableEq, Repr

/-- Load the five coefficients, each in its ARG register, and the command that takes them (R88, R112). -/
def coefStatements (a0 a1 a2 b1 b2 : Word) : List HostStatement :=
  [.wr .arg0 a0, .wr .arg1 a1, .wr .arg2 a2, .wr .arg3 b1, .wr .arg4 b2, .cmd .bqSetCoefs]

/-- The statements a pseudo-instruction expands to, in order (R88). -/
def Pseudo.expand : Pseudo → List HostStatement
  | .sgInit fs => [.wr .arg0 fs, .cmd .sgInit]
  | .sgRange min max => [.wr .arg0 min, .wr .arg1 max, .cmd .sgSetRange]
  | .sgTime t => [.wr .arg0 t, .cmd .sgSetTime]
  | .sgGain g => [.wr .arg0 g, .cmd .sgSetGain]
  | .sgProcessAt base n => [.wr .arg0 base, .cmd (.sgProcess n)]
  | .bqCoefs a0 a1 a2 b1 b2 => coefStatements a0 a1 a2 b1 b2
  | .bqBypass => coefStatements 0x3F800000#32 0#32 0#32 0#32 0#32
  | .bqSample x => [.wr .arg0 x, .cmd .bqProcessSample]
  | .bqBlockAt base n => [.wr .arg0 base, .cmd (.bqProcessBlock n)]
  | .anConfig fs bs base cap => [.wr .arg0 fs, .wr .arg1 bs, .wr .arg2 base, .wr .arg3 cap, .cmd .anConfig]

/-- The state with the accesses of a host program appended to the host's queue (R71, R87). -/
def withProgram (s : State) (p : List HostStatement) : State :=
  { s with hostQueue := s.hostQueue ++ p.map (HostStatement.event s.build) }

end Sys2Proof.Machine
end

