-- ==== Sys2Proof/Machine/Step.lean ====
section
/-! DEFINITION. The step of the block, and the state that runs a given command next. -/

namespace Sys2Proof.Machine

/-- One step: the block serves the oldest event of the host, or is idle (R71, R89, R150). -/
def step (s : State) : Host.Outcome State Fault Refusal := serveNext s

/-- `s` with the host's next access writing the command of `nbits` bits `w` to CMD, where the block takes its commands
from (R31, R73, log 3). -/
def State.withFetchWord (s : State) (nbits w : Nat) : State := issueCommand s (tableWord nbits w)

end Sys2Proof.Machine
end

