-- ==== Sys2Proof/Safety.lean ====
section
/-! DEFINITION. The terms the statements use: what a generator and a filter do over many samples, the sweep length, and the
invariants of the machine. -/

namespace Sys2Proof.Machine

/-! ## Generators and filters over many samples -/

/-- The generator after `n` samples (R95). -/
def genAfter (g : SweepGen) : Nat → SweepGen
  | 0 => g
  | n + 1 => genAfter (sgStep g).gen n

/-- Sample `n` of a generator, counted from 0 (R95). -/
def sampleOf (g : SweepGen) (n : Nat) : Word := (sgStep (genAfter g n)).sample

/-- The frequency after `n` samples: the binary32 partial sum FREQ + FINC + .. + FINC, each addition rounded (R95, R107). -/
def freqAfter (g : SweepGen) : Nat → Word
  | 0 => g.freq
  | n + 1 => add32 (freqAfter g n) g.finc

/-- The sweep ends with its `m`-th sample: `m` is the least positive number whose partial sum exceeds FMAX (R107). -/
abbrev sweepEndsAt (g : SweepGen) (m : Nat) : Prop :=
  0 < m ∧ gt32 (freqAfter g m) g.fmax = true ∧ ∀ j < m, 0 < j → gt32 (freqAfter g j) g.fmax = false

/-- The sweep does not end within `n` samples. -/
abbrev sweepRunsOn (g : SweepGen) (n : Nat) : Prop := ∀ j < n + 1, 0 < j → gt32 (freqAfter g j) g.fmax = false

/-- The filter after a sequence of input samples (R108, R109). -/
def bqAfter (form : BiquadForm) : Biquad → List Word → Biquad
  | b, [] => b
  | b, x :: xs => bqAfter form (bqStep form b x).1 xs

/-- The outputs of the filter for a sequence of input samples (R108, R109). -/
def bqOutputs (form : BiquadForm) : Biquad → List Word → List Word
  | _, [] => []
  | b, x :: xs => (bqStep form b x).2 :: bqOutputs form (bqStep form b x).1 xs

/-! ## The register window -/

/-- What the host reads at each mapped offset of the register window (R28, R31, R33, R34, R48): the table of R28 with
offsets written out. -/
def regTable (s : State) : List (Nat × Word) :=
  [(0x000, 0#32), (0x004, statusWord s), (0x008, s.arg0), (0x00C, s.arg1), (0x010, s.arg2), (0x014, s.arg3),
   (0x018, s.arg4), (0x01C, s.res0), (0x020, s.res1), (0x024, s.res2),
   (0x028, BitVec.ofNat 32 s.build.dmemWords), (0x040, s.sg.fs), (0x044, s.sg.fmin), (0x048, s.sg.fmax),
   (0x04C, s.sg.time), (0x050, s.sg.gain), (0x054, s.sg.phase), (0x058, s.sg.freq), (0x05C, s.sg.pinc),
   (0x060, s.sg.finc), (0x080, s.bq.a0), (0x084, s.bq.a1), (0x088, s.bq.a2), (0x08C, s.bq.b1), (0x090, s.bq.b2),
   (0x094, s.bq.s0), (0x098, s.bq.s1), (0x09C, if s.build.form = .direct then s.bq.s2 else 0#32),
   (0x0A0, if s.build.form = .direct then s.bq.s3 else 0#32), (0x0C0, s.an.fs), (0x0C4, s.an.bs),
   (0x0C8, s.an.base), (0x0CC, s.an.cap), (0x0D0, s.an.len), (0x0D4, s.an.pos), (0x0D8, s.an.k)]

/-- What the host reads at each mapped offset after reset and after SYS_RESET (R58). -/
def resetTable (b : Build) : List (Nat × Word) :=
  [(0x000, 0#32), (0x004, BitVec.ofNat 32 (2 ^ 7 * formCode b.form)), (0x008, 0#32), (0x00C, 0#32),
   (0x010, 0#32), (0x014, 0#32), (0x018, 0#32), (0x01C, 0#32), (0x020, 0#32), (0x024, 0#32),
   (0x028, BitVec.ofNat 32 b.dmemWords), (0x040, 0x473B8000#32), (0x044, 0x41A00000#32), (0x048, 0x469C4000#32),
   (0x04C, 0x3F800000#32), (0x050, 0x3F800000#32), (0x054, 0#32), (0x058, 0x41A00000#32),
   (0x05C, 0x3B2B92A7#32), (0x060, 0x3ED51EB8#32), (0x080, 0x3F800000#32), (0x084, 0#32), (0x088, 0#32),
   (0x08C, 0#32), (0x090, 0#32), (0x094, 0#32), (0x098, 0#32), (0x09C, 0#32), (0x0A0, 0#32),
   (0x0C0, 0x473B8000#32), (0x0C4, 16#32), (0x0C8, 0#32), (0x0CC, 0#32), (0x0D0, 0#32), (0x0D4, 0#32),
   (0x0D8, 0#32)]

/-! ## Which commands change what (R30, R57, R61, R80, R115) -/

/-- A command of unit 1 (R83). -/
def isSgCommand : Instr → Bool
  | .sgInit | .sgSetRange | .sgSetTime | .sgSetGain | .sgStart | .sgProcess _ => true
  | _ => false

/-- A command of unit 2 (R83). -/
def isBqCommand : Instr → Bool
  | .bqReset | .bqSetCoefs | .bqProcessSample | .bqProcessBlock _ => true
  | _ => false

/-- A command of unit 3 (R83). -/
def isAnCommand : Instr → Bool
  | .anConfig | .anBegin | .anNext | .anFinish | .anRunBq | .anSpectrum _ => true
  | _ => false

/-- The commands that write DMEM (R61). -/
def writesDmem : Instr → Bool
  | .sgProcess _ | .bqProcessBlock _ | .anBegin | .anFinish | .anRunBq | .anSpectrum _ => true
  | _ => false

/-- The commands that name RES0 (R80). -/
def namesRes0 : Instr → Bool
  | .sysReset | .sgProcess _ | .bqProcessSample | .anBegin | .anNext | .anFinish | .anRunBq | .anSpectrum _ => true
  | _ => false

/-- The commands that name RES1 (R80). -/
def namesRes1 : Instr → Bool
  | .sysReset | .anNext | .anFinish | .anRunBq | .anSpectrum _ => true
  | _ => false

/-- The commands that name RES2 (R80). -/
def namesRes2 : Instr → Bool
  | .sysReset | .anNext => true
  | _ => false

/-- The result codes of the pre-execution errors (R142). -/
def isPreExecutionError : ResultCode → Bool
  | .notStarted | .illegalCmd | .range | .sequence | .config => true
  | .ok | .maxFreqReached | .capacity => false

/-! ## Rounding -/

/-- `r` is `num / den` units of 2^-149 rounded to binary32, to nearest with ties to even, and to infinity from the midpoint
between the largest finite magnitude and 2^128 on (R12, R13). Zeros count as equal. -/
structure RoundsTo (r : Word) (num : Int) (den : Nat) : Prop where
  /-- The result is no NaN. -/
  number : isNaN32 r = false
  /-- It overflows exactly from the midpoint on. -/
  overflow : isInf32 r = true ↔ (2 ^ 25 - 1) * 2 ^ 252 * (den : Int) ≤ |num|
  /-- A positive value has the sign 0, a negative one the sign 1. -/
  sign : (0 < num → signBit r = false) ∧ (num < 0 → signBit r = true)
  /-- No finite value is nearer. -/
  nearest : isFinite32 r = true → ∀ c, isFinite32 c = true → |units r * den - num| ≤ |units c * den - num|
  /-- Of two nearest values it is the even one. -/
  even : isFinite32 r = true → ∀ c, isFinite32 c = true → units c ≠ units r →
    |units r * den - num| = |units c * den - num| → magBits r % 2 = 0

/-- The infinity of a sign (R13). -/
def signedInf (neg : Bool) : Word := if neg then 0xFF800000#32 else 0x7F800000#32

/-! ## Ratios of bins -/

/-- The product of two values neither overflows nor becomes subnormal: a factor is zero, or the product is clear of
underflow (R139). -/
def productInRange (a b : Word) : Bool := isZero32 a || isZero32 b || clearOfUnderflow (mul32 a b)

/-- R139's condition on the bin `(c, d)` of IN and the power `j`, for an output bin `2^j * (c, d)`: the powers of two are
exact, the squared magnitude of the bin and the numerator of the ratio's real part are normal numbers, and no product
overflows or becomes subnormal. -/
structure RatioScales (j : Int) (c d : Word) : Prop where
  /-- `2^j` is a normal number. -/
  power : scalesExactly j fOne = true
  /-- `2^j * c` is exact. -/
  re : scalesExactly j c = true
  /-- `2^j * d` is exact. -/
  im : scalesExactly j d = true
  /-- `c*c + d*d` is normal. -/
  denominator : isNormal32 (add32 (mul32 c c) (mul32 d d)) = true
  /-- `2^j * c*c + 2^j * d*d` is normal. -/
  numerator : isNormal32 (add32 (mul32 (scale32 j c) c) (mul32 (scale32 j d) d)) = true
  /-- The products of the denominator. -/
  squares : productInRange c c = true ∧ productInRange d d = true
  /-- The products of the numerators. -/
  products : productInRange (scale32 j c) c = true ∧ productInRange (scale32 j d) d = true ∧
    productInRange (scale32 j d) c = true

/-! ## The host's loops -/

/-- AN_NEXT issued `n` times in a row (R126, R127). -/
def repeatNext : Nat → State → Host.Outcome State Fault Refusal
  | 0, s => .next s
  | n + 1, s =>
    match exec .anNext s with
    | .next t => repeatNext n t
    | .fault f => .fault f
    | .refused r => .refused r

/-- The host's chunk loop with the BQ unit as its device under test (R138): AN_NEXT, ARG0 <- RES1, BQ_PROCESS_BLOCK of RES2
samples, `n` times. -/
def repeatChunk : Nat → State → Host.Outcome State Fault Refusal
  | 0, s => .next s
  | n + 1, s =>
    match exec .anNext s with
    | .next t =>
      match exec (.bqProcessBlock t.res2.toNat) { t with arg0 := t.res1 } with
      | .next u => repeatChunk n u
      | .fault f => .fault f
      | .refused r => .refused r
    | .fault f => .fault f
    | .refused r => .refused r

/-- The number of chunks of a run: L / BS rounded up (R126). -/
def chunkCount (len bs : Nat) : Nat := (len + bs - 1) / bs

/-! ## Invariants -/

/-- The parameters are ones a block can be built with (R7). -/
abbrev legalBuild (b : Build) : Prop := 1 ≤ b.dmemWords ∧ b.dmemWords ≤ 2 ^ 31

/-- DMEM is in its canonical form, lies inside DMEM_WORDS words, and holds whole words (R59, R60, R74). -/
abbrev DmemInv (s : State) : Prop :=
  Memory.wf s.mem ∧ ∀ c ∈ s.mem, c.1 < 4 * s.build.dmemWords ∧ (readWord s.mem (c.1 / 4)).isSome = true

/-- A phase inside [0, TWO_PI], or a NaN (R40, R45). -/
def phaseInRange (w : Word) : Bool := isNaN32 w || (!gt32 fZero w && !gt32 w twoPi)

/-- The invariants of R45 for a generator. -/
abbrev SgInv (g : SweepGen) : Prop :=
  g.pinc = pincOf g.freq g.fs ∧ g.finc = fincOf g.fmin g.fmax g.fs g.time ∧ phaseInRange g.phase = true

/-- The words `a .. a+n-1` of DMEM are written. -/
def writtenRegion (m : Memory) (a n : Nat) : Bool := (List.range n).all (fun i => (readWord m (a + i)).isSome)

/-- The invariants of the analyzer: the configuration AN_CONFIG checked (R121, R122), the bounds of L, the cursor and K
(R53 to R55, R122), what each AN_STATE means for them (R56, R137), and a run whose IN and OUT words are written (R129). -/
structure AnInv (s : State) : Prop where
  /-- An unconfigured analyzer has no run and no spectra (R52, R58). -/
  unconfigured : s.an.cap.toNat = 0 → s.an.state = .idle ∧ s.an.k.toNat = 0
  /-- A configuration fits (R121). -/
  configured : s.an.cap.toNat ≠ 0 → s.an.bs.toNat ≠ 0 ∧ s.an.base.toNat + runWords s.an.cap.toNat ≤ s.build.dmemWords
  /-- L is at most C (R122). -/
  lenLeCap : s.an.len.toNat ≤ s.an.cap.toNat
  /-- The cursor is in 0 .. L (R54). -/
  posLeLen : s.an.pos.toNat ≤ s.an.len.toNat
  /-- K is at most M (R122). -/
  kLe : s.an.k.toNat ≤ binCapacity s.an.cap.toNat
  /-- No run in IDLE (R56). -/
  idle : s.an.state = .idle → s.an.len.toNat = 0
  /-- Chunks remain in CHUNKS (R56). -/
  chunks : s.an.state = .chunks → s.an.pos.toNat < s.an.len.toNat
  /-- Every chunk has been handed out in PROCESSED (R56). -/
  processed : s.an.state = .processed → 0 < s.an.len.toNat ∧ s.an.pos.toNat = s.an.len.toNat
  /-- A run is over in DONE (R56). -/
  done : s.an.state = .done → 0 < s.an.len.toNat ∧ s.an.pos.toNat = s.an.len.toNat
  /-- The samples of the run are written in IN (R125). -/
  inWritten : writtenRegion s.mem (inBase s.an) s.an.len.toNat = true
  /-- The samples of the run are written in OUT (R125). -/
  outWritten : writtenRegion s.mem (outBase s.an) s.an.len.toNat = true

/-- The invariant of the machine. -/
structure MachineInv (s : State) : Prop where
  /-- The build is legal. -/
  build : legalBuild s.build
  /-- DMEM is well-formed. -/
  dmem : DmemInv s
  /-- The SG registers meet R45. -/
  sg : SgInv s.sg
  /-- The analyzer's invariants. -/
  an : AnInv s

end Sys2Proof.Machine
end

