-- ==== Sys2Proof/Certificates/Slice0/Obligations.lean ====
section
/-! DEFINITION. The statements for the provers. Each docstring names the rules of spec/ its statement rests on. -/

open Sys2Proof Sys2Proof.Machine

/-! ## Encoding -/

/-- R76, R79, R83: decoding the word of a well-formed command gives the command back. -/
def Obligations.DecodeOfEncode : Prop :=
  ∀ i : Instr, i.wellFormed = true → decode (encode i) = .ok i

/-- R83, R85: a word that decodes is the word of its command, which is well-formed: no two words decode to one command.
-/
def Obligations.EncodeOfDecode : Prop :=
  ∀ (w : Word) (i : Instr), decode w = .ok i → encode i = w ∧ i.wellFormed = true

/-- R84: the illegal words are exactly those of the rule's list, and each ends with ILLEGAL_CMD and changes nothing
else. -/
def Obligations.IllegalCommandWords : Prop :=
  ∀ (w : Word) (s : State),
    let unit := w.toNat / 2 ^ 28
    let op := w.toNat / 2 ^ 24 % 16
    let n := w.toNat % 2 ^ 24
    let takesCount := (unit = 1 ∧ op = 5) ∨ (unit = 2 ∧ op = 3) ∨ (unit = 3 ∧ op = 5)
    let illegal := 4 ≤ unit ∨ (unit = 0 ∧ 2 ≤ op) ∨ (unit = 1 ∧ 6 ≤ op) ∨ (unit = 2 ∧ 4 ≤ op) ∨ (unit = 3 ∧ 6 ≤ op) ∨
      (¬takesCount ∧ n ≠ 0)
    ((∃ r, decode w = .error r) ↔ illegal) ∧
      (illegal → executeWord w s = .next { s with result := .illegalCmd })

/-- R83, sanity: words written out from the opcode map decode to the commands they stand for, at least one of each
unit. -/
def Obligations.SampleWordsDecode : Prop :=
  decode 0x00000000#32 = .ok .nop ∧ decode 0x01000000#32 = .ok .sysReset ∧ decode 0x10000000#32 = .ok .sgInit ∧
    decode 0x15000010#32 = .ok (.sgProcess 16) ∧ decode 0x15FFFFFF#32 = .ok (.sgProcess 16777215) ∧
    decode 0x22000000#32 = .ok .bqProcessSample ∧ decode 0x23000004#32 = .ok (.bqProcessBlock 4) ∧
    decode 0x30000000#32 = .ok .anConfig ∧ decode 0x34000000#32 = .ok .anRunBq ∧
    decode 0x35000004#32 = .ok (.anSpectrum 4) ∧ decode 0x00000001#32 = .error .countNotZero ∧
    decode 0x3F000000#32 = .error .noCommand ∧ decode 0x40000000#32 = .error .noUnit

/-! ## The step and the host's accesses -/

/-- R31, R84, R89: when the host's oldest access writes a word to CMD, the step executes that word on the state without
the access: `exec i` where the word decodes to `i`, and ILLEGAL_CMD with nothing else changed where it decodes to none (log 3
names the queue of accesses). -/
def Obligations.StepRunsDecodedCommand : Prop :=
  ∀ (s : State) (w : Word) (rest : List HostEvent),
    s.hostQueue = .access ⟨s.build.regBase, 4, .write w⟩ :: rest →
      step s = executeWord w { s with hostQueue := rest } ∧
        (∀ i, decode w = .ok i → step s = exec i { s with hostQueue := rest }) ∧
        ∀ r, decode w = .error r → step s = .next { s with hostQueue := rest, result := .illegalCmd }

/-- R31, R75: `withFetchWord` with the word of a well-formed command makes the very next step run that command. -/
def Obligations.WithFetchWordRunsCommand : Prop :=
  ∀ (s : State) (i : Instr), i.wellFormed = true → step (s.withFetchWord 32 (encode i).toNat) = exec i s

/-- R150: with no access pending the block is idle and keeps all state. -/
def Obligations.IdleBlockKeepsAllState : Prop :=
  ∀ s : State, s.hostQueue = [] → step s = .next s

/-- R28, R63, R64, R68: a host read at a word offset of the register window returns the register the table of R28 lists
there, or 0 at an unmapped offset, and has no side effect. -/
def Obligations.HostRegisterReads : Prop :=
  ∀ (s : State) (o : Nat) (rest : List HostEvent), o < 256 → o % 4 = 0 →
    s.hostQueue = .access ⟨s.build.regBase + o, 4, .read⟩ :: rest →
      step s = .next { s with hostQueue := rest, hostRead := some (((regTable s).lookup o).getD 0#32) }

/-- R64: host writes to read-only registers and unmapped offsets are ignored, a write to ARG0..ARG4 sets that register
(R28), reads of unmapped offsets and of CMD return 0, and an access that is not one aligned word has no step. -/
def Obligations.HostRegisterWindowRules : Prop :=
  ∀ (s : State) (o : Nat) (w : Word) (rest : List HostEvent), o < 256 →
    (o % 4 = 0 → o ≠ 0 → s.hostQueue = .access ⟨s.build.regBase + o, 4, .write w⟩ :: rest →
      step s = .next
        { s with
          hostQueue := rest
          arg0 := if o = 0x008 then w else s.arg0
          arg1 := if o = 0x00C then w else s.arg1
          arg2 := if o = 0x010 then w else s.arg2
          arg3 := if o = 0x014 then w else s.arg3
          arg4 := if o = 0x018 then w else s.arg4 }) ∧
    (o % 4 = 0 → (o = 0 ∨ (regTable s).lookup o = none) →
      s.hostQueue = .access ⟨s.build.regBase + o, 4, .read⟩ :: rest →
      step s = .next { s with hostQueue := rest, hostRead := some 0#32 }) ∧
    ∀ (bytes : Nat) (kind : AccessKind), (bytes ≠ 4 ∨ o % 4 ≠ 0) →
      s.hostQueue = .access ⟨s.build.regBase + o, bytes, kind⟩ :: rest → step s = .refused .accessOutsideInterface

/-- R64, R65, R66, R67, R74: through the data window the host writes DMEM word `a`, little-endian in its four bytes, and
reads a written word back; a read of a word nothing has written is a fault of the model (log 5); an access of the window that
is not one aligned word has no step (log 6). The statement is about places outside the register window (log 7). -/
def Obligations.HostDataWindowAccess : Prop :=
  (∀ (s : State) (a : Nat) (rest : List HostEvent), a < s.build.dmemWords →
    (s.build.dataBase + 4 * a < s.build.regBase ∨ s.build.regBase + 256 ≤ s.build.dataBase + 4 * a) →
    (∀ w : Word, s.hostQueue = .access ⟨s.build.dataBase + 4 * a, 4, .write w⟩ :: rest →
      ∃ m, step s = .next { s with hostQueue := rest, mem := m } ∧ readWord m a = some w ∧
        (∀ j < 4, readByte m (4 * a + j) = some (w.extractLsb' (8 * j) 8)) ∧
        ∀ x, (x < 4 * a ∨ 4 * a + 4 ≤ x) → readByte m x = readByte s.mem x) ∧
    (s.hostQueue = .access ⟨s.build.dataBase + 4 * a, 4, .read⟩ :: rest →
      (∀ w, readWord s.mem a = some w → step s = .next { s with hostQueue := rest, hostRead := some w }) ∧
        (readWord s.mem a = none → step s = .fault (.unwrittenWord a)))) ∧
  ∀ (s : State) (o bytes : Nat) (kind : AccessKind) (rest : List HostEvent), o < 4 * s.build.dmemWords →
    (s.build.dataBase + o < s.build.regBase ∨ s.build.regBase + 256 ≤ s.build.dataBase + o) →
    (bytes ≠ 4 ∨ o % 4 ≠ 0) → s.hostQueue = .access ⟨s.build.dataBase + o, bytes, kind⟩ :: rest →
      step s = .refused .accessOutsideInterface

/-- R33, R56, R141: the fields of STATUS lie where the rule puts them, with the codes of R141 and R56, and bits 31:8
read 0. -/
def Obligations.StatusWordFields : Prop :=
  ∀ s : State,
    (statusWord s).toNat % 16 =
      (match s.result with
        | .ok => 0
        | .notStarted => 1
        | .maxFreqReached => 2
        | .illegalCmd => 3
        | .range => 4
        | .sequence => 5
        | .capacity => 6
        | .config => 7) ∧
    (statusWord s).toNat / 16 % 4 =
      (match s.an.state with
        | .idle => 0
        | .chunks => 1
        | .processed => 2
        | .done => 3) ∧
    (statusWord s).toNat / 64 % 2 = (if s.sg.started then 1 else 0) ∧
    (statusWord s).toNat / 128 % 2 = (if s.build.form = .transposed then 1 else 0) ∧
    (statusWord s).toNat < 256

/-- R58, R91, R151: after reset, after a hardware reset of any state and after SYS_RESET in any state every register holds
its value of R58; hardware reset leaves no DMEM byte a value, SYS_RESET leaves DMEM alone and completes with OK. The build of
State.reset (log 2) and that a hardware reset keeps hostQueue and hostRead (log 17) are the model's choices. -/
def Obligations.ResetValues : Prop :=
  regTable State.reset = resetTable State.reset.build ∧ (∀ x, readByte State.reset.mem x = none) ∧
    ∀ s : State,
      (∃ t, exec .sysReset s = .next t ∧ regTable t = resetTable s.build ∧ t.result = .ok ∧ t.mem = s.mem ∧
        t.build = s.build ∧ t.hostQueue = s.hostQueue ∧ t.hostRead = s.hostRead) ∧
      ∀ rest, s.hostQueue = .reset :: rest →
        ∃ t, step s = .next t ∧ regTable t = resetTable s.build ∧ (∀ x, readByte t.mem x = none) ∧ t.build = s.build ∧
          t.hostQueue = rest ∧ t.hostRead = s.hostRead

/-! ## Rules over all commands -/

/-- R90: NOP sets RESULT to OK and changes nothing else. -/
def Obligations.NopOnlySetsOk : Prop :=
  ∀ s : State, exec .nop s = .next { s with result := .ok }

/-- R142: a command word that ends with NOT_STARTED, ILLEGAL_CMD, RANGE, SEQUENCE or CONFIG changes STATUS.RESULT and
nothing else. -/
def Obligations.PreExecutionErrorsChangeOnlyResult : Prop :=
  ∀ (w : Word) (s t : State), executeWord w s = .next t → isPreExecutionError t.result = true →
    t = { s with result := t.result }

/-- R145: no command reads RESULT and every command overwrites it: what a command does, its RESULT included, does not
depend on the RESULT before it. -/
def Obligations.ResultDescribesTheLastCommand : Prop :=
  ∀ (i : Instr) (s : State) (c : ResultCode), exec i { s with result := c } = exec i s

/-- R74, R129, R142: from every state that meets the invariant no command is refused, and the only fault is a read of a
DMEM word that nothing has written, by one of the two commands that read data the host chose: BQ_PROCESS_BLOCK and
AN_SPECTRUM. -/
def Obligations.OnlyUnwrittenHostDataFaults : Prop :=
  ∀ (i : Instr) (s : State), MachineInv s →
    (∀ r, exec i s ≠ .refused r) ∧
    ∀ f, exec i s = .fault f →
      ∃ a, f = .unwrittenWord a ∧ readWord s.mem a = none ∧
        ((∃ n, i = .bqProcessBlock n) ∨ ∃ n, i = .anSpectrum n)

/-- R8, R29, R30, R57, R61, R80, R115: a command that gives a next state leaves the build and the host's side alone, and
changes ARG registers, RES registers, the registers of a unit and DMEM only if it is one that the rules say does. -/
def Obligations.CommandsChangeOnlyWhatTheyName : Prop :=
  ∀ (i : Instr) (s t : State), exec i s = .next t →
    t.build = s.build ∧ t.hostQueue = s.hostQueue ∧ t.hostRead = s.hostRead ∧
    (i ≠ .sysReset → t.arg0 = s.arg0 ∧ t.arg1 = s.arg1 ∧ t.arg2 = s.arg2 ∧ t.arg3 = s.arg3 ∧ t.arg4 = s.arg4) ∧
    (namesRes0 i = false → t.res0 = s.res0) ∧ (namesRes1 i = false → t.res1 = s.res1) ∧
    (namesRes2 i = false → t.res2 = s.res2) ∧
    (i ≠ .sysReset → isSgCommand i = false → t.sg = s.sg) ∧
    (i ≠ .sysReset → isBqCommand i = false → i ≠ .anRunBq → t.bq = s.bq) ∧
    (i ≠ .sysReset → isAnCommand i = false → t.an = s.an) ∧
    (writesDmem i = false → ∀ x, readByte t.mem x = readByte s.mem x)

/-! ## Sweep generator -/

/-- R92, R93, R95, R123: the increments, one generator step, and the private generator a run starts with. -/
def Obligations.GeneratorFormulas : Prop :=
  (∀ fmin fmax fs time : Word, fincOf fmin fmax fs time = div32 (sub32 fmax fmin) (mul32 fs time)) ∧
  (∀ freq fs : Word, pincOf freq fs = div32 (mul32 0x40C90FDB#32 freq) fs) ∧
  (∀ g : SweepGen,
    sgStep g =
      { gen :=
          { g with
            phase := wrapPhase (add32 g.phase g.pinc)
            freq := add32 g.freq g.finc
            pinc := pincOf (add32 g.freq g.finc) g.fs
            started := if gt32 (add32 g.freq g.finc) g.fmax then false else g.started }
        sample := mul32 g.gain (sin32 g.phase)
        exhausted := gt32 (add32 g.freq g.finc) g.fmax }) ∧
  ∀ fs : Word,
    initPrivateGen fs =
      { fs := fs
        fmin := 0x3F800000#32
        fmax := 0x469C4000#32
        time := 0x3F800000#32
        gain := 0x3F800000#32
        phase := 0#32
        freq := 0x3F800000#32
        pinc := pincOf 0x3F800000#32 fs
        finc := fincOf 0x3F800000#32 0x469C4000#32 fs 0x3F800000#32
        started := true }

/-- R94: the wrap is the exact remainder by TWO_PI, with TWO_PI added to a negative one. From that (the spec marks the
ranges as derived): the wrap of a finite phase is in [0, TWO_PI], that of an infinite or NaN phase is the canonical NaN, and
below 2 * TWO_PI the wrap is one subtraction. -/
def Obligations.WrapPhaseRange : Prop :=
  ∀ p : Word,
    wrapPhase p =
        (if gt32 0#32 (fmod32 p 0x40C90FDB#32) then add32 (fmod32 p 0x40C90FDB#32) 0x40C90FDB#32
          else fmod32 p 0x40C90FDB#32) ∧
    (isFinite32 p = true →
      isNaN32 (wrapPhase p) = false ∧ gt32 0#32 (wrapPhase p) = false ∧ gt32 (wrapPhase p) 0x40C90FDB#32 = false) ∧
    (isFinite32 p = false → wrapPhase p = 0x7FC00000#32) ∧
    (isFinite32 p = true → gt32 0#32 p = false → gt32 0x41490FDB#32 p = true →
      wrapPhase p = if gt32 0x40C90FDB#32 p then p else sub32 p 0x40C90FDB#32)

/-- R96: the word of SG_INIT, and SG_INIT constructs the defaults at the sample rate of ARG0, stopped. -/
def Obligations.SgInitConstructsDefaults : Prop :=
  decode 0x10000000#32 = .ok .sgInit ∧
  ∀ s : State,
    exec .sgInit s = .next
      { s with
        result := .ok
        sg :=
          { fs := s.arg0
            fmin := 0x41A00000#32
            fmax := 0x469C4000#32
            time := 0x3F800000#32
            gain := 0x3F800000#32
            phase := 0#32
            freq := 0x41A00000#32
            pinc := div32 (mul32 0x40C90FDB#32 0x41A00000#32) s.arg0
            finc := div32 (sub32 0x469C4000#32 0x41A00000#32) (mul32 s.arg0 0x3F800000#32)
            started := false } }

/-- R97, R98, R99, R105: the setters' words, and each setter writes its registers and recomputes SG_FINC, and changes
nothing else, started or not. -/
def Obligations.SgSettersWriteTheirRegisters : Prop :=
  decode 0x11000000#32 = .ok .sgSetRange ∧ decode 0x12000000#32 = .ok .sgSetTime ∧ decode 0x13000000#32 = .ok .sgSetGain ∧
  ∀ s : State,
    exec .sgSetRange s = .next
      { s with
        result := .ok
        sg :=
          { s.sg with
            fmin := s.arg0
            fmax := s.arg1
            finc := div32 (sub32 s.arg1 s.arg0) (mul32 s.sg.fs s.sg.time) } } ∧
    exec .sgSetTime s = .next
      { s with
        result := .ok
        sg := { s.sg with time := s.arg0, finc := div32 (sub32 s.sg.fmax s.sg.fmin) (mul32 s.sg.fs s.arg0) } } ∧
    exec .sgSetGain s = .next
      { s with
        result := .ok
        sg := { s.sg with gain := s.arg0, finc := div32 (sub32 s.sg.fmax s.sg.fmin) (mul32 s.sg.fs s.sg.time) } }

/-- R100: the word of SG_START, and SG_START puts the frequency at SG_FMIN and the phase at +0.0, recomputes SG_PINC
and starts the generator. -/
def Obligations.SgStartStartsAtFmin : Prop :=
  decode 0x14000000#32 = .ok .sgStart ∧
  ∀ s : State,
    exec .sgStart s = .next
      { s with
        result := .ok
        sg :=
          { s.sg with
            freq := s.sg.fmin
            phase := 0#32
            pinc := div32 (mul32 0x40C90FDB#32 s.sg.fmin) s.sg.fs
            started := true } }

/-- R62, R102, R143: SG_PROCESS reports RANGE for a region that leaves DMEM, started or not, and NOT_STARTED for a
region inside DMEM on a stopped generator, a count of 0 included; nothing else changes. -/
def Obligations.SgProcessErrorsInOrder : Prop :=
  ∀ (n : Nat) (s : State),
    (s.build.dmemWords < s.arg0.toNat + n → exec (.sgProcess n) s = .next { s with result := .range }) ∧
    (s.arg0.toNat + n ≤ s.build.dmemWords → s.sg.started = false →
      exec (.sgProcess n) s = .next { s with result := .notStarted })

/-- R101, R103, R104: SG_PROCESS on a started generator and a region inside DMEM writes `c` samples from ARG0 on,
advances the generator once per sample and reports `c` in RES0; it ends with OK when `c = n` and the sweep goes on, or
with MAX_FREQ_REACHED and the generator stopped when the sweep ends with sample `c`. No other byte of DMEM changes, the
words after the prefix included, and no other register. -/
def Obligations.SgProcessWritesTheSweep : Prop :=
  ∀ (n : Nat) (s : State), u32Arg s .arg0 + n ≤ s.build.dmemWords → s.sg.started = true →
    ∃ (c : Nat) (r : ResultCode) (m : Memory),
      exec (.sgProcess n) s = .next
        { s with result := r, res0 := BitVec.ofNat 32 c, sg := genAfter s.sg c, mem := m } ∧
      c ≤ n ∧ (∀ i < c, readWord m (u32Arg s .arg0 + i) = some (sampleOf s.sg i)) ∧
      (∀ x, (x < 4 * u32Arg s .arg0 ∨ 4 * (u32Arg s .arg0 + c) ≤ x) → readByte m x = readByte s.mem x) ∧
      ((r = .ok ∧ c = n ∧ sweepRunsOn s.sg n ∧ (genAfter s.sg c).started = true) ∨
        (r = .maxFreqReached ∧ sweepEndsAt s.sg c ∧ (genAfter s.sg c).started = false))

/-- R107 (a), an inference the spec marks as its own: two SG_PROCESS calls over adjoining regions, the first of which
does not end the sweep, leave the SG registers, DMEM and RESULT that one call over both leaves. -/
def Obligations.SgProcessPartitionIndependent : Prop :=
  ∀ (n1 n2 : Nat) (s t1 t2 : State), legalBuild s.build →
    s.arg0.toNat + (n1 + n2) ≤ s.build.dmemWords →
    exec (.sgProcess n1) s = .next t1 → t1.result = .ok →
    exec (.sgProcess n2) { t1 with arg0 := s.arg0 + BitVec.ofNat 32 n1 } = .next t2 →
    ∃ t, exec (.sgProcess (n1 + n2)) s = .next t ∧ t.sg = t2.sg ∧ t.mem = t2.mem ∧ t.result = t2.result ∧
      t.res0.toNat = n1 + t2.res0.toNat

/-- R107 (c), an inference the spec marks as its own, and T2: SG_START after any SG_PROCESS leaves the SG registers as
the SG_START before it left them, so that the sweep repeats bit for bit. -/
def Obligations.RestartReproducesTheSweep : Prop :=
  ∀ (n : Nat) (s t1 t2 : State), exec .sgStart s = .next t1 →
    exec (.sgProcess n) t1 = .next t2 →
    ∃ t3, exec .sgStart t2 = .next t3 ∧ t3.sg = t1.sg

/-- R107 (b), an inference the spec marks as its own, from S2 of R19: a sample of a finite gain and a finite phase is
no larger in magnitude than the gain. -/
def Obligations.SampleWithinGain : Prop :=
  ∀ g : SweepGen, isFinite32 g.gain = true → isFinite32 g.phase = true →
    isNaN32 (sgStep g).sample = false ∧ gt32 (abs32 (sgStep g).sample) (abs32 g.gain) = false

/-! ## Biquad -/

/-- R110, R111, R112, R116: the words of both commands; BQ_RESET loads the bypass set and clears the state;
BQ_SET_COEFS loads the five coefficients and keeps the state registers. -/
def Obligations.BqResetAndCoefficients : Prop :=
  decode 0x20000000#32 = .ok .bqReset ∧ decode 0x21000000#32 = .ok .bqSetCoefs ∧
  ∀ s : State,
    exec .bqReset s = .next
      { s with
        result := .ok
        bq := { a0 := 0x3F800000#32, a1 := 0#32, a2 := 0#32, b1 := 0#32, b2 := 0#32, s0 := 0#32, s1 := 0#32, s2 := 0#32,
                s3 := 0#32 } } ∧
    exec .bqSetCoefs s = .next
      { s with
        result := .ok
        bq := { s.bq with a0 := s.arg0, a1 := s.arg1, a2 := s.arg2, b1 := s.arg3, b2 := s.arg4 } }

/-- R108, R109, R113: BQ_PROCESS_SAMPLE in a DIRECT and in a TRANSPOSED build, each operation rounded in the order the
rules write it. -/
def Obligations.BqSampleUpdatesState : Prop :=
  ∀ s : State,
    (s.build.form = .direct →
      let y :=
        sub32 (sub32 (add32 (add32 (mul32 s.bq.a0 s.arg0) (mul32 s.bq.a1 s.bq.s0)) (mul32 s.bq.a2 s.bq.s1))
          (mul32 s.bq.b1 s.bq.s2)) (mul32 s.bq.b2 s.bq.s3)
      exec .bqProcessSample s = .next
        { s with
          result := .ok
          res0 := y
          bq := { s.bq with s0 := s.arg0, s1 := s.bq.s0, s2 := y, s3 := s.bq.s2 } }) ∧
    (s.build.form = .transposed →
      let y := add32 (mul32 s.bq.a0 s.arg0) s.bq.s0
      exec .bqProcessSample s = .next
        { s with
          result := .ok
          res0 := y
          bq :=
            { s.bq with
              s0 := sub32 (add32 (mul32 s.bq.a1 s.arg0) s.bq.s1) (mul32 s.bq.b1 y)
              s1 := sub32 (mul32 s.bq.a2 s.arg0) (mul32 s.bq.b2 y) } })

/-- R62, R74, R114: BQ_PROCESS_BLOCK reports RANGE for a region that leaves DMEM and changes nothing else; on a region
whose words hold `xs` it leaves the filter's outputs in those words, in place, and the filter state after `xs`, and
changes nothing else; a region with an unwritten word is a fault of the model. -/
def Obligations.BqBlockProcessesInPlace : Prop :=
  ∀ (n : Nat) (s : State),
    (s.build.dmemWords < s.arg0.toNat + n → exec (.bqProcessBlock n) s = .next { s with result := .range }) ∧
    (s.arg0.toNat + n ≤ s.build.dmemWords → ∀ xs : List Word, xs.length = n →
      (∀ i (h : i < xs.length), readWord s.mem (u32Arg s .arg0 + i) = some xs[i]) →
      ∃ m, exec (.bqProcessBlock n) s = .next
          { s with result := .ok, bq := bqAfter s.build.form s.bq xs, mem := m } ∧
        (∀ i (h : i < xs.length), readWord m (u32Arg s .arg0 + i) = (bqOutputs s.build.form s.bq xs)[i]?) ∧
        ∀ x, (x < 4 * u32Arg s .arg0 ∨ 4 * (u32Arg s .arg0 + n) ≤ x) → readByte m x = readByte s.mem x) ∧
    (s.arg0.toNat + n ≤ s.build.dmemWords → (∃ i < n, readWord s.mem (u32Arg s .arg0 + i) = none) →
      ∃ a, exec (.bqProcessBlock n) s = .fault (.unwrittenWord a) ∧ readWord s.mem a = none)

/-- R119, an inference the spec marks as its own: BQ_PROCESS_BLOCK over two adjoining regions in a row leaves the state
that one BQ_PROCESS_BLOCK over both leaves, but for ARG0, which the host changes between them. -/
def Obligations.BqBlockPartitionIndependent : Prop :=
  ∀ (n1 n2 : Nat) (s t1 t2 : State), legalBuild s.build →
    s.arg0.toNat + (n1 + n2) ≤ s.build.dmemWords →
    exec (.bqProcessBlock n1) s = .next t1 →
    exec (.bqProcessBlock n2) { t1 with arg0 := s.arg0 + BitVec.ofNat 32 n1 } = .next t2 →
    exec (.bqProcessBlock (n1 + n2)) s = .next { t2 with arg0 := s.arg0 }

/-- R117, an inference the spec marks as its own: once the last output (DIRECT) or the first accumulator (TRANSPOSED)
is a NaN, every later output is the canonical NaN, whatever the coefficients and the inputs. -/
def Obligations.NanStatePersists : Prop :=
  ∀ (form : BiquadForm) (b : Biquad) (xs : List Word),
    (match form with
      | .direct => isNaN32 b.s2 = true
      | .transposed => isNaN32 b.s0 = true) →
    ∀ y ∈ bqOutputs form b xs, y = 0x7FC00000#32

/-- R110, R117 (marked as derived), 90_conflicts.md C4: with the bypass set every finite input sequence comes out value
for value, in a DIRECT build from every finite state and in a TRANSPOSED build from zero accumulators. -/
def Obligations.BypassIsIdentity : Prop :=
  ∀ (form : BiquadForm) (b : Biquad) (xs : List Word),
    b.a0 = 0x3F800000#32 → b.a1 = 0#32 → b.a2 = 0#32 → b.b1 = 0#32 → b.b2 = 0#32 →
    (match form with
      | .direct => isFinite32 b.s0 = true ∧ isFinite32 b.s1 = true ∧ isFinite32 b.s2 = true ∧ isFinite32 b.s3 = true
      | .transposed => isZero32 b.s0 = true ∧ isZero32 b.s1 = true) →
    (∀ x ∈ xs, isFinite32 x = true) →
    List.Forall₂ (fun y x => eq32 y x = true) (bqOutputs form b xs) xs

/-- R110, read as it stands: with the bypass set either update returns `y = x` for every finite `x` when the state is
finite. It FAILS: a TRANSPOSED build adds the accumulator Z1 it finds (R109, V-BQ-4; log 24). -/
def Obligations.BypassFromEveryFiniteState : Prop :=
  ∀ (form : BiquadForm) (b : Biquad) (x : Word),
    b.a0 = 0x3F800000#32 → b.a1 = 0#32 → b.a2 = 0#32 → b.b1 = 0#32 → b.b2 = 0#32 →
    isFinite32 b.s0 = true → isFinite32 b.s1 = true → isFinite32 b.s2 = true → isFinite32 b.s3 = true →
    isFinite32 x = true → eq32 (bqStep form b x).2 x = true

/-! ## Analyzer -/

/-- R121, R143: the word of AN_CONFIG, and AN_CONFIG reports CONFIG for a zero block size or capacity, before RANGE for
buffers that do not fit; else it takes the configuration and clears the run. -/
def Obligations.AnConfigTakesConfiguration : Prop :=
  decode 0x30000000#32 = .ok .anConfig ∧
  ∀ s : State,
    ((s.arg1 = 0#32 ∨ s.arg3 = 0#32) → exec .anConfig s = .next { s with result := .config }) ∧
    (s.arg1 ≠ 0#32 → s.arg3 ≠ 0#32 →
      (s.build.dmemWords < s.arg2.toNat + (2 * s.arg3.toNat + 2 * (s.arg3.toNat / 2 + 1)) →
        exec .anConfig s = .next { s with result := .range }) ∧
      (s.arg2.toNat + (2 * s.arg3.toNat + 2 * (s.arg3.toNat / 2 + 1)) ≤ s.build.dmemWords →
        exec .anConfig s = .next
          { s with
            result := .ok
            an :=
              { s.an with
                fs := s.arg0
                bs := s.arg1
                base := s.arg2
                cap := s.arg3
                len := 0#32
                pos := 0#32
                k := 0#32
                state := .idle } }))

/-- R125, R130, R134, R152 (marked as derived): a never configured analyzer reports CONFIG and changes nothing else. -/
def Obligations.UnconfiguredAnalyzerReportsConfig : Prop :=
  ∀ s : State, s.an.cap = 0#32 → ∀ i : Instr, (i = .anBegin ∨ i = .anRunBq ∨ ∃ n, i = .anSpectrum n) →
    exec i s = .next { s with result := .config }

/-- R124, R125: with buffers that fit and a private sweep that ends with sample L <= AN_CAP, AN_BEGIN leaves the sweep
in IN and in OUT, L in AN_LEN and RES0, the cursor and AN_K at 0 and the state CHUNKS, and changes no other register
and no other byte of DMEM. -/
def Obligations.AnBeginSeedsTheRun : Prop :=
  ∀ (s : State) (len : Nat), s.an.cap ≠ 0#32 →
    s.an.base.toNat + runWords s.an.cap.toNat ≤ s.build.dmemWords →
    sweepEndsAt (initPrivateGen s.an.fs) len → len ≤ s.an.cap.toNat →
    ∃ (m : Memory) (g : SweepGen),
      exec .anBegin s = .next
        { s with
          result := .ok
          res0 := BitVec.ofNat 32 len
          an := { s.an with len := BitVec.ofNat 32 len, pos := 0#32, k := 0#32, state := .chunks, gen := g }
          mem := m } ∧
      (∀ i < len, readWord m (inBase s.an + i) = some (sampleOf (initPrivateGen s.an.fs) i) ∧
        readWord m (outBase s.an + i) = some (sampleOf (initPrivateGen s.an.fs) i)) ∧
      ∀ x, (x < 4 * inBase s.an ∨ 4 * (inBase s.an + len) ≤ x) →
        (x < 4 * outBase s.an ∨ 4 * (outBase s.an + len) ≤ x) → readByte m x = readByte s.mem x

/-- R124, R125, R130, R146: when the private sweep does not end within AN_CAP samples, AN_BEGIN and AN_RUN_BQ end with
CAPACITY: AN_CAP in RES0, the run cleared, IN holding the first AN_CAP samples, and nothing else changed. -/
def Obligations.SweepLongerThanCapacity : Prop :=
  ∀ (s : State) (i : Instr), (i = .anBegin ∨ i = .anRunBq) → s.an.cap ≠ 0#32 →
    s.an.base.toNat + runWords s.an.cap.toNat ≤ s.build.dmemWords →
    sweepRunsOn (initPrivateGen s.an.fs) s.an.cap.toNat →
    ∃ (m : Memory) (g : SweepGen),
      exec i s = .next
        { s with
          result := .capacity
          res0 := s.an.cap
          an := { s.an with len := 0#32, pos := 0#32, k := 0#32, state := .idle, gen := g }
          mem := m } ∧
      (∀ j < s.an.cap.toNat, readWord m (inBase s.an + j) = some (sampleOf (initPrivateGen s.an.fs) j)) ∧
      ∀ x, (x < 4 * inBase s.an ∨ 4 * (inBase s.an + s.an.cap.toNat) ≤ x) → readByte m x = readByte s.mem x

/-- R127: the word of AN_NEXT, and AN_NEXT reports SEQUENCE in any state but CHUNKS; in CHUNKS, with the cursor below
L, it hands out the next chunk and moves to PROCESSED after the last one. -/
def Obligations.AnNextHandsOutAChunk : Prop :=
  decode 0x32000000#32 = .ok .anNext ∧
  ∀ s : State,
    (s.an.state ≠ .chunks → exec .anNext s = .next { s with result := .sequence }) ∧
    (s.an.state = .chunks → s.an.pos.toNat < s.an.len.toNat →
      let len := min s.an.bs.toNat (s.an.len.toNat - s.an.pos.toNat)
      exec .anNext s = .next
        { s with
          result := .ok
          res0 := BitVec.ofNat 32 (s.an.base.toNat + s.an.pos.toNat)
          res1 := BitVec.ofNat 32 (s.an.base.toNat + s.an.cap.toNat + s.an.pos.toNat)
          res2 := BitVec.ofNat 32 len
          an :=
            { s.an with
              pos := BitVec.ofNat 32 (s.an.pos.toNat + len)
              state := if s.an.pos.toNat + len = s.an.len.toNat then .processed else .chunks } })

/-- R126 (marked as derived), R127: from the start of a run, AN_NEXT hands out ceil(L / BS) chunks at 0, BS, 2 BS, ...;
every chunk but the last has length BS, the last has the rest, and the state is PROCESSED after the last and CHUNKS
before it. -/
def Obligations.ChunksTileTheRun : Prop :=
  ∀ s : State, s.an.state = .chunks → s.an.pos = 0#32 → s.an.bs ≠ 0#32 → s.an.len ≠ 0#32 →
    ∀ j < chunkCount s.an.len.toNat s.an.bs.toNat,
      ∃ t, repeatNext (j + 1) s = .next t ∧
        t.res0 = BitVec.ofNat 32 (s.an.base.toNat + j * s.an.bs.toNat) ∧
        t.res1 = BitVec.ofNat 32 (s.an.base.toNat + s.an.cap.toNat + j * s.an.bs.toNat) ∧
        t.res2 = BitVec.ofNat 32
          (if j + 1 < chunkCount s.an.len.toNat s.an.bs.toNat then s.an.bs.toNat
            else s.an.len.toNat - s.an.bs.toNat * (chunkCount s.an.len.toNat s.an.bs.toNat - 1)) ∧
        t.an.state = (if j + 1 < chunkCount s.an.len.toNat s.an.bs.toNat then .chunks else .processed) ∧
        t.mem = s.mem

/-- R24, R131, R132, R133: one bin of the spectra, each operation rounded in the order the rules write it. -/
def Obligations.SpectrumBinFormula : Prop :=
  ∀ a b c d : Word,
    let n := add32 (mul32 c c) (mul32 d d)
    let re := div32 (add32 (mul32 a c) (mul32 b d)) n
    let im := div32 (sub32 (mul32 b c) (mul32 a d)) n
    let ph := mul32 (atan2_32 im re) 0x42652EE1#32
    cdiv32 (a, b) (c, d) = (re, im) ∧
      spectrumBin (a, b) (c, d) =
        (mul32 0x41A00000#32 (log10_32 (hypot32 re im)), if eq32 ph 0xC3340000#32 then 0x43340000#32 else ph)

/-- R129, R131: AN_FINISH reports SEQUENCE in any state but PROCESSED; in PROCESSED, with buffers that fit and IN and
OUT holding the run, it writes the K = floor(L / 2) + 1 bins to MAG and PH, reports L and K, moves to DONE, and changes
no other register and no other byte of DMEM; an unwritten word among the samples is a fault of the model (R74). -/
def Obligations.AnFinishWritesTheSpectra : Prop :=
  ∀ s : State,
    (s.an.state ≠ .processed → exec .anFinish s = .next { s with result := .sequence }) ∧
    (s.an.state = .processed → s.an.base.toNat + runWords s.an.cap.toNat ≤ s.build.dmemWords →
      s.an.len.toNat ≤ s.an.cap.toNat →
      (∃ i < s.an.len.toNat, readWord s.mem (inBase s.an + i) = none ∨ readWord s.mem (outBase s.an + i) = none) →
      ∃ a, exec .anFinish s = .fault (.unwrittenWord a) ∧ readWord s.mem a = none) ∧
    ∀ vin vout : List Word, s.an.state = .processed →
      s.an.base.toNat + runWords s.an.cap.toNat ≤ s.build.dmemWords → s.an.len.toNat ≤ s.an.cap.toNat →
      vin.length = s.an.len.toNat → vout.length = s.an.len.toNat →
      (∀ i (h : i < vin.length), readWord s.mem (inBase s.an + i) = some vin[i]) →
      (∀ i (h : i < vout.length), readWord s.mem (outBase s.an + i) = some vout[i]) →
      ∃ m : Memory,
        exec .anFinish s = .next
          { s with
            result := .ok
            res0 := s.an.len
            res1 := BitVec.ofNat 32 (s.an.len.toNat / 2 + 1)
            an := { s.an with k := BitVec.ofNat 32 (s.an.len.toNat / 2 + 1), state := .done }
            mem := m } ∧
        (∀ k < s.an.len.toNat / 2 + 1,
          readWord m (magBase s.an + k) = some (spectrumBin (rdftBin vout k) (rdftBin vin k)).1 ∧
            readWord m (phBase s.an + k) = some (spectrumBin (rdftBin vout k) (rdftBin vin k)).2) ∧
        ∀ x, (x < 4 * magBase s.an ∨ 4 * (magBase s.an + (s.an.len.toNat / 2 + 1)) ≤ x) →
          (x < 4 * phBase s.an ∨ 4 * (phBase s.an + (s.an.len.toNat / 2 + 1)) ≤ x) → readByte m x = readByte s.mem x

/-- R131, R134, R143: AN_SPECTRUM of a configured analyzer reports RANGE for a length of 0 or above AN_CAP; else, with
buffers that fit and IN and OUT holding the samples, it writes the bins, reports n and K, and leaves AN_STATE, AN_LEN
and AN_POS alone; an unwritten word among the samples is a fault of the model (R74). -/
def Obligations.AnSpectrumOfHostData : Prop :=
  ∀ (n : Nat) (s : State), s.an.cap ≠ 0#32 →
    ((n = 0 ∨ s.an.cap.toNat < n) → exec (.anSpectrum n) s = .next { s with result := .range }) ∧
    (n ≠ 0 → n ≤ s.an.cap.toNat → s.an.base.toNat + runWords s.an.cap.toNat ≤ s.build.dmemWords →
      (∃ i < n, readWord s.mem (inBase s.an + i) = none ∨ readWord s.mem (outBase s.an + i) = none) →
      ∃ a, exec (.anSpectrum n) s = .fault (.unwrittenWord a) ∧ readWord s.mem a = none) ∧
    ∀ vin vout : List Word, n ≠ 0 → n ≤ s.an.cap.toNat →
      s.an.base.toNat + runWords s.an.cap.toNat ≤ s.build.dmemWords →
      vin.length = n → vout.length = n →
      (∀ i (h : i < vin.length), readWord s.mem (inBase s.an + i) = some vin[i]) →
      (∀ i (h : i < vout.length), readWord s.mem (outBase s.an + i) = some vout[i]) →
      ∃ m : Memory,
        exec (.anSpectrum n) s = .next
          { s with
            result := .ok
            res0 := BitVec.ofNat 32 n
            res1 := BitVec.ofNat 32 (n / 2 + 1)
            an := { s.an with k := BitVec.ofNat 32 (n / 2 + 1) }
            mem := m } ∧
        (∀ k < n / 2 + 1,
          readWord m (magBase s.an + k) = some (spectrumBin (rdftBin vout k) (rdftBin vin k)).1 ∧
            readWord m (phBase s.an + k) = some (spectrumBin (rdftBin vout k) (rdftBin vin k)).2) ∧
        ∀ x, (x < 4 * magBase s.an ∨ 4 * (magBase s.an + (n / 2 + 1)) ≤ x) →
          (x < 4 * phBase s.an ∨ 4 * (phBase s.an + (n / 2 + 1)) ≤ x) → readByte m x = readByte s.mem x

/-- R130: AN_RUN_BQ on a configured analyzer whose sweep ends with sample L <= AN_CAP leaves the sweep in IN, the BQ
unit's outputs for it in OUT, the K bins in MAG and PH, the BQ state after the sweep, and the state DONE with L and K
reported; no other register and no other byte of DMEM changes. -/
def Obligations.AnRunBqMeasuresTheFilter : Prop :=
  ∀ (s : State) (len : Nat), s.an.cap ≠ 0#32 → s.an.bs ≠ 0#32 →
    s.an.base.toNat + runWords s.an.cap.toNat ≤ s.build.dmemWords →
    sweepEndsAt (initPrivateGen s.an.fs) len → len ≤ s.an.cap.toNat →
    let vin := (List.range len).map (sampleOf (initPrivateGen s.an.fs))
    let vout := bqOutputs s.build.form s.bq vin
    ∃ (m : Memory) (g : SweepGen),
      exec .anRunBq s = .next
        { s with
          result := .ok
          res0 := BitVec.ofNat 32 len
          res1 := BitVec.ofNat 32 (len / 2 + 1)
          bq := bqAfter s.build.form s.bq vin
          an :=
            { s.an with
              len := BitVec.ofNat 32 len
              pos := BitVec.ofNat 32 len
              k := BitVec.ofNat 32 (len / 2 + 1)
              state := .done
              gen := g }
          mem := m } ∧
      (∀ i < len, readWord m (inBase s.an + i) = vin[i]? ∧ readWord m (outBase s.an + i) = vout[i]?) ∧
      (∀ k < len / 2 + 1,
        readWord m (magBase s.an + k) = some (spectrumBin (rdftBin vout k) (rdftBin vin k)).1 ∧
          readWord m (phBase s.an + k) = some (spectrumBin (rdftBin vout k) (rdftBin vin k)).2) ∧
      ∀ x, (x < 4 * inBase s.an ∨ 4 * (inBase s.an + len) ≤ x) →
        (x < 4 * outBase s.an ∨ 4 * (outBase s.an + len) ≤ x) →
        (x < 4 * magBase s.an ∨ 4 * (magBase s.an + (len / 2 + 1)) ≤ x) →
        (x < 4 * phBase s.an ∨ 4 * (phBase s.an + (len / 2 + 1)) ≤ x) → readByte m x = readByte s.mem x

/-- R138, an inference the spec marks as its own: AN_RUN_BQ leaves the same state for every block size but 0, the block
size itself apart. -/
def Obligations.BlockSizeIndependent : Prop :=
  ∀ (s t : State) (b1 b2 : Word), b1 ≠ 0#32 → b2 ≠ 0#32 →
    exec .anRunBq { s with an := { s.an with bs := b1 } } = .next t →
    exec .anRunBq { s with an := { s.an with bs := b2 } } = .next { t with an := { t.an with bs := b2 } }

/-- R138, an inference the spec marks as its own: the host loop AN_BEGIN, then AN_NEXT and BQ_PROCESS_BLOCK for each chunk,
then AN_FINISH, leaves the state AN_RUN_BQ leaves, but for ARG0, which the host writes on the way, and RES2. A chunk longer
than 2^24 - 1 is no count one command word can hold (R79); the statement covers it as `exec` does. -/
def Obligations.HostLoopEqualsRunBq : Prop :=
  ∀ (s t0 t1 t2 : State), MachineInv s →
    exec .anBegin s = .next t0 → t0.result = .ok →
    repeatChunk (chunkCount t0.an.len.toNat s.an.bs.toNat) t0 = .next t1 →
    exec .anFinish t1 = .next t2 →
    exec .anRunBq s = .next { t2 with arg0 := s.arg0, res2 := s.res2 }

/-- R137, an inference the spec marks as its own: the transitions of AN_STATE, row by row and column by column, for
every command. -/
def Obligations.AnalyzerStateMachine : Prop :=
  ∀ (i : Instr) (s t : State), AnInv s → exec i s = .next t →
    match i with
    | .anConfig => (t.result = .ok → t.an.state = .idle) ∧ (t.result ≠ .ok → t.an.state = s.an.state)
    | .anBegin =>
      (t.result = .ok ∧ t.an.state = .chunks) ∨ (t.result = .capacity ∧ t.an.state = .idle) ∨
        (t.result = .config ∧ t.an.state = s.an.state)
    | .anNext =>
      (s.an.state = .chunks → t.result = .ok ∧
        t.an.state = if t.an.pos = t.an.len then .processed else .chunks) ∧
      (s.an.state ≠ .chunks → t.result = .sequence ∧ t.an.state = s.an.state)
    | .anFinish =>
      (s.an.state = .processed → t.result = .ok ∧ t.an.state = .done) ∧
      (s.an.state ≠ .processed → t.result = .sequence ∧ t.an.state = s.an.state)
    | .anRunBq =>
      (t.result = .ok ∧ t.an.state = .done) ∨ (t.result = .capacity ∧ t.an.state = .idle) ∨
        (t.result = .config ∧ t.an.state = s.an.state)
    | .sysReset => t.an.state = .idle
    | _ => t.an.state = s.an.state

/-- R133, whose range the spec marks as derived: a phase is the product in degrees, -180.0 replaced by +180.0, and a
finite phase is in (-180, 180]. -/
def Obligations.PhaseInHalfOpenRange : Prop :=
  ∀ ratio : Word × Word,
    ratioPhase ratio =
        (if eq32 (mul32 (atan2_32 ratio.2 ratio.1) 0x42652EE1#32) 0xC3340000#32 then 0x43340000#32
          else mul32 (atan2_32 ratio.2 ratio.1) 0x42652EE1#32) ∧
      mul32 0x40490FDB#32 0x42652EE1#32 = 0x43340000#32 ∧
      (isNaN32 (ratioPhase ratio) = false →
        gt32 (ratioPhase ratio) 0xC3340000#32 = true ∧ gt32 (ratioPhase ratio) 0x43340000#32 = false)

/-- R139, an inference the spec marks as its own. Bin by bin: where `c*c + d*d` is a normal number and `c*d` is finite, an
output bin equal to the input bin has magnitude +0.0 and phase +0.0, its exact negation magnitude +0.0 and phase +180.0; an
output bin that is 2^j times the input bin, with nothing overflowing or becoming subnormal, has the magnitude 20 log10(2^j)
and phase +0.0, its negation the same magnitude and phase +180.0. For the transform of a list: the bins of OUT = -IN (D2,
bins 0 and L/2 included, whose imaginary parts D4 fixes, log 13), and, under the premise D3 for the list and the power
(RdftScalesAt, log 12), the bins of OUT = 2^j IN and of OUT = -2^j IN. -/
def Obligations.ExactRatios : Prop :=
  (∀ c d : Word, isNormal32 (add32 (mul32 c c) (mul32 d d)) = true → isFinite32 (mul32 d c) = true →
    spectrumBin (c, d) (c, d) = (0#32, 0#32) ∧ spectrumBin (neg32 c, neg32 d) (c, d) = (0#32, 0x43340000#32)) ∧
  (∀ (j : Int) (c d : Word), RatioScales j c d →
    spectrumBin (scale32 j c, scale32 j d) (c, d) = (mul32 0x41A00000#32 (log10_32 (scale32 j 0x3F800000#32)), 0#32) ∧
      spectrumBin (neg32 (scale32 j c), neg32 (scale32 j d)) (c, d) =
        (mul32 0x41A00000#32 (log10_32 (scale32 j 0x3F800000#32)), 0x43340000#32)) ∧
  (∀ (v : List Word) (k : Nat),
    isNormal32 (add32 (mul32 (rdftBin v k).1 (rdftBin v k).1) (mul32 (rdftBin v k).2 (rdftBin v k).2)) = true →
    isFinite32 (mul32 (rdftBin v k).2 (rdftBin v k).1) = true →
    spectrumBin (rdftBin (v.map neg32) k) (rdftBin v k) = (0#32, 0x43340000#32)) ∧
  ∀ (v : List Word) (j : Int) (k : Nat), RdftScalesAt v j → rdftScaleGuard v j → k < v.length / 2 + 1 →
    RatioScales j (rdftBin v k).1 (rdftBin v k).2 →
    spectrumBin (rdftBin (v.map (scale32 j)) k) (rdftBin v k) =
        (mul32 0x41A00000#32 (log10_32 (scale32 j 0x3F800000#32)), 0#32) ∧
      spectrumBin (rdftBin ((v.map (scale32 j)).map neg32) k) (rdftBin v k) =
        (mul32 0x41A00000#32 (log10_32 (scale32 j 0x3F800000#32)), 0x43340000#32)

/-- R135, an inference the spec marks as its own: a zero input bin gives NaN in MAG and PH whatever the output bin; a zero
output bin over a finite normal denominator gives -inf and a phase of +0.0, -0.0 or +180.0; an overflowing denominator under
finite numerators gives -inf; a denominator that is zero gives +inf and a phase of +-45.0, +-135.0 or NaN under a nonzero
numerator, and NaN under two zero ones (the angle of two infinities: log 10); a NaN in IN or OUT makes every bin NaN (log
12). -/
def Obligations.ZeroAndOverflowingBins : Prop :=
  (∀ a b c d : Word,
    (isZero32 c = true → isZero32 d = true → spectrumBin (a, b) (c, d) = (0x7FC00000#32, 0x7FC00000#32)) ∧
    (isZero32 a = true → isZero32 b = true → isFinite32 c = true → isFinite32 d = true →
      isNormal32 (add32 (mul32 c c) (mul32 d d)) = true →
      (spectrumBin (a, b) (c, d)).1 = 0xFF800000#32 ∧
        (spectrumBin (a, b) (c, d)).2 ∈ [0x00000000#32, 0x80000000#32, 0x43340000#32]) ∧
    (isInf32 (add32 (mul32 c c) (mul32 d d)) = true →
      isFinite32 (add32 (mul32 a c) (mul32 b d)) = true → isFinite32 (sub32 (mul32 b c) (mul32 a d)) = true →
      (spectrumBin (a, b) (c, d)).1 = 0xFF800000#32) ∧
    (isZero32 (add32 (mul32 c c) (mul32 d d)) = true →
      let re := add32 (mul32 a c) (mul32 b d)
      let im := sub32 (mul32 b c) (mul32 a d)
      (isZero32 re = true → isZero32 im = true → spectrumBin (a, b) (c, d) = (0x7FC00000#32, 0x7FC00000#32)) ∧
        ((isNaN32 re = false ∧ isZero32 re = false) ∨ (isNaN32 im = false ∧ isZero32 im = false) →
          (spectrumBin (a, b) (c, d)).1 = 0x7F800000#32 ∧
            (spectrumBin (a, b) (c, d)).2 ∈
              [0x42340000#32, 0xC2340000#32, 0x43070000#32, 0xC3070000#32, 0x7FC00000#32]))) ∧
  ∀ (vin vout : List Word) (k : Nat), ((∃ x ∈ vin, isNaN32 x = true) ∨ ∃ x ∈ vout, isNaN32 x = true) →
    spectrumBin (rdftBin vout k) (rdftBin vin k) = (0x7FC00000#32, 0x7FC00000#32)

/-! ## Arithmetic and numeric functions -/

/-- R12, R13: of finite values, the sum, the difference, the product and the quotient by a nonzero value are the exact
results rounded to nearest, ties to even, with overflow to infinity; an exact zero sum is +0.0 but for two negative zeros, a
product and a quotient have the sign of their operands' signs, zeros included, and a division by zero gives a signed infinity,
or NaN for 0/0. With infinities: each sum, difference, product and quotient that IEEE 754 gives, and NaN for inf - inf,
0 * inf and inf / inf. -/
def Obligations.ArithmeticCorrectlyRounded : Prop :=
  ∀ a b : Word,
    (isFinite32 a = true → isFinite32 b = true →
      RoundsTo (add32 a b) (units a + units b) 1 ∧ RoundsTo (sub32 a b) (units a - units b) 1 ∧
        RoundsTo (mul32 a b) (units a * units b) (2 ^ 149) ∧
        (isZero32 b = false →
          RoundsTo (div32 a b) (units a * 2 ^ 149 * (if signBit b then -1 else 1)) (unitsMag b)) ∧
        (units a + units b = 0 → add32 a b = if signBit a && signBit b then 0x80000000#32 else 0#32) ∧
        (units a - units b = 0 → sub32 a b = if signBit a && !signBit b then 0x80000000#32 else 0#32) ∧
        signBit (mul32 a b) = (signBit a != signBit b) ∧
        (isZero32 b = false → signBit (div32 a b) = (signBit a != signBit b)) ∧
        (isZero32 b = true → div32 a b = if isZero32 a then 0x7FC00000#32 else signedInf (signBit a != signBit b))) ∧
    (isInf32 a = true → isFinite32 b = true →
      add32 a b = a ∧ add32 b a = a ∧ sub32 a b = a ∧ sub32 b a = neg32 a ∧
        mul32 a b = (if isZero32 b then 0x7FC00000#32 else signedInf (signBit a != signBit b)) ∧
        mul32 b a = mul32 a b ∧ div32 a b = signedInf (signBit a != signBit b) ∧
        div32 b a = if signBit a != signBit b then 0x80000000#32 else 0#32) ∧
    (isInf32 a = true → isInf32 b = true →
      add32 a b = (if signBit a = signBit b then a else 0x7FC00000#32) ∧
        sub32 a b = (if signBit a = signBit b then 0x7FC00000#32 else a) ∧
        mul32 a b = signedInf (signBit a != signBit b) ∧ div32 a b = 0x7FC00000#32)

/-- R16: `fmod32` of a finite value by a finite nonzero one is the exact remainder with truncation toward zero and the
sign of the dividend; by an infinite one it is the dividend; every other case is the canonical NaN. -/
def Obligations.FmodExact : Prop :=
  ∀ a m : Word,
    (isFinite32 a = true → isFinite32 m = true → isZero32 m = false →
      units (fmod32 a m) = Int.tmod (units a) (units m) ∧ signBit (fmod32 a m) = signBit a ∧
        isFinite32 (fmod32 a m) = true) ∧
    (isFinite32 a = true → isInf32 m = true → fmod32 a m = a) ∧
    ((isFinite32 a = false ∨ isNaN32 m = true ∨ isZero32 m = true) → fmod32 a m = 0x7FC00000#32)

/-- R15: the ordered comparison is false on a NaN and agrees with the order of the exact values on finite operands,
zeros of both signs equal, the infinities above and below every finite value. -/
def Obligations.OrderedComparison : Prop :=
  ∀ a b : Word,
    ((isNaN32 a = true ∨ isNaN32 b = true) → gt32 a b = false) ∧
    (isFinite32 a = true → isFinite32 b = true → (gt32 a b = true ↔ units b < units a)) ∧
    (isFinite32 b = true → gt32 0x7F800000#32 b = true ∧ gt32 b 0x7F800000#32 = false ∧ gt32 b 0xFF800000#32 = true ∧
      gt32 0xFF800000#32 b = false) ∧
    gt32 0x7F800000#32 0xFF800000#32 = true ∧ gt32 0xFF800000#32 0x7F800000#32 = false ∧
      gt32 0x7F800000#32 0x7F800000#32 = false ∧ gt32 0xFF800000#32 0xFF800000#32 = false

/-- R14: every NaN that an operation, a numeric function of R19 to R23 or a bin of the spectra gives is the canonical one,
and a NaN operand gives it, but to hypot32, where an infinity beside it gives +inf (R22), and to rdft32, where it gives it in
the components it enters (R135, log 12). -/
def Obligations.NanResultsAreCanonical : Prop :=
  ∀ a b : Word,
    (∀ r ∈ [add32 a b, sub32 a b, mul32 a b, div32 a b, fmod32 a b, sqrt32 a, sin32 a, log10_32 a,
      atan2_32 a b, hypot32 a b, ratioMagnitude (a, b), ratioPhase (a, b)], isNaN32 r = true → r = 0x7FC00000#32) ∧
    (∀ v : List Word, ∀ z ∈ rdft32 v,
      (isNaN32 z.1 = true → z.1 = 0x7FC00000#32) ∧ (isNaN32 z.2 = true → z.2 = 0x7FC00000#32)) ∧
    (isNaN32 a = true ∨ isNaN32 b = true →
      add32 a b = 0x7FC00000#32 ∧ sub32 a b = 0x7FC00000#32 ∧ mul32 a b = 0x7FC00000#32 ∧
        div32 a b = 0x7FC00000#32 ∧ fmod32 a b = 0x7FC00000#32 ∧ atan2_32 a b = 0x7FC00000#32 ∧
        (isInf32 a = false → isInf32 b = false → hypot32 a b = 0x7FC00000#32)) ∧
    (isNaN32 a = true → sqrt32 a = 0x7FC00000#32 ∧ sin32 a = 0x7FC00000#32 ∧ log10_32 a = 0x7FC00000#32) ∧
    ∀ (v : List Word) (k n : Nat) (h : n < v.length), isNaN32 v[n] = true →
      (4 * k * n % (2 * v.length) ≠ v.length → (rdftBin v k).1 = 0x7FC00000#32) ∧
        (2 * k * n % v.length ≠ 0 → (rdftBin v k).2 = 0x7FC00000#32)

/-- R19, R20, R21, R22: the properties the spec assumes of sin32 (S2, S3, S4), log10_32 (L2 to L6), atan2_32 (range,
A2, A3) and hypot32 (H2, H3, H4) hold of the model's functions, whatever their OPEN values (how they are built in: logs
8 to 11). -/
def Obligations.NumericFunctionProperties : Prop :=
  (∀ x, isFinite32 x = true → isNaN32 (sin32 x) = false ∧ gt32 (sin32 x) 0x3F800000#32 = false ∧
      gt32 0xBF800000#32 (sin32 x) = false) ∧
  sin32 0#32 = 0#32 ∧ (∀ x, isFinite32 x = false → sin32 x = 0x7FC00000#32) ∧
  (∀ k ≤ 10, log10_32 (roundUnits false (10 ^ k * 2 ^ 149) 1) = roundUnits false (k * 2 ^ 149) 1) ∧
  log10_32 0#32 = 0xFF800000#32 ∧ log10_32 0x80000000#32 = 0xFF800000#32 ∧ log10_32 0x7F800000#32 = 0x7F800000#32 ∧
  (∀ x, (isNaN32 x = true ∨ gt32 0#32 x = true) → log10_32 x = 0x7FC00000#32) ∧
  (∀ y x, isNaN32 y = false → isNaN32 x = false → isNaN32 (atan2_32 y x) = false ∧
      gt32 (atan2_32 y x) 0x40490FDB#32 = false ∧ gt32 0xC0490FDB#32 (atan2_32 y x) = false) ∧
  (∀ x, isNaN32 x = false →
    ((gt32 x 0#32 = true ∨ x = 0#32) → atan2_32 0#32 x = 0#32 ∧ atan2_32 0x80000000#32 x = 0x80000000#32) ∧
    ((gt32 0#32 x = true ∨ x = 0x80000000#32) →
      atan2_32 0#32 x = 0x40490FDB#32 ∧ atan2_32 0x80000000#32 x = 0xC0490FDB#32)) ∧
  (∀ y x, (isNaN32 y = true ∨ isNaN32 x = true) → atan2_32 y x = 0x7FC00000#32) ∧
  (∀ a b, isZero32 b = true → isNaN32 a = false → hypot32 a b = abs32 a) ∧
  (∀ a b, isInf32 a = true → hypot32 a b = 0x7F800000#32) ∧
  (∀ a b, isInf32 a = false → isInf32 b = false → (isNaN32 a = true ∨ isNaN32 b = true) →
    hypot32 a b = 0x7FC00000#32) ∧
  ∀ a b, hypot32 a b = hypot32 b a ∧ hypot32 (neg32 a) b = hypot32 a b

/-- R23, D1, D2, D4: the transform of L values has floor(L / 2) + 1 bins; negating the list negates every component,
where D4 does not fix it; the imaginary parts D4 names are +0.0 for a finite list (log 13). -/
def Obligations.TransformProperties : Prop :=
  ∀ v : List Word, v ≠ [] →
    (rdft32 v).length = v.length / 2 + 1 ∧
    (∀ k, (rdftBin (v.map neg32) k).1 = neg32 (rdftBin v k).1) ∧
    (∀ k, ((∃ x ∈ v, isFinite32 x = false) ∨ (k ≠ 0 ∧ 2 * k ≠ v.length)) →
      (rdftBin (v.map neg32) k).2 = neg32 (rdftBin v k).2) ∧
    ((∀ x ∈ v, isFinite32 x = true) → (rdftBin v 0).2 = 0#32 ∧ (2 ∣ v.length → (rdftBin v (v.length / 2)).2 = 0#32))

/-! ## Invariants -/

/-- R7, R45, R58: the state after reset meets the invariant of the machine. -/
def Obligations.ResetMeetsTheInvariant : Prop := MachineInv State.reset

/-- R45, which the spec marks as derived: every step keeps the SG invariants: SG_PINC and SG_FINC are the increments of
the other registers, and SG_PHASE is in [0, TWO_PI] or a NaN. -/
def Obligations.StepKeepsSgInvariant : Prop :=
  ∀ s t : State, SgInv s.sg → step s = .next t → SgInv t.sg

/-- R59, R60, R74, R91: every step keeps the build and DMEM's canonical form, inside DMEM_WORDS and in whole words, and
every step but a hardware reset keeps every "written" mark. -/
def Obligations.StepKeepsDmemInvariant : Prop :=
  ∀ s t : State, DmemInv s → step s = .next t →
    t.build = s.build ∧ DmemInv t ∧
      ((∀ rest, s.hostQueue ≠ .reset :: rest) → ∀ a, (readWord s.mem a).isSome → (readWord t.mem a).isSome)

/-- R50 to R56, R121, R122, R137: every step keeps the analyzer's invariants. -/
def Obligations.StepKeepsAnalyzerInvariant : Prop :=
  ∀ s t : State, AnInv s → step s = .next t → AnInv t
end

