-- ==== Sys2Proof/Laws/Dmem.lean ====
section
/-! SUPPORT. What the DMEM operations do: a byte or word written reads back, every other one reads as before, the
canonical form is kept; the loops over words, each with what it answers. -/

namespace Sys2Proof.Machine

/-! ## Bytes -/

@[simp] theorem readByte_nil (x : Nat) : readByte [] x = none := rfl

@[simp] theorem readByte_writeByte_same (m : Memory) (x : Nat) (v : Byte) :
    readByte (writeByte m x v) x = some v := by
  induction m with
  | nil => simp [writeByte, readByte]
  | cons c m ih =>
    obtain ⟨a, b⟩ := c
    simp only [writeByte]
    split
    · simp [readByte]
    · split
      · simp [readByte]
      · rename_i h1 h2
        simp [readByte, ih, Ne.symm h2]

theorem readByte_writeByte_ne (m : Memory) {x y : Nat} (v : Byte) (h : y ≠ x) :
    readByte (writeByte m x v) y = readByte m y := by
  induction m with
  | nil => simp [writeByte, readByte, h.symm]
  | cons c m ih =>
    obtain ⟨a, b⟩ := c
    simp only [writeByte]
    split
    · simp [readByte, h.symm]
    · split
      · rename_i h1 h2
        subst h2
        simp [readByte, h.symm]
      · simp [readByte, ih]

/-- Every address of a list after a write is the one written or one of the list. -/
theorem mem_writeByte {m : Memory} {x : Nat} {v : Byte} {c : Host.Cell} (h : c ∈ writeByte m x v) :
    c = (x, v) ∨ c ∈ m := by
  induction m with
  | nil => simpa [writeByte] using h
  | cons c' m ih =>
    obtain ⟨a, b⟩ := c'
    simp only [writeByte] at h
    split at h
    · simpa using h
    · split at h
      · rcases List.mem_cons.1 h with h | h
        · exact .inl h
        · exact .inr (List.mem_cons_of_mem _ h)
      · rcases List.mem_cons.1 h with h | h
        · exact .inr (h ▸ List.mem_cons_self)
        · exact (ih h).imp id (List.mem_cons_of_mem _)

theorem writeByte_wf {m : Memory} (h : Memory.wf m) (x : Nat) (v : Byte) : Memory.wf (writeByte m x v) := by
  induction m with
  | nil => simp [Memory.wf, writeByte]
  | cons c m ih =>
    obtain ⟨a, b⟩ := c
    have hc := List.pairwise_cons.1 h
    simp only [writeByte]
    split
    · rename_i hlt
      refine List.pairwise_cons.2 ⟨fun y hy => ?_, h⟩
      rcases List.mem_cons.1 hy with rfl | hy
      · exact hlt
      · exact Nat.lt_trans hlt (hc.1 y hy)
    · split
      · rename_i heq
        exact List.pairwise_cons.2 ⟨fun y hy => heq ▸ hc.1 y hy, hc.2⟩
      · rename_i h1 h2
        refine List.pairwise_cons.2 ⟨fun y hy => ?_, ih hc.2⟩
        rcases mem_writeByte hy with rfl | hy
        · change a < x
          omega
        · exact hc.1 y hy

/-! ## Words -/

theorem wordOfBytes_extract (w : Word) :
    wordOfBytes (w.extractLsb' 0 8) (w.extractLsb' 8 8) (w.extractLsb' 16 8) (w.extractLsb' 24 8) = w := by
  unfold wordOfBytes
  ext i hi
  simp only [BitVec.getElem_append, BitVec.getElem_extractLsb']
  split
  · rw [Nat.zero_add, BitVec.getLsbD_eq_getElem]
  · split
    · rw [show 8 + (i - 8) = i by omega, BitVec.getLsbD_eq_getElem]
    · split
      · rw [show 16 + (i - 8 - 8) = i by omega, BitVec.getLsbD_eq_getElem]
      · rw [show 24 + (i - 8 - 8 - 8) = i by omega, BitVec.getLsbD_eq_getElem]

/-- The bytes of a word that is written (R66): byte `j` is bits `8j+7 : 8j`. -/
theorem readByte_writeWord_same (m : Memory) (a : Nat) (w : Word) {j : Nat} (h : j < 4) :
    readByte (writeWord m a w) (4 * a + j) = some (w.extractLsb' (8 * j) 8) := by
  simp only [writeWord]
  have hj : j = 0 ∨ j = 1 ∨ j = 2 ∨ j = 3 := by omega
  rcases hj with rfl | rfl | rfl | rfl
  · rw [readByte_writeByte_ne _ _ (by omega), readByte_writeByte_ne _ _ (by omega),
      readByte_writeByte_ne _ _ (by omega)]
    exact readByte_writeByte_same _ _ _
  · rw [readByte_writeByte_ne _ _ (by omega), readByte_writeByte_ne _ _ (by omega)]
    exact readByte_writeByte_same _ _ _
  · rw [readByte_writeByte_ne _ _ (by omega)]
    exact readByte_writeByte_same _ _ _
  · exact readByte_writeByte_same _ _ _

/-- A write of word `a` leaves every byte outside the word alone. -/
theorem readByte_writeWord_ne (m : Memory) {a x : Nat} (w : Word) (h : x < 4 * a ∨ 4 * a + 4 ≤ x) :
    readByte (writeWord m a w) x = readByte m x := by
  simp only [writeWord]
  rw [readByte_writeByte_ne _ _ (by omega), readByte_writeByte_ne _ _ (by omega),
    readByte_writeByte_ne _ _ (by omega), readByte_writeByte_ne _ _ (by omega)]

/-- A word is the four bytes it lies in. -/
theorem readWord_congr {m m' : Memory} {a : Nat}
    (h : ∀ x, 4 * a ≤ x → x < 4 * a + 4 → readByte m x = readByte m' x) : readWord m a = readWord m' a := by
  unfold readWord
  rw [h (4 * a) (by omega) (by omega), h (4 * a + 1) (by omega) (by omega), h (4 * a + 2) (by omega) (by omega),
    h (4 * a + 3) (by omega) (by omega)]

@[simp] theorem readWord_writeWord_same (m : Memory) (a : Nat) (w : Word) :
    readWord (writeWord m a w) a = some w := by
  have h := fun j hj => readByte_writeWord_same m a w (j := j) hj
  have h0 := h 0 (by omega)
  have h1 := h 1 (by omega)
  have h2 := h 2 (by omega)
  have h3 := h 3 (by omega)
  simp only [Nat.add_zero] at h0
  simp only [readWord, h0, h1, h2, h3]
  exact congrArg some (wordOfBytes_extract w)

theorem readWord_writeWord_ne (m : Memory) {a b : Nat} (w : Word) (h : b ≠ a) :
    readWord (writeWord m a w) b = readWord m b :=
  readWord_congr fun x hx hx' => readByte_writeWord_ne m w (by omega)

theorem writeWord_wf {m : Memory} (h : Memory.wf m) (a : Nat) (w : Word) : Memory.wf (writeWord m a w) :=
  writeByte_wf (writeByte_wf (writeByte_wf (writeByte_wf h _ _) _ _) _ _) _ _

/-- A written word stays written whatever is written. -/
theorem readWord_isSome_writeWord {m : Memory} {a b : Nat} (w : Word) (h : (readWord m b).isSome) :
    (readWord (writeWord m a w) b).isSome := by
  by_cases hb : b = a
  · subst hb; simp
  · rwa [readWord_writeWord_ne m w hb]

/-! ## Accesses -/

theorem memRead_ok_iff {d : Dmem} {a : Nat} {w : Word} :
    memRead d a = .ok w ↔ a < d.words ∧ readWord d.cells a = some w := by
  unfold memRead
  split
  · rename_i h
    cases hr : readWord d.cells a <;> simp [h]
  · rename_i h
    simp [h]

theorem memRead_ok {d : Dmem} {a : Nat} {w : Word} (h : a < d.words) (hw : readWord d.cells a = some w) :
    memRead d a = .ok w := memRead_ok_iff.2 ⟨h, hw⟩

theorem memWrite_ok {d : Dmem} {a : Nat} (w : Word) (h : a < d.words) :
    memWrite d a w = .ok ⟨d.words, writeWord d.cells a w⟩ := by simp [memWrite, h]

theorem memWrite_ok_iff {d d' : Dmem} {a : Nat} {w : Word} :
    memWrite d a w = .ok d' ↔ a < d.words ∧ d' = ⟨d.words, writeWord d.cells a w⟩ := by
  unfold memWrite
  split
  · rename_i h
    simp [h, eq_comm]
  · rename_i h
    simp [h]

/-! ## How a run of writes relates two DMEMs -/

/-- `d'` is `d` after writes to words `a .. a+n-1` only: the canonical form is kept, written words stay written, and every
byte outside those words reads as before. -/
structure WritesOnly (a n : Nat) (d d' : Dmem) : Prop where
  /-- DMEM_WORDS does not change. -/
  words : d'.words = d.words
  /-- The canonical form is kept. -/
  wf : Memory.wf d.cells → Memory.wf d'.cells
  /-- A written word stays written. -/
  marks : ∀ b, (readWord d.cells b).isSome → (readWord d'.cells b).isSome
  /-- Other bytes read as before. -/
  frame : ∀ x, x < 4 * a ∨ 4 * (a + n) ≤ x → readByte d'.cells x = readByte d.cells x

theorem WritesOnly.refl (a n : Nat) (d : Dmem) : WritesOnly a n d d :=
  ⟨rfl, id, fun _ h => h, fun _ _ => rfl⟩

theorem WritesOnly.trans {a n : Nat} {d d' d'' : Dmem} (h : WritesOnly a n d d') (h' : WritesOnly a n d' d'') :
    WritesOnly a n d d'' :=
  ⟨h'.words.trans h.words, h'.wf ∘ h.wf, fun b hb => h'.marks b (h.marks b hb),
    fun x hx => (h'.frame x hx).trans (h.frame x hx)⟩

theorem WritesOnly.mono {a n a' n' : Nat} {d d' : Dmem} (h : WritesOnly a n d d') (h1 : a' ≤ a) (h2 : a + n ≤ a' + n') :
    WritesOnly a' n' d d' :=
  ⟨h.words, h.wf, h.marks, fun x hx => h.frame x (by omega)⟩

/-- Words outside the written ones read as before. -/
theorem WritesOnly.readWord {a n b : Nat} {d d' : Dmem} (h : WritesOnly a n d d') (hb : b < a ∨ a + n ≤ b) :
    readWord d'.cells b = Sys2Proof.Machine.readWord d.cells b :=
  readWord_congr fun x hx hx' => h.frame x (by omega)

theorem memWrite_writesOnly {d d' : Dmem} {a : Nat} {w : Word} (h : memWrite d a w = .ok d') : WritesOnly a 1 d d' := by
  obtain ⟨-, rfl⟩ := memWrite_ok_iff.1 h
  exact ⟨rfl, fun hw => writeWord_wf hw _ _, fun b hb => readWord_isSome_writeWord w hb,
    fun x hx => readByte_writeWord_ne _ _ (by omega)⟩

/-! ## The loops -/

/-- `readWords` answers the words of the region, when they exist and are written. -/
theorem readWords_ok_iff {d : Dmem} {n a : Nat} {ws : List Word} :
    readWords d n a = .ok ws ↔
      ws.length = n ∧ ∀ i (h : i < ws.length), a + i < d.words ∧ readWord d.cells (a + i) = some ws[i] := by
  induction n generalizing a ws with
  | zero =>
    simp only [readWords, Except.ok.injEq]
    constructor
    · rintro rfl; simp
    · rintro ⟨h, -⟩; exact (List.eq_nil_of_length_eq_zero h).symm
  | succ n ih =>
    simp only [readWords]
    constructor
    · intro h
      split at h
      · cases h
      · rename_i w hw
        split at h
        · cases h
        · rename_i ws' hws
          cases h
          obtain ⟨hlen, hget⟩ := ih.1 hws
          refine ⟨by simp [hlen], fun i hi => ?_⟩
          cases i with
          | zero => simpa using memRead_ok_iff.1 hw
          | succ i =>
            have := hget i (by simpa using hi)
            rw [show a + (i + 1) = a + 1 + i by omega]
            simpa using this
    · rintro ⟨hlen, hget⟩
      cases ws with
      | nil => simp at hlen
      | cons w ws' =>
        have h0 := hget 0 (by simp)
        have hw : memRead d a = .ok w := memRead_ok_iff.2 (by simpa using h0)
        have hr : readWords d n (a + 1) = .ok ws' := ih.2 ⟨by simpa using hlen, fun i hi => by
          have := hget (i + 1) (by simpa using hi)
          rw [show a + (i + 1) = a + 1 + i by omega] at this
          simpa using this⟩
        rw [hw]; simp only [hr]

/-- `readWords` succeeds exactly when every word of the region exists and is written. -/
theorem readWords_exists {d : Dmem} {n a : Nat} (h : ∀ i < n, a + i < d.words ∧ (readWord d.cells (a + i)).isSome) :
    ∃ ws, readWords d n a = .ok ws := by
  refine ⟨(List.range n).map (fun i => (readWord d.cells (a + i)).getD 0#32), readWords_ok_iff.2 ⟨by simp, ?_⟩⟩
  intro i hi
  have hi' : i < n := by simpa using hi
  obtain ⟨h1, h2⟩ := h i hi'
  obtain ⟨w, hw⟩ := Option.isSome_iff_exists.1 h2
  exact ⟨h1, by simp [hw]⟩

/-- `copyWords`, when it answers: the words of `dst` hold what those of `src` held, and nothing else changes. Source and
destination do not overlap. -/
theorem copyWords_spec {n src dst : Nat} {d d' : Dmem} (h : copyWords n src dst d = .ok d')
    (hdis : src + n ≤ dst ∨ dst + n ≤ src) :
    WritesOnly dst n d d' ∧ ∀ i < n, readWord d'.cells (dst + i) = readWord d.cells (src + i) ∧
      (readWord d.cells (src + i)).isSome := by
  induction n generalizing src dst d with
  | zero =>
    simp only [copyWords, Except.ok.injEq] at h
    subst h
    exact ⟨WritesOnly.refl _ _ _, fun i hi => absurd hi (by omega)⟩
  | succ n ih =>
    simp only [copyWords] at h
    split at h
    · cases h
    · rename_i w hw
      split at h
      · cases h
      · rename_i d1 hd1
        obtain ⟨hW, hget⟩ := ih h (by omega)
        obtain ⟨-, hrw⟩ := memRead_ok_iff.1 hw
        have hW1 := memWrite_writesOnly hd1
        refine ⟨(hW1.mono (by omega) (by omega)).trans (hW.mono (by omega) (by omega)), fun i hi => ?_⟩
        cases i with
        | zero =>
          obtain ⟨-, rfl⟩ := memWrite_ok_iff.1 hd1
          rw [Nat.add_zero, Nat.add_zero, hW.readWord (by omega)]
          simp [hrw]
        | succ i =>
          have := hget i (by omega)
          rw [show dst + (i + 1) = dst + 1 + i by omega, show src + (i + 1) = src + 1 + i by omega, this.1]
          rw [hW1.readWord (by omega)] at *
          exact ⟨rfl, this.2⟩

/-- `copyWords` answers when the source words are written and both regions exist. -/
theorem copyWords_exists {n src dst : Nat} {d : Dmem} (hs : ∀ i < n, (readWord d.cells (src + i)).isSome)
    (hsw : src + n ≤ d.words) (hdw : dst + n ≤ d.words) : ∃ d', copyWords n src dst d = .ok d' := by
  induction n generalizing src dst d with
  | zero => exact ⟨d, rfl⟩
  | succ n ih =>
    obtain ⟨w, hw⟩ := Option.isSome_iff_exists.1 (hs 0 (by omega))
    have hr : memRead d src = .ok w := memRead_ok (by omega) (by simpa using hw)
    simp only [copyWords, hr, memWrite_ok w (show dst < d.words by omega)]
    refine ih (fun i hi => ?_) (by change _ ≤ d.words; omega) (by change _ ≤ d.words; omega)
    apply readWord_isSome_writeWord
    have := hs (i + 1) (by omega)
    rwa [show src + (i + 1) = src + 1 + i by omega] at this

end Sys2Proof.Machine
end

