-- ==== Sys2Proof/Laws/Biquad.lean ====
section
/-! SUPPORT. What the filter's loops do: one block is the filter over the words of its region, and blocks in a row are one
block over all of them. -/

namespace Sys2Proof.Machine

@[simp] theorem bqAfter_nil (form : BiquadForm) (b : Biquad) : bqAfter form b [] = b := rfl

@[simp] theorem bqAfter_cons (form : BiquadForm) (b : Biquad) (x : Word) (xs : List Word) :
    bqAfter form b (x :: xs) = bqAfter form (bqStep form b x).1 xs := rfl

@[simp] theorem bqOutputs_nil (form : BiquadForm) (b : Biquad) : bqOutputs form b [] = [] := rfl

@[simp] theorem bqOutputs_cons (form : BiquadForm) (b : Biquad) (x : Word) (xs : List Word) :
    bqOutputs form b (x :: xs) = (bqStep form b x).2 :: bqOutputs form (bqStep form b x).1 xs := rfl

@[simp] theorem bqOutputs_length (form : BiquadForm) (b : Biquad) (xs : List Word) :
    (bqOutputs form b xs).length = xs.length := by
  induction xs generalizing b with
  | nil => rfl
  | cons x xs ih => simp [ih]

theorem bqAfter_append (form : BiquadForm) (b : Biquad) (xs ys : List Word) :
    bqAfter form b (xs ++ ys) = bqAfter form (bqAfter form b xs) ys := by
  induction xs generalizing b with
  | nil => rfl
  | cons x xs ih => simp [ih]

/-- A filter step keeps the coefficients (R108, R109). -/
theorem bqStep_coefs (form : BiquadForm) (b : Biquad) (x : Word) :
    (bqStep form b x).1.a0 = b.a0 ∧ (bqStep form b x).1.a1 = b.a1 ∧ (bqStep form b x).1.a2 = b.a2 ∧
      (bqStep form b x).1.b1 = b.b1 ∧ (bqStep form b x).1.b2 = b.b2 := by
  cases form <;> exact ⟨rfl, rfl, rfl, rfl, rfl⟩

theorem bqAfter_coefs (form : BiquadForm) (b : Biquad) (xs : List Word) :
    (bqAfter form b xs).a0 = b.a0 ∧ (bqAfter form b xs).a1 = b.a1 ∧ (bqAfter form b xs).a2 = b.a2 ∧
      (bqAfter form b xs).b1 = b.b1 ∧ (bqAfter form b xs).b2 = b.b2 := by
  induction xs generalizing b with
  | nil => exact ⟨rfl, rfl, rfl, rfl, rfl⟩
  | cons x xs ih =>
    obtain ⟨h0, h1, h2, h3, h4⟩ := ih (bqStep form b x).1
    obtain ⟨g0, g1, g2, g3, g4⟩ := bqStep_coefs form b x
    exact ⟨h0.trans g0, h1.trans g1, h2.trans g2, h3.trans g3, h4.trans g4⟩

/-- The words `a .. a + xs.length - 1` of DMEM exist and hold `xs`. -/
abbrev HoldsWords (d : Dmem) (a : Nat) (xs : List Word) : Prop :=
  ∀ i (h : i < xs.length), a + i < d.words ∧ readWord d.cells (a + i) = some xs[i]

theorem HoldsWords.head {d : Dmem} {a : Nat} {x : Word} {xs : List Word} (h : HoldsWords d a (x :: xs)) :
    memRead d a = .ok x := memRead_ok_iff.2 (h 0 (Nat.succ_pos _))

theorem HoldsWords.tail {d : Dmem} {a : Nat} {x : Word} {xs : List Word} (h : HoldsWords d a (x :: xs)) :
    HoldsWords d (a + 1) xs := by
  intro i hi
  have := h (i + 1) (Nat.succ_lt_succ hi)
  rw [show a + 1 + i = a + (i + 1) by omega]
  exact this

theorem HoldsWords.of_writesOnly {d d' : Dmem} {a b n : Nat} {xs : List Word} (h : HoldsWords d a xs)
    (hw : WritesOnly b n d d') (hd : a + xs.length ≤ b ∨ b + n ≤ a) : HoldsWords d' a xs := by
  intro i hi
  obtain ⟨h1, h2⟩ := h i hi
  exact ⟨hw.words ▸ h1, by rw [hw.readWord (by omega), h2]⟩

/-- `readWords` answers `xs` exactly when the region holds them. -/
theorem readWords_iff_holdsWords {d : Dmem} {a n : Nat} {xs : List Word} :
    readWords d n a = .ok xs ↔ xs.length = n ∧ HoldsWords d a xs := readWords_ok_iff

/-- What the loop of BQ_PROCESS_BLOCK answers on a region that holds `xs` (R114, R119): the filter after `xs`, and the
outputs in the words of the region, in place. -/
theorem bqBlock_spec (form : BiquadForm) {a : Nat} {b : Biquad} {d : Dmem} {xs : List Word} (h : HoldsWords d a xs) :
    ∃ d', bqBlock form xs.length a b d = .ok (bqAfter form b xs, d') ∧ WritesOnly a xs.length d d' ∧
      HoldsWords d' a (bqOutputs form b xs) := by
  induction xs generalizing a b d with
  | nil => exact ⟨d, rfl, WritesOnly.refl _ _ _, by simp [HoldsWords]⟩
  | cons x xs ih =>
    have hr := h.head
    obtain ⟨ha, -⟩ := memRead_ok_iff.1 hr
    have hw := memWrite_ok (bqStep form b x).2 ha
    have hW1 := memWrite_writesOnly hw
    obtain ⟨d', hd', hW, hH⟩ := ih (b := (bqStep form b x).1) (h.tail.of_writesOnly hW1 (by omega))
    refine ⟨d', ?_, ?_, ?_⟩
    · simp only [List.length_cons, bqBlock, hr, hw, hd', bqAfter_cons]
    · rw [List.length_cons]
      exact (hW1.mono (by omega) (by omega)).trans (hW.mono (by omega) (by omega))
    · intro i hi
      cases i with
      | zero =>
        refine ⟨by rw [hW.words]; exact ha, ?_⟩
        rw [Nat.add_zero, hW.readWord (by omega)]
        simp
      | succ i =>
        have := hH i (Nat.lt_of_succ_lt_succ hi)
        rw [show a + (i + 1) = a + 1 + i by omega]
        exact this

/-- A block that answers has read a region that holds some words. -/
theorem bqBlock_ok {form : BiquadForm} {n a : Nat} {b : Biquad} {d : Dmem} {r : Biquad × Dmem}
    (h : bqBlock form n a b d = .ok r) :
    ∃ xs, xs.length = n ∧ HoldsWords d a xs := by
  induction n generalizing a b d with
  | zero => exact ⟨[], rfl, by simp [HoldsWords]⟩
  | succ n ih =>
    simp only [bqBlock] at h
    split at h
    · cases h
    · rename_i x hx
      split at h
      · cases h
      · rename_i d1 hd1
        obtain ⟨xs, hlen, hH⟩ := ih h
        refine ⟨x :: xs, by simp [hlen], fun i hi => ?_⟩
        have hW1 := memWrite_writesOnly hd1
        cases i with
        | zero => exact memRead_ok_iff.1 hx
        | succ i =>
          have := hH i (Nat.lt_of_succ_lt_succ hi)
          rw [hW1.words, hW1.readWord (by omega)] at this
          rw [show a + (i + 1) = a + 1 + i by omega]
          exact this

/-- Two blocks in a row are one block over both regions (R119). -/
theorem bqBlock_add (form : BiquadForm) (m n a : Nat) (b : Biquad) (d : Dmem) :
    bqBlock form (m + n) a b d = match bqBlock form m a b d with
      | .error f => .error f
      | .ok r => bqBlock form n (a + m) r.1 r.2 := by
  induction m generalizing a b d with
  | zero => simp [bqBlock]
  | succ m ih =>
    rw [show m + 1 + n = m + n + 1 by omega]
    simp only [bqBlock]
    cases memRead d a with
    | error f => rfl
    | ok x =>
      cases hw : memWrite d a (bqStep form b x).2 with
      | error f => simp only [hw]
      | ok d' => simp only [hw, ih]; rw [show a + 1 + m = a + (m + 1) by omega]

end Sys2Proof.Machine
end

