-- ==== Sys2Proof/Laws/Sweep.lean ====
section
/-! SUPPORT. What the generator's steps and the loop that writes their samples do. -/

namespace Sys2Proof.Machine

/-! ## One step -/

@[simp] theorem sgStep_fs (g : SweepGen) : (sgStep g).gen.fs = g.fs := rfl
@[simp] theorem sgStep_fmin (g : SweepGen) : (sgStep g).gen.fmin = g.fmin := rfl
@[simp] theorem sgStep_fmax (g : SweepGen) : (sgStep g).gen.fmax = g.fmax := rfl
@[simp] theorem sgStep_time (g : SweepGen) : (sgStep g).gen.time = g.time := rfl
@[simp] theorem sgStep_gain (g : SweepGen) : (sgStep g).gen.gain = g.gain := rfl
@[simp] theorem sgStep_finc (g : SweepGen) : (sgStep g).gen.finc = g.finc := rfl
@[simp] theorem sgStep_freq (g : SweepGen) : (sgStep g).gen.freq = add32 g.freq g.finc := rfl
@[simp] theorem sgStep_phase (g : SweepGen) : (sgStep g).gen.phase = wrapPhase (add32 g.phase g.pinc) := rfl
@[simp] theorem sgStep_pinc (g : SweepGen) : (sgStep g).gen.pinc = pincOf (add32 g.freq g.finc) g.fs := rfl
@[simp] theorem sgStep_started (g : SweepGen) :
    (sgStep g).gen.started = (g.started && !gt32 (add32 g.freq g.finc) g.fmax) := rfl
@[simp] theorem sgStep_exhausted (g : SweepGen) : (sgStep g).exhausted = gt32 (add32 g.freq g.finc) g.fmax := rfl
@[simp] theorem sgStep_sample (g : SweepGen) : (sgStep g).sample = mul32 g.gain (sin32 g.phase) := rfl

/-! ## Many steps -/

@[simp] theorem genAfter_zero (g : SweepGen) : genAfter g 0 = g := rfl

theorem genAfter_succ (g : SweepGen) (n : Nat) : genAfter g (n + 1) = genAfter (sgStep g).gen n := rfl

theorem sampleOf_succ (g : SweepGen) (n : Nat) : sampleOf g (n + 1) = sampleOf (sgStep g).gen n := rfl

/-- The last step of many. -/
theorem genAfter_succ' (g : SweepGen) (n : Nat) : genAfter g (n + 1) = (sgStep (genAfter g n)).gen := by
  induction n generalizing g with
  | zero => rfl
  | succ n ih => rw [genAfter_succ, ih, genAfter_succ]

theorem genAfter_add (g : SweepGen) (m n : Nat) : genAfter g (m + n) = genAfter (genAfter g m) n := by
  induction m generalizing g with
  | zero => simp
  | succ m ih => rw [Nat.succ_add, genAfter_succ, ih, genAfter_succ]

/-- A step changes only PHASE, FREQ, PINC and STARTED (R95). -/
theorem genAfter_fixed (g : SweepGen) (n : Nat) :
    (genAfter g n).fs = g.fs ∧ (genAfter g n).fmin = g.fmin ∧ (genAfter g n).fmax = g.fmax ∧
      (genAfter g n).time = g.time ∧ (genAfter g n).gain = g.gain ∧ (genAfter g n).finc = g.finc := by
  induction n with
  | zero => simp
  | succ n ih => rw [genAfter_succ']; simpa using ih

theorem freqAfter_step (g : SweepGen) (n : Nat) : freqAfter (sgStep g).gen n = freqAfter g (n + 1) := by
  induction n with
  | zero => rfl
  | succ n ih => simp only [freqAfter] at ih ⊢; rw [ih]; rfl

/-- The frequency after `n` samples is the `n`-th partial sum. -/
theorem genAfter_freq (g : SweepGen) (n : Nat) : (genAfter g n).freq = freqAfter g n := by
  induction n with
  | zero => rfl
  | succ n ih => rw [genAfter_succ', sgStep_freq, ih, (genAfter_fixed g n).2.2.2.2.2]; rfl

/-- What the loop of SG_PROCESS and GENERATE answers (R101, R103, R104, R124): `count` samples, the generator after them,
and a sweep that ended with the last of them or did not end within the call. -/
structure SgFillSpec (n a : Nat) (g : SweepGen) (d : Dmem) (r : SgFillResult) : Prop where
  /-- At most `n` samples. -/
  count_le : r.count ≤ n
  /-- The generator has advanced once per sample. -/
  gen : r.gen = genAfter g r.count
  /-- Only the words of the samples are written. -/
  writes : WritesOnly a r.count d r.dmem
  /-- Each word holds its sample. -/
  samples : ∀ i < r.count, readWord r.dmem.cells (a + i) = some (sampleOf g i)
  /-- An exhausted run ended with its last sample. -/
  ended : r.exhausted = true → sweepEndsAt g r.count
  /-- A run that is not exhausted has all its samples and a sweep that goes on. -/
  ongoing : r.exhausted = false → r.count = n ∧ sweepRunsOn g n

/-- The loop succeeds exactly with this result, when its region exists. -/
theorem sgFill_spec {n a : Nat} {g : SweepGen} {d : Dmem} (h : a + n ≤ d.words) :
    ∃ r, sgFill n a g d = .ok r ∧ SgFillSpec n a g d r := by
  induction n generalizing a g d with
  | zero =>
    refine ⟨⟨0, false, g, d⟩, rfl, ?_⟩
    exact ⟨Nat.le_refl _, rfl, WritesOnly.refl _ _ _, fun i hi => absurd hi (Nat.not_lt_zero i), by simp,
      fun _ => ⟨rfl, fun j h1 h2 => absurd h1 (by omega)⟩⟩
  | succ n ih =>
    have hw : memWrite d a (sgStep g).sample = .ok ⟨d.words, writeWord d.cells a (sgStep g).sample⟩ :=
      memWrite_ok _ (by omega)
    have hW1 := memWrite_writesOnly hw
    simp only [sgFill, hw]
    generalize hd' : (⟨d.words, writeWord d.cells a (sgStep g).sample⟩ : Dmem) = d' at *
    have hword : readWord d'.cells a = some (sampleOf g 0) := by rw [← hd']; simp [sampleOf]
    cases hex : (sgStep g).exhausted with
    | true =>
      refine ⟨_, if_pos rfl, ⟨by simp, rfl, hW1, fun i hi => ?_, fun _ => ⟨by simp, hex, fun j h1 h2 => ?_⟩, by simp⟩⟩
      · obtain rfl : i = 0 := by simpa using hi
        simpa using hword
      · change j < 1 at h1
        omega
    | false =>
      obtain ⟨r, hr, hs⟩ := ih (a := a + 1) (g := (sgStep g).gen) (d := d') (by rw [hW1.words]; omega)
      simp only [hr, Bool.false_eq_true, if_false]
      refine ⟨_, rfl, ⟨by simpa using hs.count_le, ?_, ?_, fun i hi => ?_, fun he => ?_, fun he => ?_⟩⟩
      · exact hs.gen
      · exact (hW1.mono (Nat.le_refl _) (by change a + 1 ≤ a + (r.count + 1); omega)).trans
          (hs.writes.mono (by omega) (by change a + 1 + r.count ≤ a + (r.count + 1); omega))
      · cases i with
        | zero =>
          rw [Nat.add_zero, hs.writes.readWord (by omega)]
          exact hword
        | succ i =>
          rw [show a + (i + 1) = a + 1 + i by omega, sampleOf_succ]
          exact hs.samples i (by simpa using hi)
      · obtain ⟨h1, h2, h3⟩ := hs.ended he
        refine ⟨Nat.succ_pos _, by rw [freqAfter_step] at h2; exact h2, fun j hj hj0 => ?_⟩
        cases j with
        | zero => omega
        | succ j =>
          cases j with
          | zero => exact hex
          | succ j =>
            have := h3 (j + 1) (by change j + 1 + 1 < r.count + 1 at hj; omega) (by omega)
            rwa [freqAfter_step] at this
      · obtain ⟨h1, h2⟩ := hs.ongoing he
        refine ⟨by simp [h1], fun j hj hj0 => ?_⟩
        cases j with
        | zero => omega
        | succ j =>
          cases j with
          | zero => exact hex
          | succ j =>
            have := h2 (j + 1) (by omega) (by omega)
            rwa [freqAfter_step] at this

/-- A sweep ends at one sample count only. -/
theorem sweepEndsAt_unique {g : SweepGen} {m n : Nat} (hm : sweepEndsAt g m) (hn : sweepEndsAt g n) : m = n := by
  rcases Nat.lt_trichotomy m n with h | h | h
  · have := hn.2.2 m h hm.1; rw [hm.2.1] at this; cases this
  · exact h
  · have := hm.2.2 n h hn.1; rw [hn.2.1] at this; cases this

theorem not_sweepRunsOn {g : SweepGen} {m n : Nat} (hm : sweepEndsAt g m) (h : m ≤ n) : ¬sweepRunsOn g n := by
  intro hr
  have := hr m (by omega) hm.1
  rw [hm.2.1] at this
  cases this

/-- Two runs in a row are one run over both regions, unless the first exhausts the generator (R107). -/
theorem sgFill_add (m n a : Nat) (g : SweepGen) (d : Dmem) :
    sgFill (m + n) a g d = match sgFill m a g d with
      | .error f => .error f
      | .ok r =>
        if r.exhausted then .ok r
        else
          match sgFill n (a + m) r.gen r.dmem with
          | .error f => .error f
          | .ok t => .ok ⟨r.count + t.count, t.exhausted, t.gen, t.dmem⟩ := by
  induction m generalizing a g d with
  | zero =>
    simp only [Nat.zero_add, sgFill, Bool.false_eq_true, if_false, Nat.add_zero]
    cases sgFill n a g d <;> rfl
  | succ m ih =>
    rw [show m + 1 + n = m + n + 1 by omega]
    simp only [sgFill]
    cases memWrite d a (sgStep g).sample with
    | error f => rfl
    | ok d' =>
      dsimp only
      cases hx : (sgStep g).exhausted with
      | true => simp
      | false =>
        simp only [Bool.false_eq_true, if_false, ih]
        cases sgFill m (a + 1) (sgStep g).gen d' with
        | error f => rfl
        | ok r =>
          dsimp only
          cases hr : r.exhausted with
          | true => simp [hr]
          | false =>
            simp only [Bool.false_eq_true, if_false]
            rw [show a + 1 + m = a + (m + 1) by omega]
            cases sgFill n (a + (m + 1)) r.gen r.dmem with
            | error f => rfl
            | ok t => simp only [Except.ok.injEq, SgFillResult.mk.injEq, and_true]; omega

end Sys2Proof.Machine
end

