-- ==== Sys2Proof/Laws/Analyzer.lean ====
section
/-! SUPPORT. What the shared operations of the analyzer do: the run's chunks, the seeding of a run, and the spectra. -/

namespace Sys2Proof.Machine

/-! ## Chunks -/

@[simp] theorem chunkLen_zero (bs rest : Nat) : chunkLen bs rest 0 = min bs rest := rfl

/-- The chunks of AN_RUN_BQ are one block over all of its words, whatever the block size (R119, R138). -/
theorem bqChunks_eq_bqBlock (form : BiquadForm) {bs : Nat} (hbs : bs ≠ 0) {fuel rest : Nat} (h : rest ≤ fuel)
    (a : Nat) (b : Biquad) (d : Dmem) : bqChunks form bs fuel rest a b d = bqBlock form rest a b d := by
  induction fuel generalizing rest a b d with
  | zero => obtain rfl : rest = 0 := by omega
            rfl
  | succ fuel ih =>
    simp only [bqChunks, chunkLen_zero]
    split
    · rename_i h0; subst h0; rfl
    · rename_i h0
      have hr : rest = min bs rest + (rest - min bs rest) := by omega
      conv_rhs => rw [hr, bqBlock_add]
      cases hb : bqBlock form (min bs rest) a b d with
      | error f => rfl
      | ok r => exact ih (by omega) _ _ _

/-! ## Transforms and bins -/

@[simp] theorem rdft32_length (v : List Word) : (rdft32 v).length = v.length / 2 + 1 := by simp [rdft32]

@[simp] theorem spectrumBins_length (vin vout : List Word) :
    (spectrumBins vin vout).length = min (vout.length / 2 + 1) (vin.length / 2 + 1) := by simp [spectrumBins]

/-- Bin `k` is the ratio of the two transforms' bins `k`. -/
theorem spectrumBins_getElem {vin vout : List Word} {k : Nat} (h : k < (spectrumBins vin vout).length) :
    (spectrumBins vin vout)[k] = spectrumBin (rdftBin vout k) (rdftBin vin k) := by
  simp [spectrumBins, rdft32]

/-- What writing the bins does: MAG and PH hold them, in order. -/
theorem writeBins_spec {bins : List (Word × Word)} {mag ph : Nat} {d : Dmem}
    (hmp : mag + bins.length ≤ ph) (hw : ph + bins.length ≤ d.words) :
    ∃ d', writeBins bins mag ph d = .ok d' ∧ d'.words = d.words ∧
      (Memory.wf d.cells → Memory.wf d'.cells) ∧
      (∀ b, (readWord d.cells b).isSome → (readWord d'.cells b).isSome) ∧
      (∀ x, (x < 4 * mag ∨ 4 * (mag + bins.length) ≤ x) → (x < 4 * ph ∨ 4 * (ph + bins.length) ≤ x) →
        readByte d'.cells x = readByte d.cells x) ∧
      ∀ k (h : k < bins.length), readWord d'.cells (mag + k) = some (bins[k]).1 ∧
        readWord d'.cells (ph + k) = some (bins[k]).2 := by
  induction bins generalizing mag ph d with
  | nil => exact ⟨d, rfl, rfl, id, fun _ h => h, fun _ _ _ => rfl, fun k h => absurd h (by simp)⟩
  | cons bin bins ih =>
    simp only [List.length_cons] at hmp hw
    have h1 := memWrite_ok (d := d) (a := mag) bin.1 (by omega)
    have hW1 := memWrite_writesOnly h1
    have h2 := memWrite_ok (d := ⟨d.words, writeWord d.cells mag bin.1⟩) (a := ph) bin.2 (by change ph < d.words; omega)
    have hW2 := memWrite_writesOnly h2
    obtain ⟨d', hd', hwords, hwf, hmarks, hframe, hbins⟩ := ih (mag := mag + 1) (ph := ph + 1)
      (d := ⟨d.words, writeWord (writeWord d.cells mag bin.1) ph bin.2⟩) (by omega) (by change _ ≤ d.words; omega)
    have hword : ∀ b, (b < mag + 1 ∨ mag + 1 + bins.length ≤ b) → (b < ph + 1 ∨ ph + 1 + bins.length ≤ b) →
        readWord d'.cells b = readWord (writeWord (writeWord d.cells mag bin.1) ph bin.2) b := fun b hb hb' =>
      readWord_congr fun x hx hx' => hframe x (by omega) (by omega)
    refine ⟨d', by simp only [writeBins, h1, h2, hd'], hwords, fun h => hwf (hW2.wf (hW1.wf h)),
      fun b hb => hmarks b (hW2.marks b (hW1.marks b hb)), fun x hx hx' => ?_, fun k hk => ?_⟩
    · simp only [List.length_cons] at hx hx'
      rw [hframe x (by omega) (by omega), hW2.frame x (by omega), hW1.frame x (by omega)]
    · cases k with
      | zero =>
        simp only [Nat.add_zero, List.getElem_cons_zero]
        rw [hword mag (by omega) (by omega), hword ph (by omega) (by omega), readWord_writeWord_ne _ _ (by omega)]
        simp
      | succ k =>
        have := hbins k (Nat.lt_of_succ_lt_succ hk)
        rw [show mag + (k + 1) = mag + 1 + k by omega, show ph + (k + 1) = ph + 1 + k by omega]
        exact this

/-! ## Spectra -/

/-- The buffers of the analyzer fit in DMEM (R121). -/
abbrev buffersFit (a : Analyzer) (words : Nat) : Prop := a.base.toNat + runWords a.cap.toNat ≤ words

/-- What SPECTRUM answers (R131): bin `k` of MAG and PH is the ratio of bins `k` of the transforms of OUT and IN; nothing
else changes. -/
structure SpectrumSpec (a : Analyzer) (n : Nat) (d d' : Dmem) : Prop where
  /-- DMEM_WORDS does not change. -/
  words : d'.words = d.words
  /-- The canonical form is kept. -/
  wf : Memory.wf d.cells → Memory.wf d'.cells
  /-- A written word stays written. -/
  marks : ∀ b, (readWord d.cells b).isSome → (readWord d'.cells b).isSome
  /-- Bytes outside the valid words of MAG and PH read as before. -/
  frame : ∀ x, (x < 4 * magBase a ∨ 4 * (magBase a + binCount n) ≤ x) →
    (x < 4 * phBase a ∨ 4 * (phBase a + binCount n) ≤ x) → readByte d'.cells x = readByte d.cells x
  /-- The bins. -/
  bins : ∀ vin vout : List Word, vin.length = n → vout.length = n → HoldsWords d (inBase a) vin →
    HoldsWords d (outBase a) vout → ∀ k < binCount n,
      readWord d'.cells (magBase a + k) = some (spectrumBin (rdftBin vout k) (rdftBin vin k)).1 ∧
        readWord d'.cells (phBase a + k) = some (spectrumBin (rdftBin vout k) (rdftBin vin k)).2

theorem HoldsWords.unique {d : Dmem} {a : Nat} {xs ys : List Word} (hl : xs.length = ys.length) (hx : HoldsWords d a xs)
    (hy : HoldsWords d a ys) : xs = ys := by
  refine List.ext_getElem hl fun i h1 h2 => ?_
  have e1 := (hx i h1).2
  rw [(hy i h2).2] at e1
  exact (Option.some.inj e1).symm

/-- SPECTRUM succeeds exactly with this result, when its buffers fit and its samples are written. -/
theorem writeSpectra_spec {a : Analyzer} {n : Nat} {d : Dmem} {vin vout : List Word} (hfit : buffersFit a d.words)
    (hn : n ≤ a.cap.toNat) (hli : vin.length = n) (hlo : vout.length = n) (hi : HoldsWords d (inBase a) vin)
    (ho : HoldsWords d (outBase a) vout) : ∃ d', writeSpectra a n d = .ok d' ∧ SpectrumSpec a n d d' := by
  have hri : readWords d n (inBase a) = .ok vin := readWords_iff_holdsWords.2 ⟨hli, hi⟩
  have hro : readWords d n (outBase a) = .ok vout := readWords_iff_holdsWords.2 ⟨hlo, ho⟩
  have hlen : (spectrumBins vin vout).length = binCount n := by simp [hli, hlo, binCount]
  have hK : binCount n ≤ binCapacity a.cap.toNat := by unfold binCount binCapacity; omega
  simp only [buffersFit, runWords] at hfit
  obtain ⟨d', hd', h1, h2, h3, h4, h5⟩ := writeBins_spec (bins := spectrumBins vin vout) (mag := magBase a)
    (ph := phBase a) (d := d) (by rw [hlen]; unfold magBase phBase; omega) (by rw [hlen]; unfold phBase; omega)
  rw [hlen] at h4
  refine ⟨d', by simp only [writeSpectra, hri, hro, hd'], ⟨h1, h2, h3, h4, ?_⟩⟩
  intro vin' vout' hli' hlo' hi' ho' k hk
  obtain rfl := hi'.unique (by omega) hi
  obtain rfl := ho'.unique (by omega) ho
  have := h5 k (hlen.symm ▸ hk)
  rwa [spectrumBins_getElem] at this

/-! ## Seeding a run -/

@[simp] theorem initPrivateGen_fmax (fs : Word) : (initPrivateGen fs).fmax = 0x469C4000#32 := rfl
@[simp] theorem initPrivateGen_freq (fs : Word) : (initPrivateGen fs).freq = fOne := rfl

/-- What the common part of AN_BEGIN and AN_RUN_BQ answers (R124, R125, R130) when the buffers fit: either the sweep ends
within AN_CAP samples, and IN and OUT hold them, or AN_CAP samples are in IN and nothing else of DMEM changes. -/
theorem seedRun_spec {s : State} (hfit : buffersFit s.an s.build.dmemWords) :
    ∃ r, seedRun s = .ok r ∧
      r.state = { s with an := r.state.an, mem := r.state.mem } ∧
      r.state.an = { clearRun s.an with len := if r.fits then u32Word r.len else 0#32, gen := r.state.an.gen } ∧
      (Memory.wf s.mem → Memory.wf r.state.mem) ∧
      (∀ b, (readWord s.mem b).isSome → (readWord r.state.mem b).isSome) ∧
      (r.fits = true → sweepEndsAt (initPrivateGen s.an.fs) r.len ∧ r.len ≤ s.an.cap.toNat ∧
        r.state.an.gen = genAfter (initPrivateGen s.an.fs) r.len ∧
        (∀ i < r.len, readWord r.state.mem (inBase s.an + i) = some (sampleOf (initPrivateGen s.an.fs) i) ∧
          readWord r.state.mem (outBase s.an + i) = some (sampleOf (initPrivateGen s.an.fs) i)) ∧
        ∀ x, (x < 4 * inBase s.an ∨ 4 * (inBase s.an + r.len) ≤ x) →
          (x < 4 * outBase s.an ∨ 4 * (outBase s.an + r.len) ≤ x) → readByte r.state.mem x = readByte s.mem x) ∧
      (r.fits = false → sweepRunsOn (initPrivateGen s.an.fs) s.an.cap.toNat ∧
        r.state.an.gen = genAfter (initPrivateGen s.an.fs) s.an.cap.toNat ∧
        (∀ i < s.an.cap.toNat, readWord r.state.mem (inBase s.an + i) = some (sampleOf (initPrivateGen s.an.fs) i)) ∧
        ∀ x, (x < 4 * inBase s.an ∨ 4 * (inBase s.an + s.an.cap.toNat) ≤ x) →
          readByte r.state.mem x = readByte s.mem x) := by
  simp only [buffersFit, runWords, binCapacity] at hfit
  obtain ⟨t, ht, hs⟩ := sgFill_spec (n := s.an.cap.toNat) (a := inBase s.an) (g := initPrivateGen s.an.fs) (d := s.dmem)
    (by change s.an.base.toNat + s.an.cap.toNat ≤ s.build.dmemWords; omega)
  have hc := hs.count_le
  simp only [seedRun, generate, ht]
  cases hex : t.exhausted with
  | false =>
    obtain ⟨hcount, hruns⟩ := hs.ongoing hex
    have hgen := hs.gen
    have hsam := hs.samples
    have hW := hs.writes
    rw [hcount] at hgen hsam hW
    simp only [Bool.not_false, if_true]
    refine ⟨_, rfl, rfl, rfl, hW.wf, hW.marks, by simp, fun _ => ⟨hruns, hgen, hsam, hW.frame⟩⟩
  | true =>
    have hW := hs.writes
    have hwords : t.dmem.words = s.build.dmemWords := hW.words
    obtain ⟨d, hd⟩ := copyWords_exists (n := t.count) (src := inBase s.an) (dst := outBase s.an) (d := t.dmem)
      (fun i hi => by rw [hs.samples i hi]; rfl)
      (by rw [hwords]; unfold inBase; omega) (by rw [hwords]; unfold outBase; omega)
    obtain ⟨hC, hcopy⟩ := copyWords_spec hd (.inl (by unfold inBase outBase; omega))
    simp only [Bool.not_true, Bool.false_eq_true, if_false, hd]
    refine ⟨_, rfl, rfl, rfl, fun h => hC.wf (hW.wf h), fun b hb => hC.marks b (hW.marks b hb),
      fun _ => ⟨hs.ended hex, hc, hs.gen, fun i (hi : i < t.count) => ?_, fun x hx hx' => ?_⟩, by simp⟩
    · have hin : readWord d.cells (inBase s.an + i) = some (sampleOf (initPrivateGen s.an.fs) i) := by
        rw [hC.readWord (by unfold inBase outBase; omega), hs.samples i hi]
      exact ⟨hin, by
        change readWord d.cells _ = _
        rw [(hcopy i hi).1, hs.samples i hi]⟩
    · change readByte d.cells x = _
      rw [hC.frame x hx', hW.frame x hx]
      rfl

end Sys2Proof.Machine
end

