-- ==== Sys2Proof/Laws/Binary32.lean ====
section
/-! SUPPORT. The shape of a binary32 word, and what rounding does: it answers a nearest magnitude, keeps the order, and is
exact on what binary32 represents. -/

namespace Sys2Proof.Machine

/-! ## Sign and magnitude -/

theorem magBits_lt (w : Word) : magBits w < 2 ^ 31 := Nat.mod_lt _ (by decide)

theorem magBits_withSign {neg : Bool} {mag : Nat} (h : mag < 2 ^ 31) : magBits (withSign neg mag) = mag := by
  cases neg <;> simp only [magBits, withSign, BitVec.toNat_ofNat] <;> simp <;> omega

theorem signBit_withSign {neg : Bool} {mag : Nat} (h : mag < 2 ^ 31) : signBit (withSign neg mag) = neg := by
  cases neg <;> simp only [signBit, withSign, BitVec.toNat_ofNat] <;> simp <;> omega

@[simp] theorem withSign_signBit_magBits (w : Word) : withSign (signBit w) (magBits w) = w := by
  apply BitVec.eq_of_toNat_eq
  have := w.isLt
  cases hs : signBit w
  · have h : ¬2 ^ 31 ≤ w.toNat := of_decide_eq_false hs
    simp [withSign, magBits]
    omega
  · have h : 2 ^ 31 ≤ w.toNat := of_decide_eq_true hs
    simp [withSign, magBits]
    omega

/-- A word is its sign and its magnitude. -/
theorem word_ext {a b : Word} (hs : signBit a = signBit b) (hm : magBits a = magBits b) : a = b := by
  rw [← withSign_signBit_magBits a, hs, hm, withSign_signBit_magBits]

/-! ## Magnitudes in units -/

theorem unitsOfMag_of_lt {m : Nat} (h : m < 2 ^ 23) : unitsOfMag m = m := by
  unfold unitsOfMag
  rw [if_pos (by omega), Nat.mod_eq_of_lt h]

/-- A normal magnitude: significand `q` in the place `2 ^ e`; the next power of two carries into the exponent. -/
theorem unitsOfMag_normal {e q : Nat} (h1 : 2 ^ 23 ≤ q) (h2 : q ≤ 2 ^ 24) :
    unitsOfMag (e * 2 ^ 23 + q) = q * 2 ^ e := by
  unfold unitsOfMag
  rcases Nat.lt_or_ge q (2 ^ 24) with h | h
  · have hd : (e * 2 ^ 23 + q) / 2 ^ 23 = e + 1 := by omega
    have hm : (e * 2 ^ 23 + q) % 2 ^ 23 + 2 ^ 23 = q := by omega
    rw [hd, hm, if_neg (by omega), Nat.add_sub_cancel]
  · have hq : q = 2 ^ 24 := by omega
    subst hq
    have hd : (e * 2 ^ 23 + 2 ^ 24) / 2 ^ 23 = e + 2 := by omega
    have hm : (e * 2 ^ 23 + 2 ^ 24) % 2 ^ 23 = 0 := by omega
    rw [hd, hm, if_neg (by omega), show e + 2 - 1 = e + 1 by omega, pow_succ]
    omega

theorem unitsOfMag_of_le {q : Nat} (h : q ≤ 2 ^ 24) : unitsOfMag q = q := by
  rcases Nat.lt_or_ge q (2 ^ 23) with hq | hq
  · exact unitsOfMag_of_lt hq
  · simpa using unitsOfMag_normal (e := 0) hq h

theorem unitsOfMag_succ_lt (m : Nat) : unitsOfMag m < unitsOfMag (m + 1) := by
  rcases Nat.lt_or_ge m (2 ^ 23) with hm | hm
  · rw [unitsOfMag_of_le (by omega), unitsOfMag_of_le (by omega)]; omega
  · have h1 : m = (m / 2 ^ 23 - 1) * 2 ^ 23 + (m % 2 ^ 23 + 2 ^ 23) := by omega
    rw [h1, unitsOfMag_normal (by omega) (by omega),
      show (m / 2 ^ 23 - 1) * 2 ^ 23 + (m % 2 ^ 23 + 2 ^ 23) + 1
        = (m / 2 ^ 23 - 1) * 2 ^ 23 + (m % 2 ^ 23 + 2 ^ 23 + 1) by omega,
      unitsOfMag_normal (by omega) (by omega)]
    exact Nat.mul_lt_mul_of_pos_right (by omega) (by positivity)

/-- The units of a magnitude rise strictly with the magnitude. -/
theorem unitsOfMag_strictMono : StrictMono unitsOfMag := strictMono_nat_of_lt_succ unitsOfMag_succ_lt

theorem unitsOfMag_lt_iff {m m' : Nat} : unitsOfMag m < unitsOfMag m' ↔ m < m' := unitsOfMag_strictMono.lt_iff_lt

theorem unitsOfMag_le_iff {m m' : Nat} : unitsOfMag m ≤ unitsOfMag m' ↔ m ≤ m' := unitsOfMag_strictMono.le_iff_le

theorem unitsOfMag_inj {m m' : Nat} : unitsOfMag m = unitsOfMag m' ↔ m = m' := unitsOfMag_strictMono.injective.eq_iff

@[simp] theorem unitsOfMag_zero : unitsOfMag 0 = 0 := unitsOfMag_of_lt (by decide)

/-- A magnitude of at least `2 ^ (23 + e)` units is a multiple of `2 ^ e`. -/
theorem two_pow_dvd_unitsOfMag {m e : Nat} (h : 2 ^ (23 + e) ≤ unitsOfMag m) : 2 ^ e ∣ unitsOfMag m := by
  rcases Nat.lt_or_ge m (2 ^ 23) with hm | hm
  · rw [unitsOfMag_of_lt hm] at h
    have : 2 ^ 23 ≤ 2 ^ (23 + e) := Nat.pow_le_pow_right (by decide) (by omega)
    omega
  · have h1 : m = (m / 2 ^ 23 - 1) * 2 ^ 23 + (m % 2 ^ 23 + 2 ^ 23) := by omega
    rw [h1, unitsOfMag_normal (by omega) (by omega)] at h ⊢
    have hlt : (m % 2 ^ 23 + 2 ^ 23) * 2 ^ (m / 2 ^ 23 - 1) < 2 ^ (24 + (m / 2 ^ 23 - 1)) := by
      rw [pow_add]
      exact Nat.mul_lt_mul_of_pos_right (by omega) (by positivity)
    have := (Nat.pow_lt_pow_iff_right (show 1 < 2 by decide)).1 (Nat.lt_of_le_of_lt h hlt)
    exact Dvd.dvd.mul_left (pow_dvd_pow 2 (by omega)) _

/-! ## Rounding a quotient to the nearest integer -/

/-- The rounded quotient is the floor or the next integer. -/
theorem divNearestEven_le (num den : Nat) : divNearestEven num den ≤ num / den + 1 := by
  unfold divNearestEven; dsimp only; split <;> omega

theorem le_divNearestEven (num den : Nat) : num / den ≤ divNearestEven num den := by
  unfold divNearestEven; dsimp only; split <;> omega

/-- Twice the error of the rounded quotient is at most the divisor. -/
theorem divNearestEven_error (num : Nat) {den : Nat} (h : 0 < den) :
    2 * (divNearestEven num den * den) ≤ 2 * num + den ∧ 2 * num ≤ 2 * (divNearestEven num den * den) + den := by
  have hdm := Nat.div_add_mod num den
  have hlt := Nat.mod_lt num h
  unfold divNearestEven
  dsimp only
  rw [Nat.mul_comm] at hdm
  split
  · rename_i hc
    rw [Nat.add_mul]
    constructor <;> omega
  · rename_i hc
    constructor <;> omega

/-- A tie goes to the even quotient. -/
theorem divNearestEven_tie {num den : Nat} (h : 0 < den)
    (ht : 2 * (divNearestEven num den * den) = 2 * num + den ∨ 2 * num = 2 * (divNearestEven num den * den) + den) :
    divNearestEven num den % 2 = 0 := by
  have hdm := Nat.div_add_mod num den
  have hlt := Nat.mod_lt num h
  rw [Nat.mul_comm] at hdm
  unfold divNearestEven at ht ⊢
  dsimp only at ht ⊢
  split at ht
  · rename_i hc
    rw [if_pos hc]
    rw [Nat.add_mul] at ht
    omega
  · rename_i hc
    rw [if_neg hc]
    omega

/-- No integer is nearer to the quotient than the rounded one. -/
theorem divNearestEven_nearest (num k : Nat) {den : Nat} (h : 0 < den) :
    |((divNearestEven num den * den : Nat) : Int) - num| ≤ |((k * den : Nat) : Int) - num| := by
  obtain ⟨h1, h2⟩ := divNearestEven_error num h
  generalize divNearestEven num den = q at *
  rcases Nat.lt_trichotomy k q with hk | hk | hk
  · have : (k + 1) * den ≤ q * den := Nat.mul_le_mul_right _ hk
    rw [Nat.add_mul] at this
    rw [abs_le]
    constructor
    · rw [abs_of_nonpos (by omega)]; omega
    · rw [abs_of_nonpos (by omega)]; omega
  · rw [hk]
  · have : (q + 1) * den ≤ k * den := Nat.mul_le_mul_right _ hk
    rw [Nat.add_mul] at this
    rw [abs_le]
    constructor
    · rw [abs_of_nonneg (by omega)]; omega
    · rw [abs_of_nonneg (by omega)]; omega

/-! ## Rounding to binary32 -/

/-- The magnitude before overflow is cut off to infinity. -/
def roundMagFree (num den : Nat) : Nat :=
  lastPlace (num / den) * 2 ^ 23 + divNearestEven num (den * 2 ^ lastPlace (num / den))

theorem roundMag_eq (num den : Nat) : roundMag num den = min (roundMagFree num den) infMag := rfl

theorem roundMag_le (num den : Nat) : roundMag num den ≤ infMag := Nat.min_le_right _ _

theorem roundMag_lt (num den : Nat) : roundMag num den < 2 ^ 31 :=
  Nat.lt_of_le_of_lt (roundMag_le num den) (by decide)

/-- The significand a rounding keeps, and where it stands: below `2 ^ 24` in place 0, or with 24 bits above it. -/
theorem round_significand (num den : Nat) :
    divNearestEven num (den * 2 ^ lastPlace (num / den)) ≤ 2 ^ 24 ∧
      (lastPlace (num / den) = 0 ∨
        2 ^ 23 ≤ num / (den * 2 ^ lastPlace (num / den)) ∧
          2 ^ 23 ≤ divNearestEven num (den * 2 ^ lastPlace (num / den))) := by
  have hq : num / (den * 2 ^ lastPlace (num / den)) = num / den / 2 ^ lastPlace (num / den) :=
    (Nat.div_div_eq_div_mul _ _ _).symm
  have hup := divNearestEven_le num (den * 2 ^ lastPlace (num / den))
  have hlo := le_divNearestEven num (den * 2 ^ lastPlace (num / den))
  rw [hq] at hup hlo ⊢
  generalize divNearestEven num (den * 2 ^ lastPlace (num / den)) = q at *
  generalize num / den = n at *
  by_cases hn : n < 2 ^ 24
  · have he : lastPlace n = 0 := by
      unfold lastPlace
      rcases Nat.eq_zero_or_pos n with rfl | hpos
      · simp
      · have := (Nat.log2_lt (by omega : n ≠ 0)).2 hn
        omega
    rw [he] at hup hlo ⊢
    simp only [pow_zero, Nat.div_one] at hup hlo ⊢
    exact ⟨by omega, by simp⟩
  · have hne : n ≠ 0 := by omega
    have hL := Nat.log2_self_le hne
    have hU := Nat.lt_log2_self (n := n)
    have h24 : 24 ≤ Nat.log2 n := (Nat.le_log2 hne).2 (by omega)
    have he : Nat.log2 n = 23 + lastPlace n := by unfold lastPlace; omega
    rw [he] at hL hU
    have h1 : 2 ^ 23 ≤ n / 2 ^ lastPlace n := by
      rw [Nat.le_div_iff_mul_le (by positivity), ← pow_add]; exact hL
    have h2 : n / 2 ^ lastPlace n < 2 ^ 24 := by
      rw [Nat.div_lt_iff_lt_mul (by positivity), ← pow_add]
      rwa [show 24 + lastPlace n = 23 + lastPlace n + 1 by omega]
    exact ⟨by omega, .inr ⟨h1, by omega⟩⟩

/-- The units of a rounded magnitude: the significand in its place. -/
theorem unitsOfMag_roundMagFree (num den : Nat) :
    unitsOfMag (roundMagFree num den)
      = divNearestEven num (den * 2 ^ lastPlace (num / den)) * 2 ^ lastPlace (num / den) := by
  obtain ⟨h24, h0 | ⟨-, h23⟩⟩ := round_significand num den
  · unfold roundMagFree
    rw [h0] at h24 ⊢
    simp only [pow_zero, Nat.mul_one, Nat.zero_mul, Nat.zero_add] at h24 ⊢
    exact unitsOfMag_of_le h24
  · exact unitsOfMag_normal h23 h24

/-- Rounding answers a NEAREST magnitude: no magnitude `m` of binary32 (with an unbounded exponent) is nearer to
`num / den` units. -/
theorem roundMagFree_nearest (num m : Nat) {den : Nat} (h : 0 < den) :
    |((unitsOfMag (roundMagFree num den) * den : Nat) : Int) - num| ≤ |((unitsOfMag m * den : Nat) : Int) - num| := by
  rw [unitsOfMag_roundMagFree num den]
  obtain ⟨-, hcase⟩ := round_significand num den
  generalize lastPlace (num / den) = e at *
  have hD : 0 < den * 2 ^ e := Nat.mul_pos h (by positivity)
  have hnear := fun k => divNearestEven_nearest num k hD
  have hre : ∀ k : Nat, k * (den * 2 ^ e) = k * 2 ^ e * den := fun k => by ring
  simp only [hre] at hnear
  by_cases hm : 2 ^ (23 + e) ≤ unitsOfMag m
  · obtain ⟨k, hk⟩ := two_pow_dvd_unitsOfMag hm
    rw [hk, Nat.mul_comm (2 ^ e) k]
    exact hnear k
  · rcases hcase with rfl | ⟨h23, -⟩
    · simpa using hnear (unitsOfMag m)
    · refine (hnear (2 ^ 23)).trans ?_
      have hle : 2 ^ 23 * (den * 2 ^ e) ≤ num := by
        rw [Nat.le_div_iff_mul_le hD] at h23; exact h23
      rw [hre] at hle
      have hlt : unitsOfMag m * den ≤ 2 ^ 23 * 2 ^ e * den := by
        rw [← pow_add]; exact Nat.mul_le_mul_right _ (by omega)
      rw [abs_of_nonpos (by omega), abs_of_nonpos (by omega)]
      omega

/-- The rounded magnitude depends on the ratio alone. -/
theorem roundMagFree_congr {num den num' den' : Nat} (h : 0 < den) (h' : 0 < den') (he : num * den' = num' * den) :
    roundMagFree num den = roundMagFree num' den' := by
  have key : ∀ num den k : Nat, roundMagFree (num * k.succ) (den * k.succ) = roundMagFree num den := by
    intro num den k
    unfold roundMagFree
    have hd : num * k.succ / (den * k.succ) = num / den := Nat.mul_div_mul_right _ _ (Nat.succ_pos k)
    rw [hd]
    generalize lastPlace (num / den) = e
    congr 1
    unfold divNearestEven
    dsimp only
    have h1 : den * k.succ * 2 ^ e = den * 2 ^ e * k.succ := by ring
    rw [h1, Nat.mul_div_mul_right _ _ (Nat.succ_pos k), Nat.mul_mod_mul_right]
    generalize num % (den * 2 ^ e) = r
    generalize num / (den * 2 ^ e) = q
    generalize den * 2 ^ e = D
    have e1 : D * k.succ < 2 * (r * k.succ) ↔ D < 2 * r := by
      rw [← Nat.mul_assoc]; exact Nat.mul_lt_mul_right (Nat.succ_pos k)
    have e2 : 2 * (r * k.succ) = D * k.succ ↔ 2 * r = D := by
      rw [← Nat.mul_assoc]; exact Nat.mul_left_inj (Nat.succ_ne_zero k)
    simp only [e1, e2]
  obtain ⟨k, rfl⟩ := Nat.exists_eq_succ_of_ne_zero (Nat.pos_iff_ne_zero.1 h)
  obtain ⟨k', rfl⟩ := Nat.exists_eq_succ_of_ne_zero (Nat.pos_iff_ne_zero.1 h')
  rw [← key num k.succ k', ← key num' k'.succ k, he, Nat.mul_comm k.succ k'.succ]

/-- Rounding keeps the order. -/
theorem roundMagFree_mono {num den num' den' : Nat} (h : 0 < den) (h' : 0 < den') (hle : num * den' ≤ num' * den) :
    roundMagFree num den ≤ roundMagFree num' den' := by
  by_contra hlt
  rw [Nat.not_le] at hlt
  have hu := unitsOfMag_lt_iff.2 hlt
  have n1 := roundMagFree_nearest num (roundMagFree num' den') h
  have n2 := roundMagFree_nearest num' (roundMagFree num den) h'
  generalize hU1 : unitsOfMag (roundMagFree num den) = u1 at *
  generalize hU2 : unitsOfMag (roundMagFree num' den') = u2 at *
  push_cast at n1 n2
  have hle' : (num : Int) * den' ≤ num' * den := by exact_mod_cast hle
  have hu' : (u2 : Int) < u1 := by exact_mod_cast hu
  have hd : (0 : Int) < den := by exact_mod_cast h
  have hd' : (0 : Int) < den' := by exact_mod_cast h'
  -- both ratios lie at or beyond the midpoint of the two magnitudes, so they are equal
  have midpoint : ∀ A B n : Int, B < A → (|A - n| ≤ |B - n| → A + B ≤ 2 * n) ∧ (|B - n| ≤ |A - n| → 2 * n ≤ A + B) := by
    intro A B n hAB
    rcases abs_cases (A - n) with ⟨h1, g1⟩ | ⟨h1, g1⟩ <;> rcases abs_cases (B - n) with ⟨h2, g2⟩ | ⟨h2, g2⟩ <;>
      constructor <;> intro h <;> omega
  have m1 := (midpoint _ _ _ (mul_lt_mul_of_pos_right hu' hd)).1 n1
  have m2 := (midpoint _ _ _ (mul_lt_mul_of_pos_right hu' hd')).2 n2
  have heq : (num : Int) * den' = num' * den := by
    have a1 := mul_le_mul_of_nonneg_right m1 hd'.le
    have a2 := mul_le_mul_of_nonneg_right m2 hd.le
    linarith
  have := roundMagFree_congr h h' (by exact_mod_cast heq)
  omega

theorem roundMag_mono {num den num' den' : Nat} (h : 0 < den) (h' : 0 < den') (hle : num * den' ≤ num' * den) :
    roundMag num den ≤ roundMag num' den' := by
  have := roundMagFree_mono h h' hle
  simp only [roundMag_eq]
  omega

/-- Rounding is exact on what binary32 represents. -/
theorem roundMagFree_unitsOfMag (m : Nat) {den : Nat} (h : 0 < den) : roundMagFree (unitsOfMag m * den) den = m := by
  have hn := roundMagFree_nearest (unitsOfMag m * den) m h
  rw [sub_self, abs_zero] at hn
  have h0 := abs_nonpos_iff.1 hn
  have h1 : unitsOfMag (roundMagFree (unitsOfMag m * den) den) * den = unitsOfMag m * den := by omega
  exact unitsOfMag_inj.1 (Nat.eq_of_mul_eq_mul_right h h1)

theorem roundMag_unitsOfMag {m den : Nat} (h : 0 < den) (hm : m ≤ infMag) : roundMag (unitsOfMag m * den) den = m := by
  rw [roundMag_eq, roundMagFree_unitsOfMag m h]; omega

/-- A ratio of at most the units of `m` rounds to at most `m`. -/
theorem roundMag_le_of_le {num den m : Nat} (h : 0 < den) (hle : num ≤ unitsOfMag m * den) : roundMag num den ≤ m := by
  have := roundMagFree_mono h h (num' := unitsOfMag m * den) (Nat.mul_le_mul_right den hle)
  rw [roundMagFree_unitsOfMag m h] at this
  rw [roundMag_eq]; omega

@[simp] theorem roundMag_zero {den : Nat} (h : 0 < den) : roundMag 0 den = 0 :=
  Nat.le_zero.1 (roundMag_le_of_le h (by simp))

@[simp] theorem magBits_roundUnits (neg : Bool) (num den : Nat) : magBits (roundUnits neg num den) = roundMag num den :=
  magBits_withSign (roundMag_lt num den)

@[simp] theorem signBit_roundUnits (neg : Bool) (num den : Nat) : signBit (roundUnits neg num den) = neg :=
  signBit_withSign (roundMag_lt num den)

@[simp] theorem isNaN32_roundUnits (neg : Bool) (num den : Nat) : isNaN32 (roundUnits neg num den) = false := by
  have := roundMag_le num den
  simp [isNaN32, this]

/-! ## Kinds of words -/

theorem isFinite32_iff {w : Word} : isFinite32 w = true ↔ magBits w < infMag := by simp [isFinite32]

theorem isNaN32_iff {w : Word} : isNaN32 w = true ↔ infMag < magBits w := by simp [isNaN32]

theorem isInf32_iff {w : Word} : isInf32 w = true ↔ magBits w = infMag := by simp [isInf32]

theorem isZero32_iff {w : Word} : isZero32 w = true ↔ magBits w = 0 := by simp [isZero32]

theorem isNaN32_of_finite {w : Word} (h : isFinite32 w = true) : isNaN32 w = false := by
  have := isFinite32_iff.1 h
  simp [isNaN32]
  omega

theorem isInf32_of_finite {w : Word} (h : isFinite32 w = true) : isInf32 w = false := by
  have := isFinite32_iff.1 h
  simp [isInf32]
  omega

theorem isNaN32_of_inf {w : Word} (h : isInf32 w = true) : isNaN32 w = false := by
  rw [isInf32_iff] at h
  simp [isNaN32, h]

/-- A value that is not finite is a NaN or an infinity. -/
theorem nan_or_inf {w : Word} (h : isFinite32 w = false) : isNaN32 w = true ∨ isInf32 w = true := by
  rw [isNaN32_iff, isInf32_iff]
  have : ¬magBits w < infMag := by rw [← isFinite32_iff, h]; decide
  omega

/-! ## Values in units -/

theorem units_withSign {n : Bool} {m : Nat} (h : m < 2 ^ 31) :
    units (withSign n m) = if n then -(unitsOfMag m : Int) else unitsOfMag m := by
  unfold units unitsMag
  rw [signBit_withSign h, magBits_withSign h]

theorem units_roundUnits (n : Bool) (num den : Nat) : units (roundUnits n num den) =
    if n then -(unitsOfMag (roundMag num den) : Int) else unitsOfMag (roundMag num den) :=
  units_withSign (roundMag_lt num den)

theorem unitsMag_pos {w : Word} (h : isZero32 w = false) : 0 < unitsMag w := by
  have hz : magBits w ≠ 0 := fun h' => by rw [isZero32_iff.2 h'] at h; cases h
  have := unitsOfMag_lt_iff (m := 0) (m' := magBits w)
  rw [unitsOfMag_zero] at this
  unfold unitsMag
  omega

/-- The order of the words is the order of their values. -/
theorem units_lt_iff (a b : Word) : units a < units b ↔ orderKey a < orderKey b := by
  unfold units orderKey unitsMag
  have h1 := unitsOfMag_lt_iff (m := magBits a) (m' := magBits b)
  have h2 := unitsOfMag_lt_iff (m := magBits b) (m' := magBits a)
  have h3 := unitsOfMag_lt_iff (m := 0) (m' := magBits a)
  have h4 := unitsOfMag_lt_iff (m := 0) (m' := magBits b)
  rw [unitsOfMag_zero] at h3 h4
  split <;> split <;> omega

/-- Negation of a finite value is exact. -/
theorem neg32_finite {w : Word} (h : isFinite32 w = true) :
    isFinite32 (neg32 w) = true ∧ units (neg32 w) = -units w := by
  have hm := magBits_lt w
  unfold neg32
  rw [isNaN32_of_finite h]
  simp only [Bool.false_eq_true, if_false]
  constructor
  · rw [isFinite32_iff, magBits_withSign hm]; exact isFinite32_iff.1 h
  · rw [units_withSign hm]; unfold units unitsMag; cases signBit w <;> simp

/-- The remainder of two magnitudes is a magnitude: `fmod32` is exact. -/
theorem unitsOfMag_mod (x y : Nat) (hy : 0 < unitsOfMag y) : ∃ m ≤ x, unitsOfMag m = unitsOfMag x % unitsOfMag y := by
  rcases Nat.lt_or_ge (unitsOfMag x) (unitsOfMag y) with h | h
  · exact ⟨x, Nat.le_refl _, (Nat.mod_eq_of_lt h).symm⟩
  have hr := Nat.mod_lt (unitsOfMag x) hy
  generalize hR : unitsOfMag x % unitsOfMag y = r at *
  suffices hs : ∃ m, unitsOfMag m = r by
    obtain ⟨m, hm⟩ := hs
    exact ⟨m, by rw [← unitsOfMag_le_iff]; omega, hm⟩
  rcases Nat.lt_or_ge y (2 ^ 24) with hy' | hy'
  · exact ⟨r, unitsOfMag_of_le (by rw [unitsOfMag_of_le (by omega)] at hr; omega)⟩
  · have h1 : y = (y / 2 ^ 23 - 1) * 2 ^ 23 + (y % 2 ^ 23 + 2 ^ 23) := by omega
    generalize y / 2 ^ 23 - 1 = e at h1
    have hyu : unitsOfMag y = (y % 2 ^ 23 + 2 ^ 23) * 2 ^ e := by
      rw [h1, unitsOfMag_normal (by omega) (by omega), ← h1]
    have hdx : 2 ^ e ∣ unitsOfMag x := two_pow_dvd_unitsOfMag (by
      rw [pow_add]
      exact Nat.le_trans (hyu ▸ Nat.mul_le_mul_right _ (by omega)) h)
    have hdy : 2 ^ e ∣ unitsOfMag y := by rw [hyu]; exact Dvd.intro_left _ rfl
    have hdr : 2 ^ e ∣ r := by rw [← hR]; exact (Nat.dvd_mod_iff hdy).2 hdx
    obtain ⟨k, rfl⟩ := hdr
    have hk : k < 2 ^ 24 := by
      rw [hyu, Nat.mul_comm] at hr
      have := Nat.lt_of_mul_lt_mul_right hr
      omega
    clear hR hr h hy hyu h1 hy' hdx hdy
    induction e generalizing k with
    | zero => exact ⟨k, by simpa using unitsOfMag_of_le (by omega)⟩
    | succ e ih =>
      by_cases hk2 : k < 2 ^ 23
      · obtain ⟨m, hm⟩ := ih (2 * k) (by omega)
        exact ⟨m, by rw [hm, pow_succ]; ring⟩
      · exact ⟨(e + 1) * 2 ^ 23 + k, by rw [unitsOfMag_normal (by omega) (by omega), Nat.mul_comm]⟩

/-! ## Overflow and ties -/

theorem unitsOfMag_infMag : unitsOfMag infMag = 2 ^ 25 * 2 ^ 252 := by decide +kernel

theorem unitsOfMag_maxFinite : unitsOfMag (infMag - 1) = (2 ^ 25 - 2) * 2 ^ 252 := by decide +kernel

/-- Rounding overflows from the midpoint between the largest finite magnitude and 2^128 on. -/
theorem roundMag_eq_infMag_iff (num : Nat) {den : Nat} (h : 0 < den) :
    roundMag num den = infMag ↔ (2 ^ 25 - 1) * 2 ^ 252 * den ≤ num := by
  have key : roundMagFree ((2 ^ 25 - 1) * 2 ^ 252) 1 = infMag := by decide +kernel
  suffices hs : infMag ≤ roundMagFree num den ↔ (2 ^ 25 - 1) * 2 ^ 252 * den ≤ num by
    rw [← hs, roundMag_eq]; omega
  constructor
  · intro hi
    by_contra hlt
    rw [Nat.not_le] at hlt
    have n1 := roundMagFree_nearest num (infMag - 1) h
    rw [unitsOfMag_maxFinite] at n1
    have hu : unitsOfMag infMag ≤ unitsOfMag (roundMagFree num den) := unitsOfMag_le_iff.2 hi
    rw [unitsOfMag_infMag] at hu
    generalize unitsOfMag (roundMagFree num den) = U at *
    generalize 2 ^ 252 = E at *
    have hmul : 2 ^ 25 * E * den ≤ U * den := Nat.mul_le_mul_right _ hu
    rw [Nat.mul_assoc] at hmul hlt n1
    generalize U * den = A at *
    generalize E * den = B at *
    rw [abs_of_nonneg (by omega)] at n1
    have : |(((2 ^ 25 - 2) * B : Nat) : Int) - num| < 2 ^ 25 * B - num := by
      rw [abs_lt]; constructor <;> push_cast <;> omega
    omega
  · intro hle
    rw [← key]
    exact roundMagFree_mono (by decide) h (by simpa using hle)

/-- A second integer at the same distance from the quotient makes the rounded one even. -/
theorem divNearestEven_even (num k : Nat) {den : Nat} (h : 0 < den) (hk : k ≠ divNearestEven num den)
    (ht : |((divNearestEven num den * den : Nat) : Int) - num| = |((k * den : Nat) : Int) - num|) :
    divNearestEven num den % 2 = 0 := by
  apply divNearestEven_tie h
  obtain ⟨h1, h2⟩ := divNearestEven_error num h
  generalize divNearestEven num den = q at *
  rcases Nat.lt_or_gt_of_ne hk with hk | hk
  · have : (k + 1) * den ≤ q * den := Nat.mul_le_mul_right _ hk
    rw [Nat.add_mul] at this
    rcases abs_eq_abs.1 ht with h | h <;> omega
  · have : (q + 1) * den ≤ k * den := Nat.mul_le_mul_right _ hk
    rw [Nat.add_mul] at this
    rcases abs_eq_abs.1 ht with h | h <;> omega

/-- A second magnitude at the same distance from the ratio makes the rounded one even. -/
theorem roundMagFree_even (num m : Nat) {den : Nat} (h : 0 < den) (hm : m ≠ roundMagFree num den)
    (ht : |((unitsOfMag (roundMagFree num den) * den : Nat) : Int) - num| = |((unitsOfMag m * den : Nat) : Int) - num|) :
    roundMagFree num den % 2 = 0 := by
  have hne : unitsOfMag m ≠ unitsOfMag (roundMagFree num den) := fun he => hm (unitsOfMag_inj.1 he)
  rw [unitsOfMag_roundMagFree num den] at ht hne
  suffices hq : divNearestEven num (den * 2 ^ lastPlace (num / den)) % 2 = 0 by unfold roundMagFree; omega
  obtain ⟨-, hcase⟩ := round_significand num den
  generalize lastPlace (num / den) = e at *
  have hD : 0 < den * 2 ^ e := Nat.mul_pos h (by positivity)
  have hre : ∀ k : Nat, k * (den * 2 ^ e) = k * 2 ^ e * den := fun k => by ring
  have htie := fun k => divNearestEven_even num k hD
  have hnear := fun k => divNearestEven_nearest num k hD
  simp only [hre] at htie hnear
  by_cases hm : 2 ^ (23 + e) ≤ unitsOfMag m
  · obtain ⟨k, hk⟩ := two_pow_dvd_unitsOfMag hm
    rw [hk, Nat.mul_comm (2 ^ e) k] at ht hne
    exact htie k (fun hc => hne (by rw [hc])) ht
  · rcases hcase with rfl | ⟨h23, -⟩
    · exact htie (unitsOfMag m) (by simpa using hne) (by simpa using ht)
    · exfalso
      have hn := hnear (2 ^ 23)
      have hle : 2 ^ 23 * (den * 2 ^ e) ≤ num := by
        rw [Nat.le_div_iff_mul_le hD] at h23; exact h23
      rw [hre] at hle
      have hlt : unitsOfMag m * den < 2 ^ 23 * 2 ^ e * den := by
        rw [← pow_add]; exact Nat.mul_lt_mul_of_pos_right (by omega) h
      rw [ht, abs_of_nonpos (by omega), abs_of_nonpos (by omega)] at hn
      omega

/-! ## Scaling by a power of two -/

/-- Adding `p` to the exponent of a normal magnitude multiplies it by `2 ^ p`. -/
theorem unitsOfMag_add_exponent {m : Nat} (p : Nat) (h : 2 ^ 23 ≤ m) :
    unitsOfMag (m + p * 2 ^ 23) = unitsOfMag m * 2 ^ p := by
  obtain ⟨e, q, rfl, h1, h2⟩ : ∃ e q, m = e * 2 ^ 23 + q ∧ 2 ^ 23 ≤ q ∧ q ≤ 2 ^ 24 :=
    ⟨m / 2 ^ 23 - 1, m % 2 ^ 23 + 2 ^ 23, by omega, by omega, by omega⟩
  rw [show e * 2 ^ 23 + q + p * 2 ^ 23 = (e + p) * 2 ^ 23 + q by ring, unitsOfMag_normal h1 h2, unitsOfMag_normal h1 h2]
  ring

theorem divNearestEven_mul_right (num den : Nat) {c : Nat} (h : 0 < c) :
    divNearestEven (num * c) (den * c) = divNearestEven num den := by
  unfold divNearestEven
  dsimp only
  rw [Nat.mul_div_mul_right _ _ h, Nat.mul_mod_mul_right]
  have h1 : den * c < 2 * (num % den * c) ↔ den < 2 * (num % den) := by
    rw [← Nat.mul_assoc]; exact Nat.mul_lt_mul_right h
  have h2 : 2 * (num % den * c) = den * c ↔ 2 * (num % den) = den := by
    rw [← Nat.mul_assoc]; exact Nat.mul_left_inj (by omega)
  simp only [h1, h2]

/-- Rounding commutes with a power of two from the smallest normal number on. -/
theorem roundMagFree_mul_two_pow (num p : Nat) {den : Nat} (h : 0 < den) (hn : 2 ^ 23 * den ≤ num) :
    roundMagFree (num * 2 ^ p) den = roundMagFree num den + p * 2 ^ 23 := by
  have hx : 2 ^ 23 ≤ num / den := (Nat.le_div_iff_mul_le h).2 hn
  have hlog : Nat.log2 (num * 2 ^ p / den) = Nat.log2 (num / den) + p := by
    have hx0 : num / den ≠ 0 := by omega
    have h1 := Nat.log2_self_le hx0
    have h2 := Nat.lt_log2_self (n := num / den)
    have hlo : 2 ^ (Nat.log2 (num / den) + p) ≤ num * 2 ^ p / den := by
      rw [Nat.le_div_iff_mul_le h, pow_add]
      calc 2 ^ Nat.log2 (num / den) * 2 ^ p * den = 2 ^ Nat.log2 (num / den) * den * 2 ^ p := by ring
        _ ≤ num / den * den * 2 ^ p := Nat.mul_le_mul_right _ (Nat.mul_le_mul_right _ h1)
        _ ≤ num * 2 ^ p := Nat.mul_le_mul_right _ (Nat.div_mul_le_self _ _)
    have hhi : num * 2 ^ p / den < 2 ^ (Nat.log2 (num / den) + p + 1) := by
      rw [Nat.div_lt_iff_lt_mul h]
      have hlt : num < 2 ^ (Nat.log2 (num / den) + 1) * den := by
        rw [← Nat.div_lt_iff_lt_mul h]; exact h2
      calc num * 2 ^ p < 2 ^ (Nat.log2 (num / den) + 1) * den * 2 ^ p := Nat.mul_lt_mul_of_pos_right hlt (by positivity)
        _ = 2 ^ (Nat.log2 (num / den) + p + 1) * den := by ring
    exact (Nat.log2_eq_iff (by have := Nat.two_pow_pos (Nat.log2 (num / den) + p); omega)).2 ⟨hlo, hhi⟩
  have h23 : 23 ≤ Nat.log2 (num / den) := (Nat.le_log2 (by omega)).2 hx
  unfold roundMagFree lastPlace
  rw [hlog, show Nat.log2 (num / den) + p - 23 = Nat.log2 (num / den) - 23 + p by omega, pow_add, ← Nat.mul_assoc,
    divNearestEven_mul_right _ _ (by positivity)]
  ring

end Sys2Proof.Machine
end

