-- ==== Sys2Proof/Laws/State.lean ====
section
/-! SUPPORT. One lemma per field per named update of the state, each true by rfl, and the shape of ending a command. -/

namespace Sys2Proof.Machine

@[simp] theorem State.withResult_build (s : State) (c : ResultCode) : (s.withResult c).build = s.build := rfl
@[simp] theorem State.withResult_result (s : State) (c : ResultCode) : (s.withResult c).result = c := rfl
@[simp] theorem State.withResult_arg0 (s : State) (c : ResultCode) : (s.withResult c).arg0 = s.arg0 := rfl
@[simp] theorem State.withResult_arg1 (s : State) (c : ResultCode) : (s.withResult c).arg1 = s.arg1 := rfl
@[simp] theorem State.withResult_arg2 (s : State) (c : ResultCode) : (s.withResult c).arg2 = s.arg2 := rfl
@[simp] theorem State.withResult_arg3 (s : State) (c : ResultCode) : (s.withResult c).arg3 = s.arg3 := rfl
@[simp] theorem State.withResult_arg4 (s : State) (c : ResultCode) : (s.withResult c).arg4 = s.arg4 := rfl
@[simp] theorem State.withResult_res0 (s : State) (c : ResultCode) : (s.withResult c).res0 = s.res0 := rfl
@[simp] theorem State.withResult_res1 (s : State) (c : ResultCode) : (s.withResult c).res1 = s.res1 := rfl
@[simp] theorem State.withResult_res2 (s : State) (c : ResultCode) : (s.withResult c).res2 = s.res2 := rfl
@[simp] theorem State.withResult_sg (s : State) (c : ResultCode) : (s.withResult c).sg = s.sg := rfl
@[simp] theorem State.withResult_bq (s : State) (c : ResultCode) : (s.withResult c).bq = s.bq := rfl
@[simp] theorem State.withResult_an (s : State) (c : ResultCode) : (s.withResult c).an = s.an := rfl
@[simp] theorem State.withResult_mem (s : State) (c : ResultCode) : (s.withResult c).mem = s.mem := rfl
@[simp] theorem State.withResult_hostQueue (s : State) (c : ResultCode) : (s.withResult c).hostQueue = s.hostQueue := rfl
@[simp] theorem State.withResult_hostRead (s : State) (c : ResultCode) : (s.withResult c).hostRead = s.hostRead := rfl

@[simp] theorem State.withAnState_build (s : State) (a : AnState) : (s.withAnState a).build = s.build := rfl
@[simp] theorem State.withAnState_result (s : State) (a : AnState) : (s.withAnState a).result = s.result := rfl
@[simp] theorem State.withAnState_arg0 (s : State) (a : AnState) : (s.withAnState a).arg0 = s.arg0 := rfl
@[simp] theorem State.withAnState_arg1 (s : State) (a : AnState) : (s.withAnState a).arg1 = s.arg1 := rfl
@[simp] theorem State.withAnState_arg2 (s : State) (a : AnState) : (s.withAnState a).arg2 = s.arg2 := rfl
@[simp] theorem State.withAnState_arg3 (s : State) (a : AnState) : (s.withAnState a).arg3 = s.arg3 := rfl
@[simp] theorem State.withAnState_arg4 (s : State) (a : AnState) : (s.withAnState a).arg4 = s.arg4 := rfl
@[simp] theorem State.withAnState_res0 (s : State) (a : AnState) : (s.withAnState a).res0 = s.res0 := rfl
@[simp] theorem State.withAnState_res1 (s : State) (a : AnState) : (s.withAnState a).res1 = s.res1 := rfl
@[simp] theorem State.withAnState_res2 (s : State) (a : AnState) : (s.withAnState a).res2 = s.res2 := rfl
@[simp] theorem State.withAnState_sg (s : State) (a : AnState) : (s.withAnState a).sg = s.sg := rfl
@[simp] theorem State.withAnState_bq (s : State) (a : AnState) : (s.withAnState a).bq = s.bq := rfl
@[simp] theorem State.withAnState_an (s : State) (a : AnState) : (s.withAnState a).an = { s.an with state := a } := rfl
@[simp] theorem State.withAnState_mem (s : State) (a : AnState) : (s.withAnState a).mem = s.mem := rfl
@[simp] theorem State.withAnState_hostQueue (s : State) (a : AnState) : (s.withAnState a).hostQueue = s.hostQueue := rfl
@[simp] theorem State.withAnState_hostRead (s : State) (a : AnState) : (s.withAnState a).hostRead = s.hostRead := rfl

@[simp] theorem State.withRes0_build (s : State) (w : Word) : (s.withRes0 w).build = s.build := rfl
@[simp] theorem State.withRes0_result (s : State) (w : Word) : (s.withRes0 w).result = s.result := rfl
@[simp] theorem State.withRes0_arg0 (s : State) (w : Word) : (s.withRes0 w).arg0 = s.arg0 := rfl
@[simp] theorem State.withRes0_arg1 (s : State) (w : Word) : (s.withRes0 w).arg1 = s.arg1 := rfl
@[simp] theorem State.withRes0_arg2 (s : State) (w : Word) : (s.withRes0 w).arg2 = s.arg2 := rfl
@[simp] theorem State.withRes0_arg3 (s : State) (w : Word) : (s.withRes0 w).arg3 = s.arg3 := rfl
@[simp] theorem State.withRes0_arg4 (s : State) (w : Word) : (s.withRes0 w).arg4 = s.arg4 := rfl
@[simp] theorem State.withRes0_res0 (s : State) (w : Word) : (s.withRes0 w).res0 = w := rfl
@[simp] theorem State.withRes0_res1 (s : State) (w : Word) : (s.withRes0 w).res1 = s.res1 := rfl
@[simp] theorem State.withRes0_res2 (s : State) (w : Word) : (s.withRes0 w).res2 = s.res2 := rfl
@[simp] theorem State.withRes0_sg (s : State) (w : Word) : (s.withRes0 w).sg = s.sg := rfl
@[simp] theorem State.withRes0_bq (s : State) (w : Word) : (s.withRes0 w).bq = s.bq := rfl
@[simp] theorem State.withRes0_an (s : State) (w : Word) : (s.withRes0 w).an = s.an := rfl
@[simp] theorem State.withRes0_mem (s : State) (w : Word) : (s.withRes0 w).mem = s.mem := rfl
@[simp] theorem State.withRes0_hostQueue (s : State) (w : Word) : (s.withRes0 w).hostQueue = s.hostQueue := rfl
@[simp] theorem State.withRes0_hostRead (s : State) (w : Word) : (s.withRes0 w).hostRead = s.hostRead := rfl

@[simp] theorem State.withRes1_build (s : State) (w : Word) : (s.withRes1 w).build = s.build := rfl
@[simp] theorem State.withRes1_result (s : State) (w : Word) : (s.withRes1 w).result = s.result := rfl
@[simp] theorem State.withRes1_arg0 (s : State) (w : Word) : (s.withRes1 w).arg0 = s.arg0 := rfl
@[simp] theorem State.withRes1_arg1 (s : State) (w : Word) : (s.withRes1 w).arg1 = s.arg1 := rfl
@[simp] theorem State.withRes1_arg2 (s : State) (w : Word) : (s.withRes1 w).arg2 = s.arg2 := rfl
@[simp] theorem State.withRes1_arg3 (s : State) (w : Word) : (s.withRes1 w).arg3 = s.arg3 := rfl
@[simp] theorem State.withRes1_arg4 (s : State) (w : Word) : (s.withRes1 w).arg4 = s.arg4 := rfl
@[simp] theorem State.withRes1_res0 (s : State) (w : Word) : (s.withRes1 w).res0 = s.res0 := rfl
@[simp] theorem State.withRes1_res1 (s : State) (w : Word) : (s.withRes1 w).res1 = w := rfl
@[simp] theorem State.withRes1_res2 (s : State) (w : Word) : (s.withRes1 w).res2 = s.res2 := rfl
@[simp] theorem State.withRes1_sg (s : State) (w : Word) : (s.withRes1 w).sg = s.sg := rfl
@[simp] theorem State.withRes1_bq (s : State) (w : Word) : (s.withRes1 w).bq = s.bq := rfl
@[simp] theorem State.withRes1_an (s : State) (w : Word) : (s.withRes1 w).an = s.an := rfl
@[simp] theorem State.withRes1_mem (s : State) (w : Word) : (s.withRes1 w).mem = s.mem := rfl
@[simp] theorem State.withRes1_hostQueue (s : State) (w : Word) : (s.withRes1 w).hostQueue = s.hostQueue := rfl
@[simp] theorem State.withRes1_hostRead (s : State) (w : Word) : (s.withRes1 w).hostRead = s.hostRead := rfl

@[simp] theorem State.withRes2_build (s : State) (w : Word) : (s.withRes2 w).build = s.build := rfl
@[simp] theorem State.withRes2_result (s : State) (w : Word) : (s.withRes2 w).result = s.result := rfl
@[simp] theorem State.withRes2_arg0 (s : State) (w : Word) : (s.withRes2 w).arg0 = s.arg0 := rfl
@[simp] theorem State.withRes2_arg1 (s : State) (w : Word) : (s.withRes2 w).arg1 = s.arg1 := rfl
@[simp] theorem State.withRes2_arg2 (s : State) (w : Word) : (s.withRes2 w).arg2 = s.arg2 := rfl
@[simp] theorem State.withRes2_arg3 (s : State) (w : Word) : (s.withRes2 w).arg3 = s.arg3 := rfl
@[simp] theorem State.withRes2_arg4 (s : State) (w : Word) : (s.withRes2 w).arg4 = s.arg4 := rfl
@[simp] theorem State.withRes2_res0 (s : State) (w : Word) : (s.withRes2 w).res0 = s.res0 := rfl
@[simp] theorem State.withRes2_res1 (s : State) (w : Word) : (s.withRes2 w).res1 = s.res1 := rfl
@[simp] theorem State.withRes2_res2 (s : State) (w : Word) : (s.withRes2 w).res2 = w := rfl
@[simp] theorem State.withRes2_sg (s : State) (w : Word) : (s.withRes2 w).sg = s.sg := rfl
@[simp] theorem State.withRes2_bq (s : State) (w : Word) : (s.withRes2 w).bq = s.bq := rfl
@[simp] theorem State.withRes2_an (s : State) (w : Word) : (s.withRes2 w).an = s.an := rfl
@[simp] theorem State.withRes2_mem (s : State) (w : Word) : (s.withRes2 w).mem = s.mem := rfl
@[simp] theorem State.withRes2_hostQueue (s : State) (w : Word) : (s.withRes2 w).hostQueue = s.hostQueue := rfl
@[simp] theorem State.withRes2_hostRead (s : State) (w : Word) : (s.withRes2 w).hostRead = s.hostRead := rfl

@[simp] theorem State.withDmem_build (s : State) (d : Dmem) : (s.withDmem d).build = s.build := rfl
@[simp] theorem State.withDmem_result (s : State) (d : Dmem) : (s.withDmem d).result = s.result := rfl
@[simp] theorem State.withDmem_arg0 (s : State) (d : Dmem) : (s.withDmem d).arg0 = s.arg0 := rfl
@[simp] theorem State.withDmem_arg1 (s : State) (d : Dmem) : (s.withDmem d).arg1 = s.arg1 := rfl
@[simp] theorem State.withDmem_arg2 (s : State) (d : Dmem) : (s.withDmem d).arg2 = s.arg2 := rfl
@[simp] theorem State.withDmem_arg3 (s : State) (d : Dmem) : (s.withDmem d).arg3 = s.arg3 := rfl
@[simp] theorem State.withDmem_arg4 (s : State) (d : Dmem) : (s.withDmem d).arg4 = s.arg4 := rfl
@[simp] theorem State.withDmem_res0 (s : State) (d : Dmem) : (s.withDmem d).res0 = s.res0 := rfl
@[simp] theorem State.withDmem_res1 (s : State) (d : Dmem) : (s.withDmem d).res1 = s.res1 := rfl
@[simp] theorem State.withDmem_res2 (s : State) (d : Dmem) : (s.withDmem d).res2 = s.res2 := rfl
@[simp] theorem State.withDmem_sg (s : State) (d : Dmem) : (s.withDmem d).sg = s.sg := rfl
@[simp] theorem State.withDmem_bq (s : State) (d : Dmem) : (s.withDmem d).bq = s.bq := rfl
@[simp] theorem State.withDmem_an (s : State) (d : Dmem) : (s.withDmem d).an = s.an := rfl
@[simp] theorem State.withDmem_mem (s : State) (d : Dmem) : (s.withDmem d).mem = d.cells := rfl
@[simp] theorem State.withDmem_hostQueue (s : State) (d : Dmem) : (s.withDmem d).hostQueue = s.hostQueue := rfl
@[simp] theorem State.withDmem_hostRead (s : State) (d : Dmem) : (s.withDmem d).hostRead = s.hostRead := rfl

@[simp] theorem raise_eq (c : ResultCode) (s : State) : raise c s = s.withResult c := rfl

@[simp] theorem complete_eq (s : State) : complete s = s.withResult .ok := rfl

@[simp] theorem State.dmem_words (s : State) : s.dmem.words = s.build.dmemWords := rfl

@[simp] theorem State.dmem_cells (s : State) : s.dmem.cells = s.mem := rfl

@[simp] theorem State.withResult_withResult (s : State) (c c' : ResultCode) :
    (s.withResult c).withResult c' = s.withResult c' := rfl

@[simp] theorem clearRun_fs (a : Analyzer) : (clearRun a).fs = a.fs := rfl
@[simp] theorem clearRun_bs (a : Analyzer) : (clearRun a).bs = a.bs := rfl
@[simp] theorem clearRun_base (a : Analyzer) : (clearRun a).base = a.base := rfl
@[simp] theorem clearRun_cap (a : Analyzer) : (clearRun a).cap = a.cap := rfl
@[simp] theorem clearRun_len (a : Analyzer) : (clearRun a).len = 0#32 := rfl
@[simp] theorem clearRun_pos (a : Analyzer) : (clearRun a).pos = 0#32 := rfl
@[simp] theorem clearRun_k (a : Analyzer) : (clearRun a).k = 0#32 := rfl
@[simp] theorem clearRun_state (a : Analyzer) : (clearRun a).state = .idle := rfl
@[simp] theorem clearRun_gen (a : Analyzer) : (clearRun a).gen = a.gen := rfl

/-! ## Operands and the region check -/

/-- The region check is the inequality of R62. -/
theorem inRange_iff {words b n : Nat} : inRange words b n = true ↔ b + n ≤ words := by simp [inRange]

theorem inRange_of_le {words b n : Nat} (h : b + n ≤ words) : inRange words b n = true := inRange_iff.2 h

theorem inRange_of_lt {words b n : Nat} (h : words < b + n) : inRange words b n = false := by
  simpa [inRange] using h

/-- The check as the commands test it: it fails exactly on a region that leaves DMEM. -/
theorem not_inRange_iff {words b n : Nat} : (!inRange words b n) = true ↔ ¬b + n ≤ words := by simp [inRange]

@[simp] theorem u32Arg_arg0 (s : State) : u32Arg s .arg0 = s.arg0.toNat := rfl
@[simp] theorem u32Arg_arg1 (s : State) : u32Arg s .arg1 = s.arg1.toNat := rfl
@[simp] theorem u32Arg_arg2 (s : State) : u32Arg s .arg2 = s.arg2.toNat := rfl
@[simp] theorem u32Arg_arg3 (s : State) : u32Arg s .arg3 = s.arg3.toNat := rfl
@[simp] theorem u32Arg_arg4 (s : State) : u32Arg s .arg4 = s.arg4.toNat := rfl
@[simp] theorem f32Arg_arg0 (s : State) : f32Arg s .arg0 = s.arg0 := rfl
@[simp] theorem f32Arg_arg1 (s : State) : f32Arg s .arg1 = s.arg1 := rfl
@[simp] theorem f32Arg_arg2 (s : State) : f32Arg s .arg2 = s.arg2 := rfl
@[simp] theorem f32Arg_arg3 (s : State) : f32Arg s .arg3 = s.arg3 := rfl
@[simp] theorem f32Arg_arg4 (s : State) : f32Arg s .arg4 = s.arg4 := rfl

/-- A result that fits a register is read back from it. -/
theorem u32Word_toNat {n : Nat} (h : n < 2 ^ 32) : (u32Word n).toNat = n := by
  rw [u32Word, BitVec.toNat_ofNat, Nat.mod_eq_of_lt h]

end Sys2Proof.Machine
end

