-- ==== Sys2Proof/Laws/Commands.lean ====
section
/-! SUPPORT. What each command with a loop can answer, from any state: the shape of its next states, and how the DMEM it
leaves relates to the one it found. -/

namespace Sys2Proof.Machine

/-! ## DMEM as every loop leaves it -/

/-- DMEM is in its canonical form, inside DMEM_WORDS, in whole words. -/
abbrev DmemOk (d : Dmem) : Prop :=
  Memory.wf d.cells ∧ ∀ c ∈ d.cells, c.1 < 4 * d.words ∧ (readWord d.cells (c.1 / 4)).isSome = true

/-- What every DMEM operation keeps: the size, the form, and the "written" marks. -/
structure Keeps (d d' : Dmem) : Prop where
  /-- DMEM_WORDS does not change. -/
  words : d'.words = d.words
  /-- The form is kept. -/
  ok : DmemOk d → DmemOk d'
  /-- A written word stays written. -/
  marks : ∀ b, (readWord d.cells b).isSome → (readWord d'.cells b).isSome

theorem Keeps.refl (d : Dmem) : Keeps d d := ⟨rfl, id, fun _ h => h⟩

theorem Keeps.trans {d d' d'' : Dmem} (h : Keeps d d') (h' : Keeps d' d'') : Keeps d d'' :=
  ⟨h'.words.trans h.words, h'.ok ∘ h.ok, fun b hb => h'.marks b (h.marks b hb)⟩

/-- Every address listed after a word write is one of the word's bytes or was listed. -/
theorem mem_writeWord {m : Memory} {a : Nat} {w : Word} {c : Host.Cell} (h : c ∈ writeWord m a w) :
    (4 * a ≤ c.1 ∧ c.1 < 4 * a + 4) ∨ c ∈ m := by
  unfold writeWord at h
  rcases mem_writeByte h with rfl | h
  · exact .inl ⟨by omega, by omega⟩
  · rcases mem_writeByte h with rfl | h
    · exact .inl ⟨by omega, by omega⟩
    · rcases mem_writeByte h with rfl | h
      · exact .inl ⟨by omega, by omega⟩
      · rcases mem_writeByte h with rfl | h
        · exact .inl ⟨by omega, by omega⟩
        · exact .inr h

theorem memWrite_keeps {d d' : Dmem} {a : Nat} {w : Word} (h : memWrite d a w = .ok d') : Keeps d d' := by
  have hW := memWrite_writesOnly h
  obtain ⟨ha, rfl⟩ := memWrite_ok_iff.1 h
  refine ⟨rfl, fun hd => ⟨hW.wf hd.1, fun c hc => ?_⟩, hW.marks⟩
  rcases mem_writeWord hc with ⟨h1, h2⟩ | hc
  · have he : c.1 / 4 = a := by omega
    exact ⟨by change c.1 < 4 * d.words; omega, by rw [he]; simp⟩
  · exact ⟨(hd.2 c hc).1, hW.marks _ (hd.2 c hc).2⟩

theorem sgFill_keeps {n a : Nat} {g : SweepGen} {d : Dmem} {r : SgFillResult} (h : sgFill n a g d = .ok r) :
    Keeps d r.dmem := by
  induction n generalizing a g d r with
  | zero => cases h; exact Keeps.refl _
  | succ n ih =>
    simp only [sgFill] at h
    split at h
    · cases h
    · rename_i d1 hd1
      have h1 := memWrite_keeps hd1
      split at h
      · cases h; exact h1
      · split at h
        · cases h
        · rename_i t ht
          cases h
          exact h1.trans (ih (r := t) ht)

theorem bqBlock_keeps {form : BiquadForm} {n a : Nat} {b : Biquad} {d : Dmem} {r : Biquad × Dmem}
    (h : bqBlock form n a b d = .ok r) : Keeps d r.2 := by
  induction n generalizing a b d with
  | zero => cases h; exact Keeps.refl _
  | succ n ih =>
    simp only [bqBlock] at h
    split at h
    · cases h
    · split at h
      · cases h
      · rename_i d1 hd1
        exact (memWrite_keeps hd1).trans (ih h)

theorem copyWords_keeps {n src dst : Nat} {d d' : Dmem} (h : copyWords n src dst d = .ok d') : Keeps d d' := by
  induction n generalizing src dst d with
  | zero => cases h; exact Keeps.refl _
  | succ n ih =>
    simp only [copyWords] at h
    split at h
    · cases h
    · split at h
      · cases h
      · rename_i d1 hd1
        exact (memWrite_keeps hd1).trans (ih h)

theorem bqChunks_keeps {form : BiquadForm} {bs fuel rest a : Nat} {b : Biquad} {d : Dmem} {r : Biquad × Dmem}
    (h : bqChunks form bs fuel rest a b d = .ok r) : Keeps d r.2 := by
  induction fuel generalizing rest a b d with
  | zero =>
    simp only [bqChunks] at h
    split at h
    · cases h; exact Keeps.refl _
    · cases h
  | succ fuel ih =>
    simp only [bqChunks] at h
    split at h
    · cases h; exact Keeps.refl _
    · split at h
      · cases h
      · rename_i r1 hr1
        exact (bqBlock_keeps hr1).trans (ih h)

theorem writeBins_keeps {bins : List (Word × Word)} {mag ph : Nat} {d d' : Dmem}
    (h : writeBins bins mag ph d = .ok d') : Keeps d d' := by
  induction bins generalizing mag ph d with
  | nil => cases h; exact Keeps.refl _
  | cons bin bins ih =>
    simp only [writeBins] at h
    split at h
    · cases h
    · rename_i d1 hd1
      split at h
      · cases h
      · rename_i d2 hd2
        exact (memWrite_keeps hd1).trans ((memWrite_keeps hd2).trans (ih h))

theorem writeSpectra_keeps {a : Analyzer} {n : Nat} {d d' : Dmem} (h : writeSpectra a n d = .ok d') : Keeps d d' := by
  unfold writeSpectra at h
  split at h
  · cases h
  · split at h
    · cases h
    · exact writeBins_keeps h

/-! ## The only fault of a loop whose region exists: a word nothing has written (R74) -/

theorem memRead_error {d : Dmem} {a : Nat} {f : Fault} (ha : a < d.words) (h : memRead d a = .error f) :
    f = .unwrittenWord a ∧ readWord d.cells a = none := by
  unfold memRead at h
  rw [if_pos ha] at h
  cases hr : readWord d.cells a with
  | some w => rw [hr] at h; cases h
  | none => rw [hr] at h; cases h; exact ⟨rfl, rfl⟩

theorem readWords_error {d : Dmem} {n a : Nat} {f : Fault} (ha : a + n ≤ d.words) (h : readWords d n a = .error f) :
    ∃ b, a ≤ b ∧ b < a + n ∧ f = .unwrittenWord b ∧ readWord d.cells b = none := by
  induction n generalizing a with
  | zero => cases h
  | succ n ih =>
    simp only [readWords] at h
    split at h
    · rename_i g hg
      cases h
      exact ⟨a, by omega, by omega, memRead_error (by omega) hg⟩
    · split at h
      · rename_i g hg
        cases h
        obtain ⟨b, h1, h2, h3⟩ := ih (by omega) hg
        exact ⟨b, by omega, by omega, h3⟩
      · cases h

theorem bqBlock_error {form : BiquadForm} {n a : Nat} {b : Biquad} {d : Dmem} {f : Fault} (ha : a + n ≤ d.words)
    (h : bqBlock form n a b d = .error f) :
    ∃ c, a ≤ c ∧ c < a + n ∧ f = .unwrittenWord c ∧ readWord d.cells c = none := by
  induction n generalizing a b d with
  | zero => cases h
  | succ n ih =>
    simp only [bqBlock] at h
    split at h
    · rename_i g hg
      cases h
      exact ⟨a, by omega, by omega, memRead_error (by omega) hg⟩
    · rw [memWrite_ok _ (by omega)] at h
      obtain ⟨c, h1, h2, h3, h4⟩ := ih (by change _ ≤ d.words; omega) h
      exact ⟨c, by omega, by omega, h3, by rwa [readWord_writeWord_ne _ _ (by omega)] at h4⟩

theorem writeSpectra_error {a : Analyzer} {n : Nat} {d : Dmem} {f : Fault} (hfit : buffersFit a d.words)
    (hn : n ≤ a.cap.toNat) (h : writeSpectra a n d = .error f) :
    ∃ c, ((inBase a ≤ c ∧ c < inBase a + n) ∨ (outBase a ≤ c ∧ c < outBase a + n)) ∧ f = .unwrittenWord c ∧
      readWord d.cells c = none := by
  have hfit' := hfit
  simp only [buffersFit, runWords] at hfit'
  cases hi : readWords d n (inBase a) with
  | error g =>
    obtain ⟨c, h1, h2, h3⟩ := readWords_error (by unfold inBase; omega) hi
    simp only [writeSpectra, hi] at h
    cases h
    exact ⟨c, .inl ⟨h1, h2⟩, h3⟩
  | ok vin =>
    cases ho : readWords d n (outBase a) with
    | error g =>
      obtain ⟨c, h1, h2, h3⟩ := readWords_error (by unfold outBase; omega) ho
      simp only [writeSpectra, hi, ho] at h
      cases h
      exact ⟨c, .inr ⟨h1, h2⟩, h3⟩
    | ok vout =>
      obtain ⟨hli, hHi⟩ := readWords_iff_holdsWords.1 hi
      obtain ⟨hlo, hHo⟩ := readWords_iff_holdsWords.1 ho
      obtain ⟨d', hd', -⟩ := writeSpectra_spec hfit hn hli hlo hHi hHo
      rw [hd'] at h
      cases h

/-! ## The answers of the commands -/

/-- What the seeding of a run leaves, from any state: a cleared run, L when the sweep fits, and a DMEM the loops reached. -/
theorem seedRun_ok {s : State} {r : SeedResult} (h : seedRun s = .ok r) :
    ∃ g d, Keeps s.dmem d ∧
      r.state =
        { s with
          an := { clearRun s.an with len := if r.fits then u32Word r.len else 0#32, gen := g }
          mem := d.cells } := by
  unfold seedRun generate at h
  split at h
  · cases h
  · rename_i f hf
    have h1 := sgFill_keeps hf
    dsimp only at h
    split at h
    · cases h; exact ⟨_, _, h1, rfl⟩
    · split at h
      · cases h
      · rename_i d hd
        cases h
        exact ⟨_, _, h1.trans (copyWords_keeps hd), rfl⟩

/-- SG_PROCESS answers RANGE, NOT_STARTED, or the generator and DMEM its loop left. -/
theorem execSgProcess_next {n : Nat} {s t : State} (h : execSgProcess n s = .next t) :
    (¬u32Arg s .arg0 + n ≤ s.build.dmemWords ∧ t = s.withResult .range) ∨
      (u32Arg s .arg0 + n ≤ s.build.dmemWords ∧ s.sg.started = false ∧ t = s.withResult .notStarted) ∨
        (u32Arg s .arg0 + n ≤ s.build.dmemWords ∧ s.sg.started = true ∧
          ∃ r, sgFill n (u32Arg s .arg0) s.sg s.dmem = .ok r ∧
            t = { s with
                  sg := r.gen
                  mem := r.dmem.cells
                  res0 := u32Word r.count
                  result := if r.exhausted then .maxFreqReached else .ok }) := by
  unfold execSgProcess at h
  split at h
  · rename_i hr
    cases h
    exact .inl ⟨not_inRange_iff.1 hr, rfl⟩
  · rename_i hr
    have hr' : u32Arg s .arg0 + n ≤ s.build.dmemWords := not_not.1 (mt not_inRange_iff.2 hr)
    split at h
    · rename_i hs
      cases h
      exact .inr (.inl ⟨hr', by simpa using hs, rfl⟩)
    · rename_i hs
      split at h
      · cases h
      · rename_i r hf
        cases h
        exact .inr (.inr ⟨hr', by simpa using hs, r, hf, rfl⟩)

/-- BQ_PROCESS_BLOCK answers RANGE, or the filter and DMEM its loop left. -/
theorem execBqProcessBlock_next {n : Nat} {s t : State} (h : execBqProcessBlock n s = .next t) :
    (¬u32Arg s .arg0 + n ≤ s.build.dmemWords ∧ t = s.withResult .range) ∨
      (u32Arg s .arg0 + n ≤ s.build.dmemWords ∧
        ∃ r, bqBlock s.build.form n (u32Arg s .arg0) s.bq s.dmem = .ok r ∧
          t = { s with bq := r.1, mem := r.2.cells, result := .ok }) := by
  unfold execBqProcessBlock at h
  split at h
  · rename_i hr
    cases h
    exact .inl ⟨not_inRange_iff.1 hr, rfl⟩
  · rename_i hr
    split at h
    · cases h
    · rename_i r hb
      cases h
      exact .inr ⟨not_not.1 (mt not_inRange_iff.2 hr), r, hb, rfl⟩

/-- AN_CONFIG answers CONFIG, RANGE, or the configuration of its operands with the run cleared. -/
theorem execAnConfig_next {s t : State} (h : execAnConfig s = .next t) :
    ((u32Arg s .arg1 = 0 ∨ u32Arg s .arg3 = 0) ∧ t = s.withResult .config) ∨
      (u32Arg s .arg1 ≠ 0 ∧ u32Arg s .arg3 ≠ 0 ∧ ¬u32Arg s .arg2 + runWords (u32Arg s .arg3) ≤ s.build.dmemWords ∧
        t = s.withResult .range) ∨
        (u32Arg s .arg1 ≠ 0 ∧ u32Arg s .arg3 ≠ 0 ∧ u32Arg s .arg2 + runWords (u32Arg s .arg3) ≤ s.build.dmemWords ∧
          t = { s with
                an := { clearRun s.an with fs := s.arg0, bs := s.arg1, base := s.arg2, cap := s.arg3 }
                result := .ok }) := by
  unfold execAnConfig at h
  split at h
  · rename_i h0
    cases h
    exact .inl ⟨h0, rfl⟩
  · rename_i h0
    obtain ⟨h1, h3⟩ := not_or.1 h0
    split at h
    · rename_i hr
      cases h
      exact .inr (.inl ⟨h1, h3, not_inRange_iff.1 hr, rfl⟩)
    · rename_i hr
      cases h
      exact .inr (.inr ⟨h1, h3, not_not.1 (mt not_inRange_iff.2 hr), rfl⟩)

/-- AN_BEGIN answers CONFIG, CAPACITY with the run cleared, or a run in CHUNKS. -/
theorem execAnBegin_next {s t : State} (h : execAnBegin s = .next t) :
    (s.an.cap.toNat = 0 ∧ t = s.withResult .config) ∨
      (s.an.cap.toNat ≠ 0 ∧ ∃ r, seedRun s = .ok r ∧
        ((r.fits = false ∧ t = { r.state with res0 := r.state.an.cap, result := .capacity }) ∨
          (r.fits = true ∧
            t = { r.state with
                  an := { r.state.an with state := .chunks }
                  res0 := u32Word r.len
                  result := .ok }))) := by
  unfold execAnBegin at h
  split at h
  · rename_i h0
    cases h
    exact .inl ⟨h0, rfl⟩
  · rename_i h0
    split at h
    · cases h
    · rename_i r hr
      split at h
      · rename_i hf
        cases h
        exact .inr ⟨h0, r, hr, .inl ⟨by simpa using hf, rfl⟩⟩
      · rename_i hf
        cases h
        exact .inr ⟨h0, r, hr, .inr ⟨by simpa using hf, rfl⟩⟩

/-- AN_FINISH answers SEQUENCE, or a finished run. -/
theorem execAnFinish_next {s t : State} (h : execAnFinish s = .next t) :
    (s.an.state ≠ .processed ∧ t = s.withResult .sequence) ∨
      (s.an.state = .processed ∧ ∃ d, writeSpectra s.an s.an.len.toNat s.dmem = .ok d ∧
        t = { s with
              an := { s.an with k := u32Word (binCount s.an.len.toNat), state := .done }
              mem := d.cells
              res0 := s.an.len
              res1 := u32Word (binCount s.an.len.toNat)
              result := .ok }) := by
  unfold execAnFinish at h
  split at h
  · rename_i h0
    cases h
    exact .inl ⟨h0, rfl⟩
  · rename_i h0
    split at h
    · cases h
    · rename_i d hd
      cases h
      exact .inr ⟨by simpa using h0, d, hd, rfl⟩

/-- AN_RUN_BQ answers CONFIG, CAPACITY with the run cleared, or a finished run. -/
theorem execAnRunBq_next {s t : State} (h : execAnRunBq s = .next t) :
    (s.an.cap.toNat = 0 ∧ t = s.withResult .config) ∨
      (s.an.cap.toNat ≠ 0 ∧ ∃ r, seedRun s = .ok r ∧
        ((r.fits = false ∧ t = { r.state with res0 := r.state.an.cap, result := .capacity }) ∨
          (r.fits = true ∧ ∃ p d,
            bqChunks s.build.form s.an.bs.toNat r.len r.len (outBase s.an) s.bq r.state.dmem = .ok p ∧
              writeSpectra s.an r.len p.2 = .ok d ∧
              t = { r.state with
                    an :=
                      { r.state.an with
                        pos := u32Word r.len
                        k := u32Word (binCount r.len)
                        state := .done }
                    bq := p.1
                    mem := d.cells
                    res0 := u32Word r.len
                    res1 := u32Word (binCount r.len)
                    result := .ok }))) := by
  unfold execAnRunBq at h
  split at h
  · rename_i h0
    cases h
    exact .inl ⟨h0, rfl⟩
  · rename_i h0
    split at h
    · cases h
    · rename_i r hr
      split at h
      · rename_i hf
        cases h
        exact .inr ⟨h0, r, hr, .inl ⟨by simpa using hf, rfl⟩⟩
      · rename_i hf
        split at h
        · cases h
        · rename_i p hp
          split at h
          · cases h
          · rename_i d hd
            cases h
            exact .inr ⟨h0, r, hr, .inr ⟨by simpa using hf, p, d, hp, hd, rfl⟩⟩

/-- AN_SPECTRUM answers CONFIG, RANGE, or new spectra. -/
theorem execAnSpectrum_next {n : Nat} {s t : State} (h : execAnSpectrum n s = .next t) :
    (s.an.cap.toNat = 0 ∧ t = s.withResult .config) ∨
      (s.an.cap.toNat ≠ 0 ∧ (n = 0 ∨ s.an.cap.toNat < n) ∧ t = s.withResult .range) ∨
        (s.an.cap.toNat ≠ 0 ∧ n ≠ 0 ∧ n ≤ s.an.cap.toNat ∧ ∃ d, writeSpectra s.an n s.dmem = .ok d ∧
          t = { s with
                an := { s.an with k := u32Word (binCount n) }
                mem := d.cells
                res0 := u32Word n
                res1 := u32Word (binCount n)
                result := .ok }) := by
  unfold execAnSpectrum at h
  split at h
  · rename_i h0
    cases h
    exact .inl ⟨h0, rfl⟩
  · rename_i h0
    split at h
    · rename_i hn
      cases h
      exact .inr (.inl ⟨h0, hn, rfl⟩)
    · rename_i hn
      obtain ⟨hn0, hnc⟩ := not_or.1 hn
      split at h
      · cases h
      · rename_i d hd
        cases h
        exact .inr (.inr ⟨h0, hn0, by omega, d, hd, rfl⟩)

/-- A command that gives a next state keeps the build and the host's side. -/
theorem exec_keeps {i : Instr} {s t : State} (h : exec i s = .next t) :
    t.build = s.build ∧ t.hostQueue = s.hostQueue ∧ t.hostRead = s.hostRead ∧ Keeps s.dmem t.dmem := by
  cases i with
  | nop => cases h; exact ⟨rfl, rfl, rfl, Keeps.refl _⟩
  | sysReset => cases h; exact ⟨rfl, rfl, rfl, Keeps.refl _⟩
  | sgInit => cases h; exact ⟨rfl, rfl, rfl, Keeps.refl _⟩
  | sgSetRange => cases h; exact ⟨rfl, rfl, rfl, Keeps.refl _⟩
  | sgSetTime => cases h; exact ⟨rfl, rfl, rfl, Keeps.refl _⟩
  | sgSetGain => cases h; exact ⟨rfl, rfl, rfl, Keeps.refl _⟩
  | sgStart => cases h; exact ⟨rfl, rfl, rfl, Keeps.refl _⟩
  | sgProcess n =>
    obtain ⟨-, rfl⟩ | ⟨-, -, rfl⟩ | ⟨-, -, r, hr, rfl⟩ := execSgProcess_next h
    · exact ⟨rfl, rfl, rfl, Keeps.refl _⟩
    · exact ⟨rfl, rfl, rfl, Keeps.refl _⟩
    · have hk := sgFill_keeps hr
      exact ⟨rfl, rfl, rfl, rfl, fun h => by have := hk.ok h; rwa [DmemOk, hk.words] at this, hk.marks⟩
  | bqReset => cases h; exact ⟨rfl, rfl, rfl, Keeps.refl _⟩
  | bqSetCoefs => cases h; exact ⟨rfl, rfl, rfl, Keeps.refl _⟩
  | bqProcessSample => cases h; exact ⟨rfl, rfl, rfl, Keeps.refl _⟩
  | bqProcessBlock n =>
    obtain ⟨-, rfl⟩ | ⟨-, r, hr, rfl⟩ := execBqProcessBlock_next h
    · exact ⟨rfl, rfl, rfl, Keeps.refl _⟩
    · have hk := bqBlock_keeps hr
      exact ⟨rfl, rfl, rfl, rfl, fun h => by have := hk.ok h; rwa [DmemOk, hk.words] at this, hk.marks⟩
  | anConfig =>
    obtain ⟨-, rfl⟩ | ⟨-, -, -, rfl⟩ | ⟨-, -, -, rfl⟩ := execAnConfig_next h <;>
      exact ⟨rfl, rfl, rfl, Keeps.refl _⟩
  | anBegin =>
    obtain ⟨-, rfl⟩ | ⟨-, r, hr, hcase⟩ := execAnBegin_next h
    · exact ⟨rfl, rfl, rfl, Keeps.refl _⟩
    · obtain ⟨g, d, hk, hst⟩ := seedRun_ok hr
      rw [hst] at hcase
      obtain ⟨-, rfl⟩ | ⟨-, rfl⟩ := hcase <;>
        exact ⟨rfl, rfl, rfl, rfl, fun h => by have := hk.ok h; rwa [DmemOk, hk.words] at this, hk.marks⟩
  | anNext =>
    change execAnNext s = _ at h
    unfold execAnNext at h
    split at h <;> cases h <;> exact ⟨rfl, rfl, rfl, Keeps.refl _⟩
  | anFinish =>
    obtain ⟨-, rfl⟩ | ⟨-, d, hd, rfl⟩ := execAnFinish_next h
    · exact ⟨rfl, rfl, rfl, Keeps.refl _⟩
    · have hk := writeSpectra_keeps hd
      exact ⟨rfl, rfl, rfl, rfl, fun h => by have := hk.ok h; rwa [DmemOk, hk.words] at this, hk.marks⟩
  | anRunBq =>
    obtain ⟨-, rfl⟩ | ⟨-, r, hr, hcase⟩ := execAnRunBq_next h
    · exact ⟨rfl, rfl, rfl, Keeps.refl _⟩
    · obtain ⟨g, d, hk, hst⟩ := seedRun_ok hr
      have hk1 : Keeps s.dmem r.state.dmem := by
        rw [hst]
        exact ⟨rfl, fun h => by have := hk.ok h; rwa [DmemOk, hk.words] at this, hk.marks⟩
      obtain ⟨-, rfl⟩ | ⟨-, p, e, hp, he, rfl⟩ := hcase
      · exact ⟨by rw [hst], by rw [hst], by rw [hst], hk1⟩
      · have hk2 := hk1.trans ((bqChunks_keeps hp).trans (writeSpectra_keeps he))
        refine ⟨by rw [hst], by rw [hst], by rw [hst], by rw [hst]; rfl, fun h => ?_, hk2.marks⟩
        have := hk2.ok h
        rw [DmemOk, hk2.words] at this
        rw [hst]
        exact this
  | anSpectrum n =>
    obtain ⟨-, rfl⟩ | ⟨-, -, rfl⟩ | ⟨-, -, -, d, hd, rfl⟩ := execAnSpectrum_next h
    · exact ⟨rfl, rfl, rfl, Keeps.refl _⟩
    · exact ⟨rfl, rfl, rfl, Keeps.refl _⟩
    · have hk := writeSpectra_keeps hd
      exact ⟨rfl, rfl, rfl, rfl, fun h => by have := hk.ok h; rwa [DmemOk, hk.words] at this, hk.marks⟩

end Sys2Proof.Machine
end

