-- ==== Sys2Proof/Laws/Numeric.lean ====
section
/-! SUPPORT. What the negation, the scaling and the transform of R23 do: signs and magnitudes, D2 and D4, canonical NaNs,
and the components a NaN enters. -/

namespace Sys2Proof.Machine

/-! ## Negation -/

@[simp] theorem magBits_neg32 (w : Word) : magBits (neg32 w) = magBits w := by
  unfold neg32
  split
  · rfl
  · exact magBits_withSign (magBits_lt w)

theorem signBit_neg32 {w : Word} (h : isNaN32 w = false) : signBit (neg32 w) = !signBit w := by
  unfold neg32
  rw [h, if_neg (by decide)]
  exact signBit_withSign (magBits_lt w)

@[simp] theorem isNaN32_neg32 (w : Word) : isNaN32 (neg32 w) = isNaN32 w := by unfold isNaN32; rw [magBits_neg32]

@[simp] theorem isFinite32_neg32 (w : Word) : isFinite32 (neg32 w) = isFinite32 w := by unfold isFinite32; rw [magBits_neg32]

@[simp] theorem isInf32_neg32 (w : Word) : isInf32 (neg32 w) = isInf32 w := by unfold isInf32; rw [magBits_neg32]

@[simp] theorem isZero32_neg32 (w : Word) : isZero32 (neg32 w) = isZero32 w := by unfold isZero32; rw [magBits_neg32]

@[simp] theorem neg32_qNaN : neg32 qNaN = qNaN := by decide

@[simp] theorem neg32_neg32 (w : Word) : neg32 (neg32 w) = w := by
  cases h : isNaN32 w
  · exact word_ext (by rw [signBit_neg32 (by simpa using h), signBit_neg32 h, Bool.not_not]) (by simp)
  · have hw : neg32 w = w := by unfold neg32; rw [if_pos h]
    rw [hw, hw]

/-! ## Canonical NaNs (R14) -/

/-- A value made canonical is the canonical NaN if it is a NaN at all. -/
theorem canonNaN_canonical (w : Word) (h : isNaN32 (canonNaN w) = true) : canonNaN w = qNaN := by
  unfold canonNaN at h ⊢
  split
  · rfl
  · rename_i hn; rw [if_neg hn] at h; exact absurd h hn

/-- So is its negation. -/
theorem neg32_canonNaN_canonical (w : Word) (h : isNaN32 (neg32 (canonNaN w)) = true) : neg32 (canonNaN w) = qNaN := by
  rw [canonNaN_canonical w (by simpa using h), neg32_qNaN]

/-! ## The transform (R23) -/

theorem leadingSign_neg32 (v : List Word) : leadingSign (v.map neg32) = (leadingSign v).map not := by
  unfold leadingSign
  induction v with
  | nil => rfl
  | cons x v ih =>
    cases h : isNaN32 x
    · simp [List.find?, h, signBit_neg32 h]
    · simp only [List.map_cons, List.find?, isNaN32_neg32, h, Bool.not_true]
      exact ih

/-- D2 for the components D4 does not fix. -/
theorem rdftOddBin_neg32 (v : List Word) (k : Nat) :
    rdftOddBin (v.map neg32) k = (neg32 (rdftOddBin v k).1, neg32 (rdftOddBin v k).2) := by
  have hmm : (v.map neg32).map neg32 = v := by
    rw [List.map_map, show neg32 ∘ neg32 = id from funext neg32_neg32, List.map_id]
  unfold rdftOddBin
  rw [leadingSign_neg32, hmm]
  rcases leadingSign v with _ | _ | _ <;> simp

@[simp] theorem nanEnters_neg32 (enters : Nat → Bool) (v : List Word) :
    nanEnters enters (v.map neg32) = nanEnters enters v := by
  unfold nanEnters
  rw [List.zipIdx_map, List.any_map]
  congr 1
  funext p
  simp

/-- A NaN at a place that enters a component is found. -/
theorem nanEnters_of {enters : Nat → Bool} {v : List Word} {n : Nat} (h : n < v.length) (hn : isNaN32 v[n] = true)
    (he : enters n = true) : nanEnters enters v = true := by
  unfold nanEnters
  rw [List.any_eq_true]
  exact ⟨(v[n], n), by rw [List.mem_zipIdx_iff_getElem?]; simp, by simp [hn, he]⟩

/-- No NaN enters a component of a finite list. -/
theorem nanEnters_of_finite (enters : Nat → Bool) {v : List Word} (h : v.all isFinite32 = true) :
    nanEnters enters v = false := by
  unfold nanEnters
  rw [List.any_eq_false]
  intro p hp
  have hf : isFinite32 p.1 = true := List.all_eq_true.1 h p.1 (List.fst_mem_of_mem_zipIdx hp)
  simp [isNaN32_of_finite hf]

/-- D2 and D4: what the transform of the negated list is, component by component (log 13). -/
theorem rdftBin_neg32 (v : List Word) (k : Nat) :
    rdftBin (v.map neg32) k =
      (neg32 (rdftBin v k).1,
       if v.all isFinite32 && (k == 0 || 2 * k == v.length) then fZero else neg32 (rdftBin v k).2) := by
  have hall : (v.map neg32).all isFinite32 = v.all isFinite32 := by
    rw [List.all_map]; congr 1; funext x; exact isFinite32_neg32 x
  unfold rdftBin
  simp only [hall, rdftOddBin_neg32, List.length_map, nanEnters_neg32]
  refine Prod.ext ?_ ?_
  · dsimp only; split <;> simp
  · dsimp only
    cases hf : v.all isFinite32
    · simp only [Bool.false_and, Bool.false_eq_true, if_false]; split <;> simp
    · rw [nanEnters_of_finite _ hf]; simp only [Bool.true_and, Bool.false_eq_true, if_false]; split <;> rfl

/-- Every NaN component of a transform is the canonical NaN (R14). -/
theorem rdftBin_canonical (v : List Word) (k : Nat) :
    (isNaN32 (rdftBin v k).1 = true → (rdftBin v k).1 = qNaN) ∧
      (isNaN32 (rdftBin v k).2 = true → (rdftBin v k).2 = qNaN) := by
  have hodd : (isNaN32 (rdftOddBin v k).1 = true → (rdftOddBin v k).1 = qNaN) ∧
      (isNaN32 (rdftOddBin v k).2 = true → (rdftOddBin v k).2 = qNaN) := by
    unfold rdftOddBin
    split
    · exact ⟨fun _ => rfl, fun _ => rfl⟩
    · exact ⟨canonNaN_canonical _, canonNaN_canonical _⟩
    · exact ⟨neg32_canonNaN_canonical _, neg32_canonNaN_canonical _⟩
  unfold rdftBin
  dsimp only
  constructor
  · split
    · exact fun _ => rfl
    · exact hodd.1
  · split
    · exact fun _ => rfl
    · split
      · intro h; exact absurd h (by decide)
      · exact hodd.2

/-- A NaN makes NaN every component it enters (R135). -/
theorem rdftBin_nan {v : List Word} {k n : Nat} (h : n < v.length) (hn : isNaN32 v[n] = true) :
    (4 * k * n % (2 * v.length) ≠ v.length → (rdftBin v k).1 = qNaN) ∧
      (2 * k * n % v.length ≠ 0 → (rdftBin v k).2 = qNaN) := by
  unfold rdftBin
  dsimp only
  exact ⟨fun hk => if_pos (nanEnters_of h hn (by simpa [entersRe] using hk)),
    fun hk => if_pos (nanEnters_of h hn (by simpa [entersIm] using hk))⟩

/-- A NaN enters every bin: its two weights are never both zero. -/
theorem rdftBin_nan_or {v : List Word} (k : Nat) (h : ∃ x ∈ v, isNaN32 x = true) :
    (rdftBin v k).1 = qNaN ∨ (rdftBin v k).2 = qNaN := by
  obtain ⟨x, hx, hn⟩ := h
  obtain ⟨n, hl, rfl⟩ := List.mem_iff_getElem.1 hx
  obtain ⟨hre, him⟩ := rdftBin_nan (k := k) hl hn
  by_cases h2 : 2 * k * n % v.length = 0
  · refine .inl (hre ?_)
    obtain ⟨c, hc⟩ := Nat.dvd_of_mod_eq_zero h2
    have h4 : 4 * k * n % (2 * v.length) = 0 :=
      Nat.mod_eq_zero_of_dvd ⟨c, by rw [show 4 * k * n = 2 * (2 * k * n) by ring, hc]; ring⟩
    omega
  · exact .inr (him h2)

/-! ## Scaling (R23, D3) -/

/-- What scaling does to a value it is exact for: a zero stays; else the sign stays and the exponent moves. -/
theorem scale32_spec {j : Int} {w : Word} (h : scalesExactly j w = true) :
    (isZero32 w = true ∧ scale32 j w = w) ∨
      (isNormal32 w = true ∧ isNormal32 (scale32 j w) = true ∧ signBit (scale32 j w) = signBit w ∧
        (magBits (scale32 j w) : Int) = magBits w + j * 2 ^ 23) := by
  unfold scalesExactly at h
  cases hz : isZero32 w
  · right
    rw [hz, Bool.false_or, Bool.and_eq_true, decide_eq_true_iff] at h
    obtain ⟨hn, h1, h2⟩ := h
    have hlt : ((magBits w : Int) + j * 2 ^ 23).toNat < 2 ^ 31 := by unfold infMag at h2; omega
    have he : scale32 j w = withSign (signBit w) ((magBits w : Int) + j * 2 ^ 23).toNat := by
      unfold scale32; rw [hz, if_neg (by decide)]
    have hm : (magBits (scale32 j w) : Int) = magBits w + j * 2 ^ 23 := by rw [he, magBits_withSign hlt]; omega
    refine ⟨hn, ?_, by rw [he, signBit_withSign hlt], hm⟩
    unfold isNormal32
    rw [decide_eq_true_iff]
    omega
  · exact .inl ⟨rfl, by unfold scale32; rw [if_pos hz]⟩

end Sys2Proof.Machine
end

