-- ==== Sys2Proof/Laws/PerInstr.lean ====
section
/-! SUPPORT. A fact about each command as syntax: where its word stands in the opcode map. -/

namespace Sys2Proof.Laws

/-- The UNIT and OP of a command (R83). -/
def opcodeOf : Instr → Nat × Nat
  | .nop => (0, 0)
  | .sysReset => (0, 1)
  | .sgInit => (1, 0)
  | .sgSetRange => (1, 1)
  | .sgSetTime => (1, 2)
  | .sgSetGain => (1, 3)
  | .sgStart => (1, 4)
  | .sgProcess _ => (1, 5)
  | .bqReset => (2, 0)
  | .bqSetCoefs => (2, 1)
  | .bqProcessSample => (2, 2)
  | .bqProcessBlock _ => (2, 3)
  | .anConfig => (3, 0)
  | .anBegin => (3, 1)
  | .anNext => (3, 2)
  | .anFinish => (3, 3)
  | .anRunBq => (3, 4)
  | .anSpectrum _ => (3, 5)

/-- The count of a command, 0 for one that takes none (R76, R79). -/
def countOf : Instr → Nat
  | .nop => 0
  | .sysReset => 0
  | .sgInit => 0
  | .sgSetRange => 0
  | .sgSetTime => 0
  | .sgSetGain => 0
  | .sgStart => 0
  | .sgProcess count => count
  | .bqReset => 0
  | .bqSetCoefs => 0
  | .bqProcessSample => 0
  | .bqProcessBlock count => count
  | .anConfig => 0
  | .anBegin => 0
  | .anNext => 0
  | .anFinish => 0
  | .anRunBq => 0
  | .anSpectrum count => count

/-- The fields of a command word read back from it (R76). -/
theorem commandWord_fields {unit op count : Nat} (hu : unit < 16) (ho : op < 16) (hn : count < 2 ^ 24) :
    unitField (commandWord unit op count) = unit ∧ opField (commandWord unit op count) = op ∧
      countField (commandWord unit op count) = count := by
  unfold unitField opField countField commandWord
  rw [BitVec.toNat_ofNat]
  omega

/-- A word is the command word of its fields (R76). -/
theorem commandWord_of_fields (w : Word) : commandWord (unitField w) (opField w) (countField w) = w := by
  apply BitVec.eq_of_toNat_eq
  have := w.isLt
  unfold unitField opField countField commandWord
  rw [BitVec.toNat_ofNat]
  omega

theorem count_lt {count : Nat} (h : countFits count = true) : count < 2 ^ 24 := of_decide_eq_true h

/-- The fields of a well-formed command's word are the UNIT and OP of its row of the opcode map and its count. -/
def OpcodeMap.Statement (i : Instr) : Prop :=
  i.wellFormed = true →
    (unitField (encode i), opField (encode i)) = opcodeOf i ∧ countField (encode i) = countOf i

theorem OpcodeMap.nop : OpcodeMap.Statement .nop := fun _ => by decide
theorem OpcodeMap.sysReset : OpcodeMap.Statement .sysReset := fun _ => by decide
theorem OpcodeMap.sgInit : OpcodeMap.Statement .sgInit := fun _ => by decide
theorem OpcodeMap.sgSetRange : OpcodeMap.Statement .sgSetRange := fun _ => by decide
theorem OpcodeMap.sgSetTime : OpcodeMap.Statement .sgSetTime := fun _ => by decide
theorem OpcodeMap.sgSetGain : OpcodeMap.Statement .sgSetGain := fun _ => by decide
theorem OpcodeMap.sgStart : OpcodeMap.Statement .sgStart := fun _ => by decide
theorem OpcodeMap.sgProcess (count : Nat) : OpcodeMap.Statement (.sgProcess count) := fun h =>
  have hf := commandWord_fields (unit := 1) (op := 5) (by decide) (by decide) (count_lt h)
  ⟨Prod.ext hf.1 hf.2.1, hf.2.2⟩
theorem OpcodeMap.bqReset : OpcodeMap.Statement .bqReset := fun _ => by decide
theorem OpcodeMap.bqSetCoefs : OpcodeMap.Statement .bqSetCoefs := fun _ => by decide
theorem OpcodeMap.bqProcessSample : OpcodeMap.Statement .bqProcessSample := fun _ => by decide
theorem OpcodeMap.bqProcessBlock (count : Nat) : OpcodeMap.Statement (.bqProcessBlock count) := fun h =>
  have hf := commandWord_fields (unit := 2) (op := 3) (by decide) (by decide) (count_lt h)
  ⟨Prod.ext hf.1 hf.2.1, hf.2.2⟩
theorem OpcodeMap.anConfig : OpcodeMap.Statement .anConfig := fun _ => by decide
theorem OpcodeMap.anBegin : OpcodeMap.Statement .anBegin := fun _ => by decide
theorem OpcodeMap.anNext : OpcodeMap.Statement .anNext := fun _ => by decide
theorem OpcodeMap.anFinish : OpcodeMap.Statement .anFinish := fun _ => by decide
theorem OpcodeMap.anRunBq : OpcodeMap.Statement .anRunBq := fun _ => by decide
theorem OpcodeMap.anSpectrum (count : Nat) : OpcodeMap.Statement (.anSpectrum count) := fun h =>
  have hf := commandWord_fields (unit := 3) (op := 5) (by decide) (by decide) (count_lt h)
  ⟨Prod.ext hf.1 hf.2.1, hf.2.2⟩

end Sys2Proof.Laws
end

