-- ==== Sys2Proof/Laws/Steps.lean ====
section
/-! SUPPORT. What one step can do: it is idle, a hardware reset, a command, or a host access that runs none. -/

namespace Sys2Proof.Machine

/-- A region is written exactly when each of its words is. -/
theorem writtenRegion_iff {m : Memory} {a n : Nat} :
    writtenRegion m a n = true ↔ ∀ i < n, (readWord m (a + i)).isSome = true := by simp [writtenRegion]

/-- A written region holds a list of words. -/
theorem writtenRegion_words {m : Memory} {a n : Nat} (h : writtenRegion m a n = true) :
    ∃ xs : List Word, xs.length = n ∧ ∀ i (hi : i < xs.length), readWord m (a + i) = some xs[i] := by
  refine ⟨(List.range n).map (fun i => (readWord m (a + i)).getD 0#32), by simp, fun i hi => ?_⟩
  obtain ⟨w, hw⟩ := Option.isSome_iff_exists.1 (writtenRegion_iff.1 h i (by simpa using hi))
  simp [hw]

/-- Everything a step that gives a next state can have done. -/
theorem step_next {s t : State} (h : step s = .next t) :
    (s.hostQueue = [] ∧ t = s) ∨
      ∃ e rest, s.hostQueue = e :: rest ∧
        ((e = .reset ∧ t = hardwareReset { s with hostQueue := rest }) ∨
          (e ≠ .reset ∧ ∃ i, exec i { s with hostQueue := rest } = .next t) ∨
          (e ≠ .reset ∧ t.build = s.build ∧ t.sg = s.sg ∧ t.bq = s.bq ∧ t.an = s.an ∧ Keeps s.dmem t.dmem)) := by
  unfold step serveNext at h
  split at h
  · rename_i hq; cases h; exact .inl ⟨hq, rfl⟩
  · rename_i e rest hq
    refine .inr ⟨e, rest, hq, ?_⟩
    cases e with
    | reset => simp only [serveEvent] at h; cases h; exact .inl ⟨rfl, rfl⟩
    | access x =>
      refine .inr ?_
      have quiet : ∀ u : State, u.build = s.build → u.sg = s.sg → u.bq = s.bq → u.an = s.an → u.mem = s.mem →
          (HostEvent.access x ≠ .reset ∧ u.build = s.build ∧ u.sg = s.sg ∧ u.bq = s.bq ∧ u.an = s.an ∧
            Keeps s.dmem u.dmem) := by
        intro u h1 h2 h3 h4 h5
        have : u.dmem = s.dmem := by unfold State.dmem; rw [h1, h5]
        exact ⟨by simp, h1, h2, h3, h4, this ▸ Keeps.refl _⟩
      simp only [serveEvent, serveAccess] at h
      split at h
      · cases h
      · split at h
        · unfold serveReg at h
          split at h
          · cases h; exact .inr (quiet _ rfl rfl rfl rfl rfl)
          · cases h; exact .inr (quiet _ rfl rfl rfl rfl rfl)
          · rename_i w r _ _
            split at h
            · unfold executeWord at h
              split at h
              · cases h; exact .inr (quiet _ rfl rfl rfl rfl rfl)
              · exact .inl ⟨by simp, _, h⟩
            · cases h
              exact .inr (by cases r <;> exact quiet _ rfl rfl rfl rfl rfl)
          · cases h; exact .inr (quiet _ rfl rfl rfl rfl rfl)
        · cases h
      · split at h
        · unfold serveData at h
          split at h
          · split at h
            · cases h
            · cases h; exact .inr (quiet _ rfl rfl rfl rfl rfl)
          · split at h
            · cases h
            · rename_i d hd
              cases h
              have hk := memWrite_keeps hd
              exact .inr ⟨by simp, rfl, rfl, rfl, rfl, rfl,
                fun h => by have := hk.ok h; rwa [DmemOk, hk.words] at this, hk.marks⟩
        · cases h

end Sys2Proof.Machine
end

