-- ==== Sys2Proof/Tests/Slice0.lean ====
section
/-! SUPPORT. The model's own tests. Expected values are the vectors of spec/95_test_vectors.md (V-.., P..) or are read off
the rule a comment names; none is the model's own answer. The last part shows, for every statement with hypotheses, a
concrete state and operands that meet them. -/

namespace Sys2Proof.Tests

open Sys2Proof Sys2Proof.Machine

-- The tests are checked one after another: in parallel each kernel evaluation holds a thread of its own.
set_option Elab.async false

/-! ## Helpers -/

/-- The outcome is a next state. -/
def isNext : Host.Outcome State Fault Refusal → Bool
  | .next _ => true
  | _ => false

/-- The next state of an outcome, or the state after reset where there is none. -/
def after : Host.Outcome State Fault Refusal → State
  | .next t => t
  | _ => State.reset

theorem eq_next_after {o : Host.Outcome State Fault Refusal} (h : isNext o = true) : o = .next (after o) := by
  cases o <;> first | rfl | cases h

/-- The fault of an outcome, if it is one. -/
def faultOf : Host.Outcome State Fault Refusal → Option Fault
  | .fault f => some f
  | _ => none

theorem eq_fault {o : Host.Outcome State Fault Refusal} {f : Fault} (h : faultOf o = some f) : o = .fault f := by
  cases o <;> simp_all [faultOf]

/-- A command on a state: the state it leaves. -/
def run (i : Instr) (s : State) : State := after (exec i s)

/-- V-SG-2's generator: 8.0 Hz sampling, 1.0 to 2.0 Hz, 1 s, started. -/
def sweep8 : State :=
  { State.reset with sg := sgStartGen (sgSetRange 0x3F800000#32 0x40000000#32 (sgInitGen 0x41000000#32)) }

/-- Coefficient set Q1 of the V-BQ vectors, on a cleared state. -/
def q1 : Biquad := { Biquad.reset with a0 := 0x3F000000#32, a1 := 0x3E800000#32, a2 := 0x3E000000#32, b1 := 0xBF000000#32,
                                       b2 := 0x3E800000#32 }

/-- A build of the other realization. -/
def transposedBuild : Build := { Config.resetBuild with form := .transposed }

/-- V-BQ-8's state: an impulse in words 0 to 5 and Q1. -/
def impulse (b : Build) : State :=
  { State.reset with
    build := b
    bq := q1
    mem := [1, 2, 3, 4, 5].foldl (fun m a => writeWord m a 0#32) (writeWord [] 0 0x3F800000#32) }

/-- The operands of `an.config.f fs, bs, base, cap`. -/
def anArgs (fs bs base cap : Word) (s : State) : State := { s with arg0 := fs, arg1 := bs, arg2 := base, arg3 := cap }

/-- V-AN-3's analyzer: 4.0 Hz, blocks of 2, base 0, capacity 8. -/
def an4 : State := run .anConfig (anArgs 0x40800000#32 2#32 0#32 8#32 State.reset)

/-- V-AN-3's run after AN_BEGIN. -/
def begun : State := run .anBegin an4

/-- V-AN-3's run after its three chunks. -/
def processed : State := run .anNext (run .anNext (run .anNext begun))

/-- The host's access to a bus address is the next event. -/
def hostAccess (addr bytes : Nat) (kind : AccessKind) (s : State) : State :=
  { s with hostQueue := [.access ⟨addr, bytes, kind⟩] }

/-! ## Well-formedness: each check refuses an ill-formed command (R79) -/

theorem test_wellFormed_refuses_sgProcess_count : (Instr.sgProcess (2 ^ 24)).wellFormed = false := by decide
theorem test_wellFormed_refuses_bqProcessBlock_count : (Instr.bqProcessBlock (2 ^ 24)).wellFormed = false := by decide
theorem test_wellFormed_refuses_anSpectrum_count : (Instr.anSpectrum (2 ^ 24)).wellFormed = false := by decide
theorem test_wellFormed_accepts_largest_count : (Instr.anSpectrum (2 ^ 24 - 1)).wellFormed = true := by decide

/-! ## Decoding: every command's word, written out from the opcode map (R83; V-ENC) -/

theorem test_decode_ctl : decode 0x00000000#32 = .ok .nop ∧ decode 0x01000000#32 = .ok .sysReset := by decide

theorem test_decode_sg :
    decode 0x10000000#32 = .ok .sgInit ∧ decode 0x11000000#32 = .ok .sgSetRange ∧
      decode 0x12000000#32 = .ok .sgSetTime ∧ decode 0x13000000#32 = .ok .sgSetGain ∧
      decode 0x14000000#32 = .ok .sgStart ∧ decode 0x15000010#32 = .ok (.sgProcess 16) ∧
      decode 0x15FFFFFF#32 = .ok (.sgProcess 16777215) := by decide

theorem test_decode_bq :
    decode 0x20000000#32 = .ok .bqReset ∧ decode 0x21000000#32 = .ok .bqSetCoefs ∧
      decode 0x22000000#32 = .ok .bqProcessSample ∧ decode 0x23000000#32 = .ok (.bqProcessBlock 0) ∧
      decode 0x23000004#32 = .ok (.bqProcessBlock 4) := by decide

theorem test_decode_an :
    decode 0x30000000#32 = .ok .anConfig ∧ decode 0x31000000#32 = .ok .anBegin ∧ decode 0x32000000#32 = .ok .anNext ∧
      decode 0x33000000#32 = .ok .anFinish ∧ decode 0x34000000#32 = .ok .anRunBq ∧
      decode 0x35000000#32 = .ok (.anSpectrum 0) := by decide

theorem test_decode_illegal :
    decode 0x02000000#32 = .error .noCommand ∧ decode 0x00000001#32 = .error .countNotZero ∧
      decode 0x10000005#32 = .error .countNotZero ∧ decode 0x16000000#32 = .error .noCommand ∧
      decode 0x24000000#32 = .error .noCommand ∧ decode 0x36000000#32 = .error .noCommand ∧
      decode 0x40000000#32 = .error .noUnit ∧ decode 0xF0000000#32 = .error .noUnit ∧
      decode 0xFFFFFFFF#32 = .error .noUnit ∧ decode 0x3F000000#32 = .error .noCommand := by decide

theorem test_decodeBytes_takes_one_word :
    decodeBytes [0x10, 0x00, 0x00, 0x15] = .ok (.sgProcess 16) ∧ decodeBytes [0x10, 0x00, 0x00] = .error .notOneWord := by
  decide

/-! ## Arithmetic (R12 to R17, R94) -/

/-- R17: the product of PI32 and RAD2DEG is 180.0; R94's wraps of V-SG-7 (all rows but the one log 23 names). -/
theorem test_wrap_vectors :
    mul32 0x40490FDB#32 0x42652EE1#32 = 0x43340000#32 ∧ wrapPhase 0x40E00000#32 = 0x3F378128#32 ∧
      wrapPhase 0xBF800000#32 = 0x40A90FDB#32 ∧ wrapPhase 0xC0E00000#32 = 0x40B21FB6#32 ∧
      wrapPhase 0x40C90FDB#32 = 0#32 ∧ wrapPhase 0x41490FDB#32 = 0#32 ∧ wrapPhase 0x42C80000#32 = 0x40B8122B#32 ∧
      wrapPhase 0xB22BCC77#32 = 0x40C90FDB#32 ∧ wrapPhase 0x80000000#32 = 0x80000000#32 ∧
      wrapPhase 0x7F800000#32 = 0x7FC00000#32 ∧ wrapPhase 0x7FC00001#32 = 0x7FC00000#32 := by decide +kernel

/-- V-SG-1: the increments at the sample rates of the table. -/
theorem test_increment_vectors :
    fincOf 0x3F800000#32 0x469C4000#32 0x473B8000#32 0x3F800000#32 = 0x3ED5529A#32 ∧
      fincOf 0x3F800000#32 0x469C4000#32 0x472C4400#32 0x3F800000#32 = 0x3EE8301D#32 ∧
      fincOf 0x3F800000#32 0x469C4000#32 0x40800000#32 0x3F800000#32 = 0x459C3E00#32 ∧
      pincOf 0x3F800000#32 0x40800000#32 = 0x3FC90FDB#32 := by decide +kernel

/-- V-BQ-3: outputs of both realizations that differ in the last bits. -/
theorem test_realizations_differ :
    let b : Biquad := { Biquad.reset with a0 := 0x3DCCCCCD#32, a1 := 0x3E4CCCCD#32, a2 := 0x3DCCCCCD#32,
                                          b1 := 0xBF666666#32, b2 := 0x3E99999A#32 }
    let xs := [0x3F800000#32, 0x3E99999A#32, 0xBF333333#32, 0x3F000000#32, 0xBE4CCCCD#32]
    bqOutputs .direct b xs = [0x3DCCCCCD#32, 0x3EA3D70A#32, 0x3EB22D0E#32, 0x3E20F909#32, 0x3D40D6F2#32] ∧
      bqOutputs .transposed b xs = [0x3DCCCCCD#32, 0x3EA3D70A#32, 0x3EB22D0E#32, 0x3E20F909#32, 0x3D40D6F0#32] := by
  decide +kernel

/-- R108, R109, R12 against R118 (log 26): with every intermediate exact the realizations differ in the sign of a zero. -/
theorem test_realizations_zero_sign :
    let b : Biquad := { Biquad.reset with a0 := 0xBF800000#32, a1 := 0xBF800000#32, a2 := 0xBF800000#32 }
    bqOutputs .direct b [0#32] = [0x80000000#32] ∧ bqOutputs .transposed b [0#32] = [0#32] := by decide +kernel

/-- R135: the phase of a ratio of two infinities is +-45 or +-135 degrees by their signs, and its magnitude is +inf. -/
theorem test_infinite_ratios :
    ratioPhase (0x7F800000#32, 0x7F800000#32) = 0x42340000#32 ∧ ratioPhase (0x7F800000#32, 0xFF800000#32) = 0xC2340000#32 ∧
      ratioPhase (0xFF800000#32, 0x7F800000#32) = 0x43070000#32 ∧
      ratioPhase (0xFF800000#32, 0xFF800000#32) = 0xC3070000#32 ∧
      ratioMagnitude (0xFF800000#32, 0x7F800000#32) = 0x7F800000#32 := by decide +kernel

/-- R139: 4 * (1 - 2i) over (1 - 2i) is 4. R135: a NaN in IN makes bin 1 of four samples NaN. -/
theorem test_scaled_and_nan_bins :
    cdiv32 (scale32 2 0x3F800000#32, scale32 2 0xC0000000#32) (0x3F800000#32, 0xC0000000#32) = (0x40800000#32, 0#32) ∧
      (rdftBin [0#32, 0x7F800001#32, 0#32, 0#32] 1).2 = 0x7FC00000#32 ∧
      (rdftBin [0#32, 0x7F800001#32, 0#32, 0#32] 2).1 = 0x7FC00000#32 := by decide +kernel

/-- V-AN-1: the ratios of the three bins, and the phase of the third, -180.0 replaced by +180.0. -/
theorem test_ratio_vectors :
    cdiv32 (0x3F000000#32, 0#32) (0x40A00000#32, 0#32) = (0x3DCCCCCD#32, 0#32) ∧
      cdiv32 (0x3F000000#32, 0#32) (0xBF800000#32, 0x3F800000#32) = (0xBE800000#32, 0xBE800000#32) ∧
      cdiv32 (0x3F000000#32, 0#32) (0xBF800000#32, 0#32) = (0xBF000000#32, 0x80000000#32) ∧
      ratioPhase (0xBF000000#32, 0x80000000#32) = 0x43340000#32 := by decide +kernel

/-- R58: the reset values of the SG registers are those SG_INIT gives at 48000.0 Hz. -/
theorem test_reset_sg_is_sgInit : State.reset.sg = sgInitGen 0x473B8000#32 := by decide +kernel

/-! ## Commands -/

/-- V-ENC-1, P5 step 2. -/
theorem test_nop : run .nop { State.reset with result := .illegalCmd } = State.reset := by decide

/-- P5 step 12: registers at their reset values, DMEM kept. -/
theorem test_sysReset :
    (run .sysReset (impulse Config.resetBuild)).bq = Biquad.reset ∧
      readWord (run .sysReset (impulse Config.resetBuild)).mem 0 = some 0x3F800000#32 := by decide

/-- P1 step 2: FINC 2497.5 and PINC at 8.0 Hz. -/
theorem test_sgInit :
    let t := run .sgInit { State.reset with arg0 := 0x41000000#32 }
    t.sg.finc = 0x451C1800#32 ∧ t.sg.pinc = 0x417B53D2#32 ∧ t.sg.fmin = 0x41A00000#32 ∧ t.sg.started = false := by
  decide +kernel

/-- P1 step 5: the range changes FINC and leaves PINC. -/
theorem test_sgSetRange :
    let t := run .sgSetRange
      { State.reset with sg := sgInitGen 0x41000000#32, arg0 := 0x3F800000#32, arg1 := 0x40000000#32 }
    t.sg.finc = 0x3E000000#32 ∧ t.sg.pinc = 0x417B53D2#32 ∧ t.sg.fmax = 0x40000000#32 := by decide +kernel

/-- R92, R98: 1.0 Hz over 8.0 Hz * 2.0 s is 0.0625. -/
theorem test_sgSetTime :
    let t := run .sgSetTime { sweep8 with arg0 := 0x40000000#32 }
    t.sg.time = 0x40000000#32 ∧ t.sg.finc = 0x3D800000#32 := by decide +kernel

/-- R99: the gain, a NaN here, is taken bit for bit. -/
theorem test_sgSetGain :
    let t := run .sgSetGain { sweep8 with arg0 := 0x7FC00000#32 }
    t.sg.gain = 0x7FC00000#32 ∧ t.sg.finc = 0x3E000000#32 := by decide +kernel

/-- P1 step 6: SG_START recomputes PINC from FMIN. -/
theorem test_sgStart :
    sweep8.sg.pinc = 0x3F490FDB#32 ∧ sweep8.sg.freq = 0x3F800000#32 ∧
      run .sgStart { sweep8 with sg := { sweep8.sg with phase := 0x3F800000#32, started := false } } = sweep8 := by
  decide +kernel

/-- V-SG-2: nine samples, the end state, and words past the prefix unwritten. -/
theorem test_sgProcess_end :
    let t := run (.sgProcess 20) sweep8
    t.result = .maxFreqReached ∧ t.res0 = 9#32 ∧ t.sg.phase = 0x408A3AE7#32 ∧ t.sg.freq = 0x40080000#32 ∧
      t.sg.pinc = 0x3FD5A0D9#32 ∧ t.sg.started = false ∧ readWord t.mem 0 = some 0#32 ∧ readWord t.mem 9 = none := by
  decide +kernel

/-- V-SG-4: RANGE before NOT_STARTED, and an empty region at DMEM_WORDS. -/
theorem test_sgProcess_priority :
    (run (.sgProcess 1) { State.reset with arg0 := 64#32 }).result = .range ∧
      (run (.sgProcess 0) { State.reset with arg0 := 64#32 }).result = .notStarted ∧
      (run (.sgProcess 0) { sweep8 with arg0 := 64#32 }).result = .ok ∧
      (run (.sgProcess 3) { sweep8 with arg0 := 62#32 }).sg = sweep8.sg := by decide +kernel

/-- V-BQ-5: BQ_RESET, then a sample through the bypass. -/
theorem test_bqReset :
    (run .bqProcessSample (run .bqReset { impulse Config.resetBuild with arg0 := 0x3F400000#32 })).res0
      = 0x3F400000#32 := by decide +kernel

/-- V-BQ-4: new coefficients keep the state, so a TRANSPOSED build still puts out Z1. -/
theorem test_bqSetCoefs :
    let old : Biquad := { Biquad.reset with a0 := 0x3F800000#32, b1 := 0xBF000000#32, s0 := 0x3F000000#32 }
    let t := run .bqSetCoefs { State.reset with build := transposedBuild, bq := old, arg0 := 0x3F000000#32 }
    t.bq.a0 = 0x3F000000#32 ∧ t.bq.b1 = 0#32 ∧ t.bq.s0 = 0x3F000000#32 ∧
      (run .bqProcessSample { t with arg0 := 0#32 }).res0 = 0x3F000000#32 := by decide +kernel

/-- V-BQ-1: the first sample of the impulse, in both builds. -/
theorem test_bqProcessSample :
    let d := run .bqProcessSample { State.reset with bq := q1, arg0 := 0x3F800000#32 }
    let t := run .bqProcessSample { State.reset with build := transposedBuild, bq := q1, arg0 := 0x3F800000#32 }
    d.res0 = 0x3F000000#32 ∧ d.bq.s0 = 0x3F800000#32 ∧ d.bq.s2 = 0x3F000000#32 ∧
      t.res0 = 0x3F000000#32 ∧ t.bq.s0 = 0x3F000000#32 ∧ t.bq.s1 = 0#32 := by decide +kernel

/-- V-BQ-6: a -0.0 through the bypass gives +0.0. -/
theorem test_bqProcessSample_zero :
    let d := run .bqProcessSample { State.reset with arg0 := 0x80000000#32 }
    let t := run .bqProcessSample { State.reset with build := transposedBuild, arg0 := 0x80000000#32 }
    d.res0 = 0#32 ∧ d.bq.s0 = 0x80000000#32 ∧ d.bq.s2 = 0#32 ∧
      t.res0 = 0#32 ∧ t.bq.s0 = 0#32 ∧ t.bq.s1 = 0x80000000#32 := by decide +kernel

/-- V-BQ-8, V-BQ-1: the block leaves the outputs in place and the final state, in both builds. -/
theorem test_bqProcessBlock :
    let d := run (.bqProcessBlock 6) (impulse Config.resetBuild)
    let t := run (.bqProcessBlock 6) (impulse transposedBuild)
    readWord d.mem 0 = some 0x3F000000#32 ∧ readWord d.mem 5 = some 0xBD000000#32 ∧ d.bq.s2 = 0xBD000000#32 ∧
      d.bq.s3 = 0xBD800000#32 ∧ readWord t.mem 4 = some 0xBD800000#32 ∧ t.bq.s1 = 0x3C000000#32 := by decide +kernel

/-- V-BQ-8: a region past the end of DMEM; R74: a region with an unwritten word. -/
theorem test_bqProcessBlock_stops :
    run (.bqProcessBlock 2) { impulse Config.resetBuild with arg0 := 63#32 }
        = { impulse Config.resetBuild with arg0 := 63#32, result := .range } ∧
      faultOf (exec (.bqProcessBlock 7) (impulse Config.resetBuild)) = some (.unwrittenWord 6) := by decide +kernel

/-- V-AN-4: the buffers of capacity 8 take 26 words; CONFIG before RANGE. -/
theorem test_anConfig :
    (run .anConfig (anArgs 0x40800000#32 2#32 38#32 8#32 State.reset)).result = .ok ∧
      (run .anConfig (anArgs 0x40800000#32 2#32 39#32 8#32 State.reset)).result = .range ∧
      (run .anConfig (anArgs 0x40800000#32 0#32 64#32 8#32 State.reset)).result = .config ∧
      (run .anConfig (anArgs 0x40800000#32 2#32 0#32 0#32 State.reset)).result = .config := by decide +kernel

/-- V-AN-3: L is 5, IN and OUT hold the sweep. -/
theorem test_anBegin :
    begun.result = .ok ∧ begun.res0 = 5#32 ∧ begun.an.state = .chunks ∧ begun.an.pos = 0#32 ∧
      readWord begun.mem 0 = some 0#32 ∧ readWord begun.mem 8 = some 0#32 ∧ readWord begun.mem 5 = none ∧
      readWord begun.mem 13 = none := by decide +kernel

/-- V-AN-4: the same sweep with capacity 4. -/
theorem test_anBegin_capacity :
    let t := run .anBegin (run .anConfig (anArgs 0x40800000#32 2#32 0#32 4#32 State.reset))
    t.result = .capacity ∧ t.res0 = 4#32 ∧ t.an.len = 0#32 ∧ t.an.state = .idle ∧ readWord t.mem 4 = none := by
  decide +kernel

/-- V-AN-3: the second and the last chunk. -/
theorem test_anNext :
    let t := run .anNext (run .anNext begun)
    t.res0 = 2#32 ∧ t.res1 = 10#32 ∧ t.res2 = 2#32 ∧ t.an.state = .chunks ∧
      processed.res0 = 4#32 ∧ processed.res1 = 12#32 ∧ processed.res2 = 1#32 ∧ processed.an.state = .processed := by
  decide +kernel

/-- V-AN-3: AN_NEXT and AN_FINISH out of sequence. -/
theorem test_sequence_errors :
    (run .anNext processed).result = .sequence ∧ (run .anFinish begun).result = .sequence ∧
      (run .anFinish (run .anFinish processed)).result = .sequence := by decide +kernel

/-- V-AN-3: the counts after AN_FINISH, and the words of MAG and PH past K unwritten. -/
theorem test_anFinish :
    let t := run .anFinish processed
    t.result = .ok ∧ t.res0 = 5#32 ∧ t.res1 = 3#32 ∧ t.an.k = 3#32 ∧ t.an.state = .done ∧
      (readWord t.mem 18).isSome = true ∧ readWord t.mem 19 = none ∧ (readWord t.mem 23).isSome = true ∧
      readWord t.mem 24 = none := by decide +kernel

/-- P3: the counts of a run with the BQ unit. -/
theorem test_anRunBq :
    let t := run .anRunBq an4
    t.result = .ok ∧ t.res0 = 5#32 ∧ t.res1 = 3#32 ∧ t.an.pos = 5#32 ∧ t.an.state = .done ∧ readWord t.mem 5 = none ∧
      readWord t.mem 13 = none := by decide +kernel

/-- V-AN-4: lengths out of range, and an unconfigured analyzer. -/
theorem test_anSpectrum :
    (run (.anSpectrum 0) an4).result = .range ∧ (run (.anSpectrum 9) an4).result = .range ∧
      (run (.anSpectrum 1) State.reset).result = .config ∧
      faultOf (exec (.anSpectrum 8) an4) = some (.unwrittenWord 0) := by decide +kernel

/-! ## The host's side -/

/-- P5 step 1: an illegal word written to CMD. -/
theorem test_step_illegal_word :
    after (step (State.reset.withFetchWord 32 0x40000000)) = { State.reset with result := .illegalCmd } := by decide

/-- R66: a word the host writes lies little-endian in the data window, here the largest address of DMEM. -/
theorem test_step_data_window :
    let t := after (step (hostAccess (256 + 252) 4 (.write 0x11223344#32) State.reset))
    readByte t.mem 252 = some 0x44 ∧ readByte t.mem 255 = some 0x11 ∧
      faultOf (step (hostAccess (256 + 256) 4 .read State.reset)) = some (.outsideWindows 512) := by decide

/-- R33, P1: STATUS of a started DIRECT build reads 0x40. -/
theorem test_step_reads_status :
    (after (step (hostAccess 4 4 .read sweep8))).hostRead = some 0x40#32 := by decide +kernel

/-- R88: the expansion of `bq.sample.f`. -/
theorem test_pseudo_expands :
    (Pseudo.bqSample 0x3F800000#32).expand = [.wr .arg0 0x3F800000#32, .cmd .bqProcessSample] := by decide

/-! ## Witnesses: for every statement with hypotheses, values that meet them -/

theorem witness_DecodeOfEncode : (Instr.sgProcess 0).wellFormed = true ∧ Instr.anRunBq.wellFormed = true := by decide

theorem witness_EncodeOfDecode : decode 0x23FFFFFF#32 = .ok (.bqProcessBlock 16777215) := by decide

/-- One word at the boundary of each clause of R84. -/
theorem witness_IllegalCommandWords :
    (4 ≤ (0x40000000#32).toNat / 2 ^ 28) ∧
      ((0x02000000#32).toNat / 2 ^ 28 = 0 ∧ 2 ≤ (0x02000000#32).toNat / 2 ^ 24 % 16) ∧
      ((0x16000000#32).toNat / 2 ^ 28 = 1 ∧ 6 ≤ (0x16000000#32).toNat / 2 ^ 24 % 16) ∧
      ((0x24000000#32).toNat / 2 ^ 28 = 2 ∧ 4 ≤ (0x24000000#32).toNat / 2 ^ 24 % 16) ∧
      ((0x36000000#32).toNat / 2 ^ 28 = 3 ∧ 6 ≤ (0x36000000#32).toNat / 2 ^ 24 % 16) ∧
      ((0x14000001#32).toNat / 2 ^ 24 % 16 = 4 ∧ (0x14000001#32).toNat % 2 ^ 24 ≠ 0) := by decide

theorem witness_StepRunsDecodedCommand :
    (hostAccess 0 4 (.write 0x34000000#32) an4).hostQueue = .access ⟨an4.build.regBase, 4, .write 0x34000000#32⟩ :: [] ∧
      decode 0x34000000#32 = .ok .anRunBq ∧
      (hostAccess 0 4 (.write 0x40000000#32) an4).hostQueue = .access ⟨an4.build.regBase, 4, .write 0x40000000#32⟩ :: [] ∧
      decode 0x40000000#32 = .error .noUnit := by decide +kernel

theorem witness_WithFetchWordRunsCommand : (Instr.bqProcessBlock 16777215).wellFormed = true := by decide

theorem witness_IdleBlockKeepsAllState : an4.hostQueue = [] := by decide +kernel

theorem witness_HostRegisterReads :
    (hostAccess 0xD8 4 .read State.reset).hostQueue = .access ⟨State.reset.build.regBase + 0xD8, 4, .read⟩ :: [] ∧
      0xD8 < 256 ∧ 0xD8 % 4 = 0 ∧
      (hostAccess 0xFC 4 .read State.reset).hostQueue = .access ⟨State.reset.build.regBase + 0xFC, 4, .read⟩ :: [] := by
  decide

/-- The clauses at offsets 4 and 252, 0 and 252, and for a misaligned and a narrow access. -/
theorem witness_HostRegisterWindowRules :
    (hostAccess 4 4 (.write 1#32) State.reset).hostQueue
        = .access ⟨State.reset.build.regBase + 4, 4, .write 1#32⟩ :: [] ∧
      (hostAccess 252 4 (.write 1#32) State.reset).hostQueue
        = .access ⟨State.reset.build.regBase + 252, 4, .write 1#32⟩ :: [] ∧
      (hostAccess 0 4 .read State.reset).hostQueue = .access ⟨State.reset.build.regBase + 0, 4, .read⟩ :: [] ∧
      (regTable State.reset).lookup 252 = none ∧
      (hostAccess 255 4 .read State.reset).hostQueue = .access ⟨State.reset.build.regBase + 255, 4, .read⟩ :: [] ∧
      (hostAccess 0 2 .read State.reset).hostQueue = .access ⟨State.reset.build.regBase + 0, 2, .read⟩ :: [] ∧
      255 % 4 ≠ 0 := by decide

/-- The clauses at words 0 and 63: a write, a read of a written word and a read of an unwritten one. -/
theorem witness_HostDataWindowAccess :
    (0 < State.reset.build.dmemWords ∧ 63 < State.reset.build.dmemWords) ∧
      State.reset.build.regBase + 256 ≤ State.reset.build.dataBase + 4 * 0 ∧
      (hostAccess 508 4 (.write 7#32) State.reset).hostQueue
        = .access ⟨State.reset.build.dataBase + 4 * 63, 4, .write 7#32⟩ :: [] ∧
      (hostAccess 256 4 .read (impulse Config.resetBuild)).hostQueue
        = .access ⟨(impulse Config.resetBuild).build.dataBase + 4 * 0, 4, .read⟩ :: [] ∧
      readWord (impulse Config.resetBuild).mem 0 = some 0x3F800000#32 ∧
      readWord State.reset.mem 63 = none ∧
      (255 < 4 * State.reset.build.dmemWords ∧
        State.reset.build.regBase + 256 ≤ State.reset.build.dataBase + 255 ∧ 255 % 4 ≠ 0 ∧
        (hostAccess 511 4 .read State.reset).hostQueue = .access ⟨State.reset.build.dataBase + 255, 4, .read⟩ :: []) ∧
      (252 % 4 = 0 ∧
        (hostAccess 508 2 .read State.reset).hostQueue = .access ⟨State.reset.build.dataBase + 252, 2, .read⟩ :: []) := by
  decide

theorem witness_ResetValues :
    ({ State.reset with hostQueue := [.reset] } : State).hostQueue = .reset :: [] := by decide

/-- A word ends with each of the five codes. -/
theorem witness_PreExecutionErrorsChangeOnlyResult :
    isNext (executeWord 0x15000001#32 State.reset) = true ∧
      (after (executeWord 0x15000001#32 State.reset)).result = .notStarted ∧
      (after (executeWord 0x40000000#32 State.reset)).result = .illegalCmd ∧
      (after (executeWord 0x15000041#32 State.reset)).result = .range ∧
      (after (executeWord 0x32000000#32 State.reset)).result = .sequence ∧
      (after (executeWord 0x34000000#32 State.reset)).result = .config := by decide

/-- The invariant of the machine holds after reset, on a configured analyzer and in V-BQ-8's state. -/
theorem witness_MachineInv : MachineInv State.reset ∧ MachineInv an4 ∧ MachineInv (impulse Config.resetBuild) := by
  refine ⟨⟨by decide, by decide, by decide +kernel, ?_⟩, ⟨by decide +kernel, by decide +kernel, by decide +kernel, ?_⟩,
    ⟨by decide, by decide +kernel, by decide +kernel, ?_⟩⟩ <;> constructor <;> decide +kernel

/-- Both commands of the statement do meet an unwritten word. -/
theorem witness_OnlyUnwrittenHostDataFaults :
    MachineInv (impulse Config.resetBuild) ∧
      exec (.bqProcessBlock 7) (impulse Config.resetBuild) = .fault (.unwrittenWord 6) ∧ MachineInv an4 ∧
      exec (.anSpectrum 8) an4 = .fault (.unwrittenWord 0) :=
  ⟨witness_MachineInv.2.2, eq_fault test_bqProcessBlock_stops.2, witness_MachineInv.2.1,
    eq_fault test_anSpectrum.2.2.2⟩

theorem witness_CommandsChangeOnlyWhatTheyName :
    ∃ t, exec .bqProcessSample (impulse Config.resetBuild) = .next t ∧ namesRes1 .bqProcessSample = false ∧
      isSgCommand .bqProcessSample = false ∧ writesDmem .bqProcessSample = false :=
  ⟨_, eq_next_after (by decide +kernel), rfl, rfl, rfl⟩

/-- Finite phases at the boundaries 0, TWO_PI and just below 2 TWO_PI, and phases that are not finite. -/
theorem witness_WrapPhaseRange :
    (isFinite32 0x80000000#32 = true ∧ gt32 0#32 0x80000000#32 = false ∧ gt32 0x41490FDB#32 0x80000000#32 = true) ∧
      (isFinite32 0x40C90FDB#32 = true ∧ gt32 0x41490FDB#32 0x40C90FDB#32 = true) ∧
      (isFinite32 0x41490FDA#32 = true ∧ gt32 0x41490FDB#32 0x41490FDA#32 = true) ∧
      isFinite32 0x7F7FFFFF#32 = true ∧ isFinite32 0x7F800000#32 = false := by decide

theorem witness_SgProcessErrorsInOrder :
    State.reset.build.dmemWords < ({ State.reset with arg0 := 64#32 } : State).arg0.toNat + 1 ∧
      ({ State.reset with arg0 := 64#32 } : State).arg0.toNat + 0 ≤ State.reset.build.dmemWords ∧
      State.reset.sg.started = false := by decide

/-- A region that ends with DMEM, on a started generator; 4 samples run on and 64 do not. -/
theorem witness_SgProcessWritesTheSweep :
    u32Arg sweep8 .arg0 + 64 ≤ sweep8.build.dmemWords ∧ sweep8.sg.started = true ∧
      (run (.sgProcess 4) sweep8).result = .ok ∧ (run (.sgProcess 64) sweep8).result = .maxFreqReached := by
  decide +kernel

theorem witness_SgProcessPartitionIndependent :
    ∃ t1 t2, legalBuild sweep8.build ∧ sweep8.arg0.toNat + (4 + 60) ≤ sweep8.build.dmemWords ∧
      exec (.sgProcess 4) sweep8 = .next t1 ∧ t1.result = .ok ∧
      exec (.sgProcess 60) { t1 with arg0 := sweep8.arg0 + BitVec.ofNat 32 4 } = .next t2 :=
  ⟨_, _, by decide, by decide, eq_next_after (by decide +kernel), by decide +kernel, eq_next_after (by decide +kernel)⟩

theorem witness_RestartReproducesTheSweep :
    ∃ t1 t2, exec .sgStart sweep8 = .next t1 ∧ exec (.sgProcess 5) t1 = .next t2 :=
  ⟨_, _, eq_next_after (by decide +kernel), eq_next_after (by decide +kernel)⟩

theorem witness_SampleWithinGain :
    isFinite32 sweep8.sg.gain = true ∧ isFinite32 (genAfter sweep8.sg 3).phase = true := by decide +kernel

theorem witness_BqSampleUpdatesState :
    (impulse Config.resetBuild).build.form = .direct ∧ (impulse transposedBuild).build.form = .transposed := by decide

/-- The three clauses: region out of DMEM, a region that holds words, a region with an unwritten word. -/
theorem witness_BqBlockProcessesInPlace :
    State.reset.build.dmemWords < ({ State.reset with arg0 := 63#32 } : State).arg0.toNat + 2 ∧
      ((impulse Config.resetBuild).arg0.toNat + 6 ≤ (impulse Config.resetBuild).build.dmemWords ∧
        (List.range 6).map (fun i => readWord (impulse Config.resetBuild).mem (u32Arg (impulse Config.resetBuild) .arg0 + i))
          = [0x3F800000#32, 0#32, 0#32, 0#32, 0#32, 0#32].map some) ∧
      readWord (impulse Config.resetBuild).mem (u32Arg (impulse Config.resetBuild) .arg0 + 6) = none := by decide

theorem witness_BqBlockPartitionIndependent :
    let s := impulse Config.resetBuild
    ∃ t1 t2, legalBuild s.build ∧ s.arg0.toNat + (2 + 4) ≤ s.build.dmemWords ∧ exec (.bqProcessBlock 2) s = .next t1 ∧
      exec (.bqProcessBlock 4) { t1 with arg0 := s.arg0 + BitVec.ofNat 32 2 } = .next t2 :=
  ⟨_, _, by decide, by decide, eq_next_after (by decide +kernel), eq_next_after (by decide +kernel)⟩

theorem witness_NanStatePersists :
    isNaN32 { q1 with s2 := 0x7F800001#32 }.s2 = true ∧ isNaN32 { q1 with s0 := 0xFFC00000#32 }.s0 = true ∧
      bqOutputs .direct q1 [0#32] ≠ [] := by decide +kernel

/-- Also of BypassFromEveryFiniteState: the bypass set on a finite state, and a finite input of each kind. -/
theorem witness_BypassIsIdentity :
    Biquad.reset.a0 = 0x3F800000#32 ∧ Biquad.reset.a1 = 0#32 ∧ Biquad.reset.a2 = 0#32 ∧ Biquad.reset.b1 = 0#32 ∧
      Biquad.reset.b2 = 0#32 ∧ isZero32 Biquad.reset.s0 = true ∧ isZero32 Biquad.reset.s1 = true ∧
      isFinite32 Biquad.reset.s0 = true ∧ isFinite32 Biquad.reset.s1 = true ∧ isFinite32 Biquad.reset.s2 = true ∧
      isFinite32 Biquad.reset.s3 = true ∧
      [0x7F7FFFFF#32, 0x00000001#32, 0x80000000#32].all isFinite32 = true := by decide

/-- The two error clauses and both sides of the fit, at bases 38 and 39. -/
theorem witness_AnConfigTakesConfiguration :
    let s := anArgs 0x40800000#32 2#32 38#32 8#32 State.reset
    s.arg1 ≠ 0#32 ∧ s.arg3 ≠ 0#32 ∧
      s.arg2.toNat + (2 * s.arg3.toNat + 2 * (s.arg3.toNat / 2 + 1)) = s.build.dmemWords ∧
      s.build.dmemWords < (39#32).toNat + (2 * s.arg3.toNat + 2 * (s.arg3.toNat / 2 + 1)) ∧
      (anArgs 0#32 0#32 0#32 8#32 State.reset).arg1 = 0#32 := by decide

theorem witness_UnconfiguredAnalyzerReportsConfig : State.reset.an.cap = 0#32 := by decide

/-- V-AN-3: the private sweep at 4.0 Hz ends with sample 5 and fits capacity 8. Also of AnRunBqMeasuresTheFilter. -/
theorem witness_AnBeginSeedsTheRun :
    an4.an.cap ≠ 0#32 ∧ an4.an.bs ≠ 0#32 ∧ an4.an.base.toNat + runWords an4.an.cap.toNat ≤ an4.build.dmemWords ∧
      sweepEndsAt (initPrivateGen an4.an.fs) 5 ∧ 5 ≤ an4.an.cap.toNat := by decide +kernel

/-- V-AN-4: the same sweep does not end within 4 samples. -/
theorem witness_SweepLongerThanCapacity :
    let s := run .anConfig (anArgs 0x40800000#32 2#32 0#32 4#32 State.reset)
    s.an.cap ≠ 0#32 ∧ s.an.base.toNat + runWords s.an.cap.toNat ≤ s.build.dmemWords ∧
      sweepRunsOn (initPrivateGen s.an.fs) s.an.cap.toNat := by decide +kernel

/-- Also of ChunksTileTheRun, whose last chunk is the third. -/
theorem witness_AnNextHandsOutAChunk :
    State.reset.an.state ≠ .chunks ∧ begun.an.state = .chunks ∧ begun.an.pos.toNat < begun.an.len.toNat ∧
      begun.an.pos = 0#32 ∧ begun.an.bs ≠ 0#32 ∧ begun.an.len ≠ 0#32 ∧
      2 < chunkCount begun.an.len.toNat begun.an.bs.toNat ∧ ¬3 < chunkCount begun.an.len.toNat begun.an.bs.toNat := by
  decide +kernel

/-- IN and OUT of a finished run hold its samples; in the same state with an empty DMEM they do not. -/
theorem witness_AnFinishWritesTheSpectra :
    begun.an.state ≠ .processed ∧ processed.an.state = .processed ∧
      processed.an.base.toNat + runWords processed.an.cap.toNat ≤ processed.build.dmemWords ∧
      processed.an.len.toNat ≤ processed.an.cap.toNat ∧
      (∃ vin : List Word, vin.length = processed.an.len.toNat ∧
        ∀ i (h : i < vin.length), readWord processed.mem (inBase processed.an + i) = some vin[i]) ∧
      (∃ vout : List Word, vout.length = processed.an.len.toNat ∧
        ∀ i (h : i < vout.length), readWord processed.mem (outBase processed.an + i) = some vout[i]) ∧
      readWord ({ processed with mem := [] } : State).mem (outBase processed.an + 4) = none :=
  ⟨by decide +kernel, by decide +kernel, by decide +kernel, by decide +kernel,
    writtenRegion_words (by decide +kernel), writtenRegion_words (by decide +kernel), rfl⟩

/-- Lengths past both ends of the range, IN and OUT that hold 5 samples, and a fresh configuration with none. -/
theorem witness_AnSpectrumOfHostData :
    begun.an.cap ≠ 0#32 ∧ begun.an.cap.toNat < 9 ∧ 5 ≤ begun.an.cap.toNat ∧
      begun.an.base.toNat + runWords begun.an.cap.toNat ≤ begun.build.dmemWords ∧
      (∃ vin : List Word, vin.length = 5 ∧
        ∀ i (h : i < vin.length), readWord begun.mem (inBase begun.an + i) = some vin[i]) ∧
      (∃ vout : List Word, vout.length = 5 ∧
        ∀ i (h : i < vout.length), readWord begun.mem (outBase begun.an + i) = some vout[i]) ∧
      an4.an.cap ≠ 0#32 ∧ an4.an.base.toNat + runWords an4.an.cap.toNat ≤ an4.build.dmemWords ∧
      8 ≤ an4.an.cap.toNat ∧ readWord an4.mem (inBase an4.an + 7) = none :=
  ⟨by decide +kernel, by decide +kernel, by decide +kernel, by decide +kernel,
    writtenRegion_words (by decide +kernel), writtenRegion_words (by decide +kernel), by decide +kernel,
    by decide +kernel, by decide +kernel, by decide +kernel⟩

theorem witness_BlockSizeIndependent :
    ∃ t, (1#32 : Word) ≠ 0#32 ∧ (100#32 : Word) ≠ 0#32 ∧
      exec .anRunBq { an4 with an := { an4.an with bs := 1#32 } } = .next t :=
  ⟨_, by decide, by decide, eq_next_after (by decide +kernel)⟩

theorem witness_HostLoopEqualsRunBq :
    ∃ t0 t1 t2, MachineInv an4 ∧ exec .anBegin an4 = .next t0 ∧ t0.result = .ok ∧
      repeatChunk (chunkCount t0.an.len.toNat an4.an.bs.toNat) t0 = .next t1 ∧ exec .anFinish t1 = .next t2 :=
  ⟨_, _, _, witness_MachineInv.2.1, eq_next_after (by decide +kernel), by decide +kernel,
    eq_next_after (by decide +kernel), eq_next_after (by decide +kernel)⟩

theorem witness_AnalyzerStateMachine : ∃ t, AnInv an4 ∧ exec .anBegin an4 = .next t :=
  ⟨_, witness_MachineInv.2.1.an, eq_next_after (by decide +kernel)⟩

theorem witness_PhaseInHalfOpenRange : isNaN32 (ratioPhase (0xBF000000#32, 0x80000000#32)) = false := by decide +kernel

/-- V-AN-5's first bin, and a bin whose denominator is the smallest normal number. -/
theorem witness_ExactRatios :
    (let c := 0xBE0D6CC0#32
     isNormal32 (add32 (mul32 c c) (mul32 0#32 0#32)) = true ∧ isFinite32 (mul32 0#32 c) = true) ∧
      (let c := 0x20000000#32
       isNormal32 (add32 (mul32 c c) (mul32 0#32 0#32)) = true ∧ isFinite32 (mul32 0#32 c) = true) := by decide +kernel

/-- Bins whose doubles and halves are exact, and the largest power for a bin of 2^-60. -/
theorem witness_ExactRatios_scaled :
    RatioScales 1 0x3F800000#32 0xC0000000#32 ∧ RatioScales (-1) 0x3F800000#32 0#32 ∧
      RatioScales 127 0x21800000#32 0#32 := by
  refine ⟨?_, ?_, ?_⟩ <;> constructor <;> decide +kernel

/-- The transform is OPEN, so the list clauses are met for one value of it: if the bins of [1.0] and of [2.0] are what
R23's reference gives, the list [1.0] meets every hypothesis for the power 1, D3 included. -/
theorem witness_ExactRatios_lists (h1 : rdftBin [0x3F800000#32] 0 = (0x3F800000#32, 0#32))
    (h2 : rdftBin [0x40000000#32] 0 = (0x40000000#32, 0#32)) :
    RdftScalesAt [0x3F800000#32] 1 ∧ rdftScaleGuard [0x3F800000#32] 1 ∧
      RatioScales 1 (rdftBin [0x3F800000#32] 0).1 (rdftBin [0x3F800000#32] 0).2 := by
  have hs : [0x3F800000#32].map (scale32 1) = [0x40000000#32] := by decide
  refine ⟨fun _ => ?_, ⟨fun x hx => ?_, fun k hk => ?_⟩, ?_⟩
  · rw [hs]
    show [rdftBin [0x40000000#32] 0] = [scalePair 1 (rdftBin [0x3F800000#32] 0)]
    rw [h1, h2]
    decide +kernel
  · obtain rfl : x = 0x3F800000#32 := by simpa using hx
    decide
  · obtain rfl : k = 0 := by simpa using hk
    rw [hs, h1, h2]
    decide +kernel
  · rw [h1]
    constructor <;> decide +kernel

/-- A bin for each clause: with c = 2^-80 the denominator underflows to zero, and each numerator can be nonzero. -/
theorem witness_ZeroAndOverflowingBins :
    (isZero32 0x80000000#32 = true ∧ isZero32 0#32 = true) ∧
      (isFinite32 0x3F800000#32 = true ∧
        isNormal32 (add32 (mul32 0x3F800000#32 0x3F800000#32) (mul32 0#32 0#32)) = true) ∧
      (isInf32 (add32 (mul32 0x60000000#32 0x60000000#32) (mul32 0#32 0#32)) = true ∧
        isFinite32 (add32 (mul32 0x3F800000#32 0x60000000#32) (mul32 0x3F800000#32 0#32)) = true ∧
        isFinite32 (sub32 (mul32 0x3F800000#32 0x60000000#32) (mul32 0x3F800000#32 0#32)) = true) ∧
      (isZero32 (add32 (mul32 0x17800000#32 0x17800000#32) (mul32 0#32 0#32)) = true ∧
        isZero32 (add32 (mul32 0#32 0x17800000#32) (mul32 0x3F800000#32 0#32)) = true ∧
        isZero32 (sub32 (mul32 0x3F800000#32 0x17800000#32) (mul32 0#32 0#32)) = false ∧
        isNaN32 (sub32 (mul32 0x3F800000#32 0x17800000#32) (mul32 0#32 0#32)) = false ∧
        isZero32 (sub32 (mul32 0#32 0x17800000#32) (mul32 0#32 0#32)) = true) ∧
      isNaN32 0x7FC00001#32 = true := by decide +kernel

theorem witness_ArithmeticCorrectlyRounded :
    isFinite32 0x7F7FFFFF#32 = true ∧ isFinite32 0x00000001#32 = true ∧ isZero32 0x00000001#32 = false ∧
      isZero32 0x80000000#32 = true ∧ units 0x3F800000#32 + units 0xBF800000#32 = 0 ∧
      units 0#32 - units 0x80000000#32 = 0 ∧ isInf32 0x7F800000#32 = true ∧ isInf32 0xFF800000#32 = true := by decide +kernel

theorem witness_FmodExact :
    (isFinite32 0x7F7FFFFF#32 = true ∧ isFinite32 0x00000001#32 = true ∧ isZero32 0x00000001#32 = false) ∧
      isInf32 0xFF800000#32 = true ∧ isFinite32 0x7F800000#32 = false ∧ isNaN32 0x7F800001#32 = true ∧
      isZero32 0x80000000#32 = true := by decide

theorem witness_OrderedComparison :
    isNaN32 0x7FC00000#32 = true ∧ isFinite32 0x80000000#32 = true ∧ isFinite32 0#32 = true := by decide

theorem witness_NanResultsAreCanonical :
    isNaN32 (sub32 0x7F800000#32 0x7F800000#32) = true ∧ isNaN32 (fmod32 0x3F800000#32 0#32) = true ∧
      isNaN32 0x7F800001#32 = true ∧ isInf32 0x3F800000#32 = false ∧
      4 * 1 * 0 % (2 * [0x7F800001#32, 0#32].length) ≠ [0x7F800001#32, 0#32].length ∧
      2 * 1 * 1 % [0#32, 0x7F800001#32, 0#32].length ≠ 0 := by decide +kernel

/-- An argument for each clause that has a hypothesis. -/
theorem witness_NumericFunctionProperties :
    isFinite32 0x42C80000#32 = true ∧ isFinite32 0xFF800000#32 = false ∧ gt32 0#32 0xBF800000#32 = true ∧
      gt32 0x3F800000#32 0#32 = true ∧ isZero32 0x80000000#32 = true ∧ isNaN32 0xFF800000#32 = false ∧
      isInf32 0xFF800000#32 = true ∧ isNaN32 0x7FC00000#32 = true := by decide

/-- Lists for the clauses: one with an infinity, and a finite one of even length, whose bin 1 is inner. -/
theorem witness_TransformProperties :
    [0x7F800000#32, 0#32].any (fun x => !isFinite32 x) = true ∧
      [0x3F800000#32, 0#32, 0#32, 0#32].all isFinite32 = true ∧ 2 ∣ [0x3F800000#32, 0#32, 0#32, 0#32].length ∧
      2 * 1 ≠ [0x3F800000#32, 0#32, 0#32, 0#32].length := by decide

/-- A step from a state that meets each invariant: the host writes AN_RUN_BQ to CMD. -/
theorem witness_StepKeepsInvariants :
    let s := an4.withFetchWord 32 0x34000000
    ∃ t, SgInv s.sg ∧ DmemInv s ∧ AnInv s ∧ step s = .next t ∧ (∀ rest, s.hostQueue ≠ .reset :: rest) :=
  ⟨_, by decide +kernel, by decide +kernel, by constructor <;> decide +kernel, eq_next_after (by decide +kernel),
    fun _ h => by cases h⟩

end Sys2Proof.Tests
end

section
/-! PROOFS. What each command leaves unchanged (R8, R29, R30, R57, R61, R80, R115): one frame predicate, one lemma per unit,
and the frame of every command. -/

namespace Sys2Proof.Proofs

open Sys2Proof.Machine

/-- The registers and the memory a command leaves alone because no rule names them for it. -/
structure Frame (i : Instr) (s t : State) : Prop where
  /-- Only SYS_RESET changes an ARG register (R29). -/
  args : i ≠ .sysReset →
    t.arg0 = s.arg0 ∧ t.arg1 = s.arg1 ∧ t.arg2 = s.arg2 ∧ t.arg3 = s.arg3 ∧ t.arg4 = s.arg4
  /-- RES0 (R30). -/
  res0 : namesRes0 i = false → t.res0 = s.res0
  /-- RES1 (R30). -/
  res1 : namesRes1 i = false → t.res1 = s.res1
  /-- RES2 (R30). -/
  res2 : namesRes2 i = false → t.res2 = s.res2
  /-- The SG registers (R57). -/
  sg : i ≠ .sysReset → isSgCommand i = false → t.sg = s.sg
  /-- The BQ registers, which AN_RUN_BQ uses too (R115). -/
  bq : i ≠ .sysReset → isBqCommand i = false → i ≠ .anRunBq → t.bq = s.bq
  /-- The AN registers. -/
  an : i ≠ .sysReset → isAnCommand i = false → t.an = s.an
  /-- DMEM (R61). -/
  mem : writesDmem i = false → t.mem = s.mem

/-- Writing RESULT alone is in the frame of every command. -/
theorem Frame.withResult (i : Instr) (s : State) (c : ResultCode) : Frame i s (s.withResult c) :=
  ⟨fun _ => ⟨rfl, rfl, rfl, rfl, rfl⟩, fun _ => rfl, fun _ => rfl, fun _ => rfl, fun _ _ => rfl, fun _ _ _ => rfl,
    fun _ _ => rfl, fun _ => rfl⟩

/-- A command of unit SG may change the SG registers, and RES0 and DMEM if it is one that names them. -/
theorem Frame.of_sg {i : Instr} {s : State} {g : SweepGen} {m : Memory} {r0 : Word} {c : ResultCode}
    (hi : isSgCommand i = true) (h0 : namesRes0 i = false → r0 = s.res0) (hm : writesDmem i = false → m = s.mem) :
    Frame i s { s with sg := g, mem := m, res0 := r0, result := c } :=
  ⟨fun _ => ⟨rfl, rfl, rfl, rfl, rfl⟩, h0, fun _ => rfl, fun _ => rfl, fun _ hn => by simp [hi] at hn,
    fun _ _ _ => rfl, fun _ _ => rfl, hm⟩

/-- A command of unit BQ may change the BQ registers, and RES0 and DMEM if it is one that names them. -/
theorem Frame.of_bq {i : Instr} {s : State} {b : Biquad} {m : Memory} {r0 : Word} {c : ResultCode}
    (hi : isBqCommand i = true) (h0 : namesRes0 i = false → r0 = s.res0) (hm : writesDmem i = false → m = s.mem) :
    Frame i s { s with bq := b, mem := m, res0 := r0, result := c } :=
  ⟨fun _ => ⟨rfl, rfl, rfl, rfl, rfl⟩, h0, fun _ => rfl, fun _ => rfl, fun _ _ => rfl,
    fun _ hn _ => by simp [hi] at hn, fun _ _ => rfl, hm⟩

/-- A command of unit AN may change the AN registers, and the RES registers, DMEM and the BQ registers if it is one that
names them. -/
theorem Frame.of_an {i : Instr} {s : State} {a : Analyzer} {b : Biquad} {m : Memory} {r0 r1 r2 : Word} {c : ResultCode}
    (hi : isAnCommand i = true) (h0 : namesRes0 i = false → r0 = s.res0) (h1 : namesRes1 i = false → r1 = s.res1)
    (h2 : namesRes2 i = false → r2 = s.res2) (hb : i ≠ .anRunBq → b = s.bq) (hm : writesDmem i = false → m = s.mem) :
    Frame i s { s with an := a, bq := b, mem := m, res0 := r0, res1 := r1, res2 := r2, result := c } :=
  ⟨fun _ => ⟨rfl, rfl, rfl, rfl, rfl⟩, h0, h1, h2, fun _ _ => rfl, fun _ _ => hb, fun _ hn => by simp [hi] at hn, hm⟩

/-- AN_NEXT answers SEQUENCE, or the next chunk in the RES registers and the run registers moved on. -/
theorem execAnNext_next {s t : State} (h : execAnNext s = .next t) :
    t = s.withResult .sequence ∨
      ∃ a r0 r1 r2, t = { s with an := a, res0 := r0, res1 := r1, res2 := r2, result := .ok } := by
  unfold execAnNext at h
  split at h
  · cases h; exact .inl rfl
  · cases h; exact .inr ⟨_, _, _, _, rfl⟩

/-- Every command that gives a next state keeps its frame. -/
theorem exec_frame {i : Instr} {s t : State} (h : exec i s = .next t) : Frame i s t := by
  cases i with
  | nop => cases h; exact .withResult _ _ _
  | sysReset =>
    cases h
    exact ⟨fun hi => absurd rfl hi, nofun, nofun, nofun, fun hi => absurd rfl hi, fun hi => absurd rfl hi,
      fun hi => absurd rfl hi, fun _ => rfl⟩
  | sgInit => cases h; exact .of_sg rfl (fun _ => rfl) (fun _ => rfl)
  | sgSetRange => cases h; exact .of_sg rfl (fun _ => rfl) (fun _ => rfl)
  | sgSetTime => cases h; exact .of_sg rfl (fun _ => rfl) (fun _ => rfl)
  | sgSetGain => cases h; exact .of_sg rfl (fun _ => rfl) (fun _ => rfl)
  | sgStart => cases h; exact .of_sg rfl (fun _ => rfl) (fun _ => rfl)
  | sgProcess n =>
    obtain ⟨-, rfl⟩ | ⟨-, -, rfl⟩ | ⟨-, -, r, -, rfl⟩ := execSgProcess_next h
    · exact .withResult _ _ _
    · exact .withResult _ _ _
    · exact .of_sg rfl nofun nofun
  | bqReset => cases h; exact .of_bq rfl (fun _ => rfl) (fun _ => rfl)
  | bqSetCoefs => cases h; exact .of_bq rfl (fun _ => rfl) (fun _ => rfl)
  | bqProcessSample => cases h; exact .of_bq rfl nofun (fun _ => rfl)
  | bqProcessBlock n =>
    obtain ⟨-, rfl⟩ | ⟨-, r, -, rfl⟩ := execBqProcessBlock_next h
    · exact .withResult _ _ _
    · exact .of_bq rfl (fun _ => rfl) nofun
  | anConfig =>
    obtain ⟨-, rfl⟩ | ⟨-, -, -, rfl⟩ | ⟨-, -, -, rfl⟩ := execAnConfig_next h
    · exact .withResult _ _ _
    · exact .withResult _ _ _
    · exact .of_an rfl (fun _ => rfl) (fun _ => rfl) (fun _ => rfl) (fun _ => rfl) (fun _ => rfl)
  | anBegin =>
    obtain ⟨-, rfl⟩ | ⟨-, r, hr, hcase⟩ := execAnBegin_next h
    · exact .withResult _ _ _
    · obtain ⟨g, d, -, hst⟩ := seedRun_ok hr
      rw [hst] at hcase
      obtain ⟨-, rfl⟩ | ⟨-, rfl⟩ := hcase
      · exact .of_an rfl nofun (fun _ => rfl) (fun _ => rfl) (fun _ => rfl) nofun
      · exact .of_an rfl nofun (fun _ => rfl) (fun _ => rfl) (fun _ => rfl) nofun
  | anNext =>
    obtain rfl | ⟨a, r0, r1, r2, rfl⟩ := execAnNext_next h
    · exact .withResult _ _ _
    · exact .of_an rfl nofun nofun nofun (fun _ => rfl) (fun _ => rfl)
  | anFinish =>
    obtain ⟨-, rfl⟩ | ⟨-, d, -, rfl⟩ := execAnFinish_next h
    · exact .withResult _ _ _
    · exact .of_an rfl nofun nofun (fun _ => rfl) (fun _ => rfl) nofun
  | anRunBq =>
    obtain ⟨-, rfl⟩ | ⟨-, r, hr, hcase⟩ := execAnRunBq_next h
    · exact .withResult _ _ _
    · obtain ⟨g, d, -, hst⟩ := seedRun_ok hr
      rw [hst] at hcase
      obtain ⟨-, rfl⟩ | ⟨-, p, e, -, -, rfl⟩ := hcase
      · exact .of_an rfl nofun nofun (fun _ => rfl) (fun hi => absurd rfl hi) nofun
      · exact .of_an rfl nofun nofun (fun _ => rfl) (fun hi => absurd rfl hi) nofun
  | anSpectrum n =>
    obtain ⟨-, rfl⟩ | ⟨-, -, rfl⟩ | ⟨-, -, -, d, -, rfl⟩ := execAnSpectrum_next h
    · exact .withResult _ _ _
    · exact .withResult _ _ _
    · exact .of_an rfl nofun nofun (fun _ => rfl) (fun _ => rfl) nofun

/-- Settles O17: the build and the host's side by `exec_keeps`, everything else by the command's frame. -/
theorem commandsChangeOnlyWhatTheyName : Obligations.CommandsChangeOnlyWhatTheyName := by
  intro i s t h
  obtain ⟨hbuild, hqueue, hread, -⟩ := exec_keeps h
  have hf := exec_frame h
  exact ⟨hbuild, hqueue, hread, hf.args, hf.res0, hf.res1, hf.res2, hf.sg, hf.bq, hf.an,
    fun hi x => by rw [hf.mem hi]⟩

end Sys2Proof.Proofs
end

section
/-! PROOFS. Binary32 arithmetic (R12 to R16): one equation per case of each operation, the rounding rule from
`roundMagFree_nearest` and `roundMagFree_even`, and the ordered comparison. -/

namespace Sys2Proof.Proofs

open Sys2Proof.Machine

/-! ## Values with a sign -/

/-- The integer of a sign and a magnitude. -/
def signed (neg : Bool) (n : Nat) : Int := if neg then -(n : Int) else n

theorem units_eq_signed (w : Word) : units w = signed (signBit w) (unitsMag w) := rfl

theorem signed_mul (p q : Bool) (m n : Nat) : signed p m * signed q n = signed (p != q) (m * n) := by
  cases p <;> cases q <;> simp [signed]

theorem signed_natAbs (z : Int) : signed (decide (z < 0)) z.natAbs = z := by
  unfold signed
  by_cases h : z < 0
  · rw [decide_eq_true h, if_pos rfl]; omega
  · rw [decide_eq_false h, if_neg (by decide)]; omega

@[simp] theorem signed_zero (neg : Bool) : signed neg 0 = 0 := by cases neg <;> rfl

@[simp] theorem abs_signed (neg : Bool) (n : Nat) : |signed neg n| = n := by cases neg <;> simp [signed]

theorem signed_sub_eq (neg : Bool) (m n den : Nat) :
    |signed neg m * den - signed neg n| = |((m * den : Nat) : Int) - n| := by
  cases neg
  · simp [signed]
  · rw [← abs_neg]
    congr 1
    simp only [signed, if_true]
    push_cast
    ring

/-- The distance between values of opposite signs is the sum of the magnitudes. -/
theorem signed_sub_opposite (neg : Bool) (m n den : Nat) :
    |signed (!neg) m * den - signed neg n| = ((m * den : Nat) : Int) + n := by
  have hnonneg : (0 : Int) ≤ ((m * den : Nat) : Int) + n := by positivity
  cases neg
  · rw [← abs_of_nonneg hnonneg, ← abs_neg]
    congr 1
    simp only [signed, Bool.not_false, if_true]
    push_cast
    simp
    ring
  · rw [← abs_of_nonneg hnonneg]
    congr 1
    simp [signed]

/-! ## Rounding (R12, R13) -/

theorem unitsMag_roundUnits (neg : Bool) (num den : Nat) :
    unitsMag (roundUnits neg num den) = unitsOfMag (roundMag num den) := by
  unfold unitsMag; rw [magBits_roundUnits]

/-- Below the overflow the cut-off does nothing. -/
theorem roundMag_of_finite {neg : Bool} {num den : Nat} (h : isFinite32 (roundUnits neg num den) = true) :
    roundMag num den = roundMagFree num den := by
  rw [isFinite32_iff, magBits_roundUnits] at h
  rw [roundMag_eq] at h ⊢
  omega

theorem units_roundUnits_finite {neg : Bool} {num den : Nat} (h : isFinite32 (roundUnits neg num den) = true) :
    units (roundUnits neg num den) = signed neg (unitsOfMag (roundMagFree num den)) := by
  rw [units_eq_signed, signBit_roundUnits, unitsMag_roundUnits, roundMag_of_finite h]

/-- No finite value is nearer than the rounded magnitude with the sign of the exact value; one of the other sign is no nearer
than zero is. -/
theorem roundMagFree_nearest_signed (neg : Bool) (num : Nat) {den : Nat} (h : 0 < den) (c : Word) :
    |signed neg (unitsOfMag (roundMagFree num den)) * den - signed neg num| ≤ |units c * den - signed neg num| := by
  rw [signed_sub_eq, units_eq_signed c]
  by_cases hs : signBit c = neg
  · rw [hs, signed_sub_eq]
    exact roundMagFree_nearest num (magBits c) h
  · rw [Bool.eq_not_of_ne hs, signed_sub_opposite]
    have hzero := roundMagFree_nearest num 0 h
    simp only [unitsOfMag_zero, Nat.zero_mul, Nat.cast_zero, zero_sub, abs_neg, Nat.abs_cast] at hzero
    exact hzero.trans (le_add_of_nonneg_left (Nat.cast_nonneg _))

/-- A second value at the same distance makes the rounded magnitude even; one of the other sign can only be a zero. -/
theorem roundMagFree_even_signed (neg : Bool) (num : Nat) {den : Nat} (h : 0 < den) (c : Word)
    (hne : units c ≠ signed neg (unitsOfMag (roundMagFree num den)))
    (htie : |signed neg (unitsOfMag (roundMagFree num den)) * den - signed neg num| = |units c * den - signed neg num|) :
    roundMagFree num den % 2 = 0 := by
  rw [signed_sub_eq, units_eq_signed c] at htie
  by_cases hs : signBit c = neg
  · rw [hs, signed_sub_eq] at htie
    refine roundMagFree_even num (magBits c) h (fun hm => hne ?_) htie
    rw [units_eq_signed, hs, unitsMag, hm]
  · rw [Bool.eq_not_of_ne hs, signed_sub_opposite] at htie
    have hzero := roundMagFree_nearest num 0 h
    simp only [unitsOfMag_zero, Nat.zero_mul, Nat.cast_zero, zero_sub, abs_neg, Nat.abs_cast] at hzero
    have hc : unitsMag c * den = 0 := by omega
    rw [hc] at htie
    refine roundMagFree_even num 0 h (fun hm => hne ?_) (by simpa using htie)
    rw [units_eq_signed, (Nat.mul_eq_zero.1 hc).resolve_right (by omega), ← hm]
    simp

/-- `roundUnits` is the rounding of R12 and R13. -/
theorem roundsTo_roundUnits (neg : Bool) (num : Nat) {den : Nat} (h : 0 < den) :
    RoundsTo (roundUnits neg num den) (signed neg num) den where
  number := isNaN32_roundUnits neg num den
  overflow := by
    rw [isInf32_iff, magBits_roundUnits, roundMag_eq_infMag_iff num h, abs_signed, ← Nat.cast_le (α := Int)]
    norm_num
  sign := by
    rw [signBit_roundUnits]
    cases neg
    · exact ⟨fun _ => rfl, fun hlt => by simp [signed] at hlt; omega⟩
    · exact ⟨fun hlt => by simp [signed] at hlt; omega, fun _ => rfl⟩
  nearest := fun hf c _ => by
    rw [units_roundUnits_finite hf]
    exact roundMagFree_nearest_signed neg num h c
  even := fun hf c _ hne htie => by
    rw [units_roundUnits_finite hf] at hne htie
    rw [magBits_roundUnits, roundMag_of_finite hf]
    exact roundMagFree_even_signed neg num h c hne htie

/-! ## Words with a given sign -/

theorem withSign_infMag (neg : Bool) : withSign neg infMag = signedInf neg := by cases neg <;> decide

theorem withSign_zero (neg : Bool) : withSign neg 0 = if neg then 0x80000000#32 else 0#32 := by cases neg <;> decide

theorem isZero32_of_inf {a : Word} (h : isInf32 a = true) : isZero32 a = false := by
  rw [isZero32, isInf32_iff.1 h]; rfl

theorem isFinite32_of_zero {a : Word} (h : isZero32 a = true) : isFinite32 a = true := by
  rw [isFinite32, isZero32_iff.1 h]; rfl

theorem isNaN32_of_zero {a : Word} (h : isZero32 a = true) : isNaN32 a = false :=
  isNaN32_of_finite (isFinite32_of_zero h)

theorem isInf32_of_zero {a : Word} (h : isZero32 a = true) : isInf32 a = false :=
  isInf32_of_finite (isFinite32_of_zero h)

theorem isFinite32_of_nan {a : Word} (h : isNaN32 a = true) : isFinite32 a = false := by
  cases hf : isFinite32 a
  · rfl
  · rw [isNaN32_of_finite hf] at h; cases h

/-! ## Addition and subtraction -/

/-- The sign of the sum of two finite values: the sum's, and for an exact zero that of two addends of one sign (R12). -/
def sumSign (a b : Word) : Bool :=
  if units a + units b = 0 then signBit a && signBit b else decide (units a + units b < 0)

theorem add32_finite {a b : Word} (ha : isFinite32 a = true) (hb : isFinite32 b = true) :
    add32 a b = roundUnits (sumSign a b) (units a + units b).natAbs 1 := by
  simp only [add32, isNaN32_of_finite ha, isNaN32_of_finite hb, isInf32_of_finite ha, isInf32_of_finite hb, sumSign]
  by_cases hz : units a + units b = 0
  · simp [hz, roundUnits]
  · simp [hz]

theorem signed_sumSign (a b : Word) : signed (sumSign a b) (units a + units b).natAbs = units a + units b := by
  unfold sumSign
  split
  · rename_i hz; simp [hz]
  · exact signed_natAbs _

theorem add32_roundsTo {a b : Word} (ha : isFinite32 a = true) (hb : isFinite32 b = true) :
    RoundsTo (add32 a b) (units a + units b) 1 := by
  have hround := roundsTo_roundUnits (sumSign a b) (units a + units b).natAbs Nat.one_pos
  rwa [signed_sumSign, ← add32_finite ha hb] at hround

theorem add32_of_sum_zero {a b : Word} (ha : isFinite32 a = true) (hb : isFinite32 b = true)
    (hz : units a + units b = 0) : add32 a b = if signBit a && signBit b then 0x80000000#32 else 0#32 := by
  rw [add32_finite ha hb, hz, ← withSign_zero, sumSign, if_pos hz]
  simp [roundUnits]

theorem add32_inf_finite {a b : Word} (ha : isInf32 a = true) (hb : isFinite32 b = true) : add32 a b = a := by
  simp [add32, ha, isNaN32_of_inf ha, isNaN32_of_finite hb, isInf32_of_finite hb]

theorem add32_finite_inf {a b : Word} (ha : isFinite32 a = true) (hb : isInf32 b = true) : add32 a b = b := by
  simp [add32, hb, isNaN32_of_inf hb, isNaN32_of_finite ha, isInf32_of_finite ha]

theorem add32_inf_inf {a b : Word} (ha : isInf32 a = true) (hb : isInf32 b = true) :
    add32 a b = if signBit a = signBit b then a else qNaN := by
  simp only [add32, ha, hb, isNaN32_of_inf ha, isNaN32_of_inf hb]
  by_cases hs : signBit a = signBit b <;> simp [hs]

theorem sub32_roundsTo {a b : Word} (ha : isFinite32 a = true) (hb : isFinite32 b = true) :
    RoundsTo (sub32 a b) (units a - units b) 1 := by
  obtain ⟨hfin, hunits⟩ := neg32_finite hb
  rw [sub_eq_add_neg, ← hunits]
  exact add32_roundsTo ha hfin

theorem sub32_of_difference_zero {a b : Word} (ha : isFinite32 a = true) (hb : isFinite32 b = true)
    (hz : units a - units b = 0) : sub32 a b = if signBit a && !signBit b then 0x80000000#32 else 0#32 := by
  obtain ⟨hfin, hunits⟩ := neg32_finite hb
  rw [← signBit_neg32 (isNaN32_of_finite hb)]
  exact add32_of_sum_zero ha hfin (by omega)

theorem sub32_inf_finite {a b : Word} (ha : isInf32 a = true) (hb : isFinite32 b = true) : sub32 a b = a :=
  add32_inf_finite ha (by simpa using hb)

theorem sub32_finite_inf {a b : Word} (ha : isFinite32 a = true) (hb : isInf32 b = true) : sub32 a b = neg32 b :=
  add32_finite_inf ha (by simpa using hb)

theorem sub32_inf_inf {a b : Word} (ha : isInf32 a = true) (hb : isInf32 b = true) :
    sub32 a b = if signBit a = signBit b then qNaN else a := by
  rw [sub32, add32_inf_inf ha (by simpa using hb), signBit_neg32 (isNaN32_of_inf hb)]
  cases signBit a <;> cases signBit b <;> rfl

/-! ## Multiplication -/

theorem mul32_comm (a b : Word) : mul32 a b = mul32 b a := by
  simp only [mul32, bne_comm (a := signBit a), Bool.or_comm (isNaN32 a), Bool.or_comm (isInf32 a),
    Bool.or_comm (isZero32 a), Nat.mul_comm (unitsMag a)]

theorem mul32_finite {a b : Word} (ha : isFinite32 a = true) (hb : isFinite32 b = true) :
    mul32 a b = roundUnits (signBit a != signBit b) (unitsMag a * unitsMag b) (2 ^ 149) := by
  simp [mul32, isNaN32_of_finite ha, isNaN32_of_finite hb, isInf32_of_finite ha, isInf32_of_finite hb]

theorem mul32_roundsTo {a b : Word} (ha : isFinite32 a = true) (hb : isFinite32 b = true) :
    RoundsTo (mul32 a b) (units a * units b) (2 ^ 149) := by
  rw [mul32_finite ha hb, units_eq_signed a, units_eq_signed b, signed_mul]
  exact roundsTo_roundUnits _ _ (by positivity)

theorem mul32_inf_left {a b : Word} (ha : isInf32 a = true) (hb : isNaN32 b = false) :
    mul32 a b = if isZero32 b then qNaN else signedInf (signBit a != signBit b) := by
  simp [mul32, ha, hb, isNaN32_of_inf ha, isZero32_of_inf ha, withSign_infMag]

/-! ## Division -/

theorem div32_finite {a b : Word} (ha : isFinite32 a = true) (hb : isFinite32 b = true) (hz : isZero32 b = false) :
    div32 a b = roundUnits (signBit a != signBit b) (unitsMag a * 2 ^ 149) (unitsMag b) := by
  simp [div32, isNaN32_of_finite ha, isNaN32_of_finite hb, isInf32_of_finite ha, isInf32_of_finite hb, hz]

theorem div32_roundsTo {a b : Word} (ha : isFinite32 a = true) (hb : isFinite32 b = true) (hz : isZero32 b = false) :
    RoundsTo (div32 a b) (units a * 2 ^ 149 * (if signBit b then -1 else 1)) (unitsMag b) := by
  have hnum : units a * 2 ^ 149 * (if signBit b then -1 else 1)
      = signed (signBit a != signBit b) (unitsMag a * 2 ^ 149) := by
    rw [units_eq_signed, ← Nat.mul_one (unitsMag a * 2 ^ 149), ← signed_mul]
    cases signBit a <;> cases signBit b <;> simp [signed]
  rw [div32_finite ha hb hz, hnum]
  exact roundsTo_roundUnits _ _ (unitsMag_pos hz)

theorem div32_by_zero {a b : Word} (ha : isFinite32 a = true) (hz : isZero32 b = true) :
    div32 a b = if isZero32 a then qNaN else signedInf (signBit a != signBit b) := by
  simp [div32, isNaN32_of_finite ha, isNaN32_of_zero hz, isInf32_of_finite ha, isInf32_of_zero hz, hz, withSign_infMag]

theorem div32_inf_finite {a b : Word} (ha : isInf32 a = true) (hb : isFinite32 b = true) :
    div32 a b = signedInf (signBit a != signBit b) := by
  simp [div32, ha, isNaN32_of_inf ha, isNaN32_of_finite hb, isInf32_of_finite hb, withSign_infMag]

theorem div32_finite_inf {a b : Word} (ha : isFinite32 a = true) (hb : isInf32 b = true) :
    div32 a b = if signBit a != signBit b then 0x80000000#32 else 0#32 := by
  rw [← withSign_zero]
  simp [div32, hb, isNaN32_of_inf hb, isNaN32_of_finite ha, isInf32_of_finite ha]

theorem div32_inf_inf {a b : Word} (ha : isInf32 a = true) (hb : isInf32 b = true) : div32 a b = qNaN := by
  simp [div32, ha, hb, isNaN32_of_inf ha, isNaN32_of_inf hb]

/-- Settles O51: two finite operands by the rounding rule, an infinity beside a finite value and two infinities by the
operations' cases. -/
theorem arithmeticCorrectlyRounded : Obligations.ArithmeticCorrectlyRounded := by
  intro a b
  refine ⟨fun ha hb => ?_, fun ha hb => ?_, fun ha hb => ?_⟩
  · refine ⟨add32_roundsTo ha hb, sub32_roundsTo ha hb, mul32_roundsTo ha hb, div32_roundsTo ha hb,
      add32_of_sum_zero ha hb, sub32_of_difference_zero ha hb, ?_, fun hz => ?_, div32_by_zero ha⟩
    · rw [mul32_finite ha hb, signBit_roundUnits]
    · rw [div32_finite ha hb hz, signBit_roundUnits]
  · refine ⟨add32_inf_finite ha hb, add32_finite_inf hb ha, sub32_inf_finite ha hb, sub32_finite_inf hb ha,
      mul32_inf_left ha (isNaN32_of_finite hb), mul32_comm b a, div32_inf_finite ha hb, ?_⟩
    rw [div32_finite_inf hb ha, bne_comm]
  · refine ⟨add32_inf_inf ha hb, sub32_inf_inf ha hb, ?_, div32_inf_inf ha hb⟩
    rw [mul32_inf_left ha (isNaN32_of_inf hb), isZero32_of_inf hb, if_neg (by decide)]

/-! ## Remainder (R16) -/

theorem fmod32_finite {a m : Word} (ha : isFinite32 a = true) (hm : isFinite32 m = true) (hz : isZero32 m = false) :
    fmod32 a m = roundUnits (signBit a) (unitsMag a % unitsMag m) 1 := by
  simp [fmod32, isNaN32_of_finite ha, isNaN32_of_finite hm, isInf32_of_finite ha, isInf32_of_finite hm, hz]

theorem fmod32_inf {a m : Word} (ha : isFinite32 a = true) (hm : isInf32 m = true) : fmod32 a m = a := by
  simp [fmod32, isNaN32_of_finite ha, isNaN32_of_inf hm, isInf32_of_finite ha, hm, isZero32_of_inf hm]

theorem fmod32_nan {a m : Word} (h : isFinite32 a = false ∨ isNaN32 m = true ∨ isZero32 m = true) :
    fmod32 a m = qNaN := by
  unfold fmod32
  refine if_pos ?_
  rcases h with ha | hm | hm
  · rcases nan_or_inf ha with ha | ha <;> simp [ha]
  · simp [hm]
  · simp [hm]

/-- The remainder of the magnitudes is a magnitude, so the rounding keeps it. -/
theorem roundMag_mod {a m : Word} (ha : isFinite32 a = true) (hz : isZero32 m = false) :
    roundMag (unitsMag a % unitsMag m) 1 ≤ magBits a ∧
      unitsOfMag (roundMag (unitsMag a % unitsMag m) 1) = unitsMag a % unitsMag m := by
  obtain ⟨r, hle, hr⟩ := unitsOfMag_mod (magBits a) (magBits m) (unitsMag_pos hz)
  have hfin := isFinite32_iff.1 ha
  have hround := roundMag_unitsOfMag Nat.one_pos (show r ≤ infMag by omega)
  rw [Nat.mul_one, hr] at hround
  rw [unitsMag, unitsMag, hround]
  exact ⟨hle, hr⟩

/-- The remainder of magnitudes with the sign of the dividend is truncated division's. -/
theorem signed_tmod (p q : Bool) (m n : Nat) : Int.tmod (signed p m) (signed q n) = signed p (m % n) := by
  cases p <;> cases q <;> simp [signed, Int.neg_tmod, Int.tmod_neg, Int.tmod_eq_emod_of_nonneg]

/-- Settles O52, by the cases of the remainder. -/
theorem fmodExact : Obligations.FmodExact := by
  intro a m
  refine ⟨fun ha hm hz => ?_, fmod32_inf, fmod32_nan⟩
  obtain ⟨hle, hexact⟩ := roundMag_mod ha hz
  have hfin := isFinite32_iff.1 ha
  rw [fmod32_finite ha hm hz]
  refine ⟨?_, signBit_roundUnits _ _ _, ?_⟩
  · rw [units_eq_signed, signBit_roundUnits, unitsMag_roundUnits, hexact, units_eq_signed a, units_eq_signed m,
      signed_tmod]
  · rw [isFinite32_iff, magBits_roundUnits]; omega

/-! ## Comparison (R15) -/

theorem gt32_iff {a b : Word} (ha : isNaN32 a = false) (hb : isNaN32 b = false) :
    gt32 a b = true ↔ orderKey b < orderKey a := by simp [gt32, ha, hb]

theorem gt32_of_nan {a b : Word} (h : isNaN32 a = true ∨ isNaN32 b = true) : gt32 a b = false := by
  rcases h with h | h <;> simp [gt32, h]

/-- The magnitude bounds the place of a word in the order. -/
theorem abs_orderKey (w : Word) : |orderKey w| = magBits w := abs_signed (signBit w) (magBits w)

/-- A finite value stands strictly between the infinities. -/
theorem orderKey_of_finite {w : Word} (h : isFinite32 w = true) : -infMag < orderKey w ∧ orderKey w < infMag := by
  rw [← abs_lt, abs_orderKey]
  exact_mod_cast isFinite32_iff.1 h

/-- Settles O53: the NaN clause and the order of the values by `units_lt_iff`; finite values stand between the infinities. -/
theorem orderedComparison : Obligations.OrderedComparison := by
  intro a b
  refine ⟨gt32_of_nan, fun ha hb => ?_, fun hb => ?_, by decide, by decide, by decide, by decide⟩
  · rw [gt32_iff (isNaN32_of_finite ha) (isNaN32_of_finite hb), units_lt_iff]
  · obtain ⟨hlo, hhi⟩ := orderKey_of_finite hb
    have hpos : orderKey 0x7F800000#32 = infMag := by decide
    have hneg : orderKey 0xFF800000#32 = -infMag := by decide
    have hn := isNaN32_of_finite hb
    have hp : isNaN32 0x7F800000#32 = false := by decide
    have hm : isNaN32 0xFF800000#32 = false := by decide
    simp only [← Bool.not_eq_true, gt32_iff hp hn, gt32_iff hn hp, gt32_iff hn hm, gt32_iff hm hn, hpos, hneg]
    omega

end Sys2Proof.Proofs
end

section
/-! PROOFS. The numeric functions (R14, R19 to R24): canonical NaNs, and the properties of the OPEN functions. -/

namespace Sys2Proof.Proofs

open Sys2Proof.Machine

/-! ## NaN operands (R14) -/

theorem add32_nan {a b : Word} (h : isNaN32 a = true ∨ isNaN32 b = true) : add32 a b = qNaN := by
  unfold add32; exact if_pos (by simpa using h)

theorem sub32_nan {a b : Word} (h : isNaN32 a = true ∨ isNaN32 b = true) : sub32 a b = qNaN :=
  add32_nan (by simpa using h)

theorem mul32_nan {a b : Word} (h : isNaN32 a = true ∨ isNaN32 b = true) : mul32 a b = qNaN := by
  unfold mul32; exact if_pos (by simpa using h)

theorem div32_nan {a b : Word} (h : isNaN32 a = true ∨ isNaN32 b = true) : div32 a b = qNaN := by
  unfold div32; exact if_pos (by simpa using h)

theorem sqrt32_nan {a : Word} (h : isNaN32 a = true) : sqrt32 a = qNaN := if_pos h

theorem sin32_of_not_finite {x : Word} (h : isFinite32 x = false) : sin32 x = qNaN := by simp [sin32, h]

theorem log10_32_nan {x : Word} (h : isNaN32 x = true) : log10_32 x = qNaN := if_pos h

theorem atan2_32_nan {y x : Word} (h : isNaN32 y = true ∨ isNaN32 x = true) : atan2_32 y x = qNaN :=
  if_pos (by simpa using h)

theorem hypot32_nan {a b : Word} (ha : isInf32 a = false) (hb : isInf32 b = false)
    (h : isNaN32 a = true ∨ isNaN32 b = true) : hypot32 a b = qNaN := by
  unfold hypot32
  rw [ha, hb, if_neg (by decide)]
  exact if_pos (by simpa using h)

/-! ## Canonical results (R14) -/

/-- The word is no NaN but the canonical one. -/
def NanCanonical (r : Word) : Prop := isNaN32 r = true → r = qNaN

theorem NanCanonical.qNaN : NanCanonical qNaN := fun _ => rfl

theorem NanCanonical.of_number {r : Word} (h : isNaN32 r = false) : NanCanonical r := fun hn => by
  rw [h] at hn; cases hn

theorem NanCanonical.ite {c : Prop} [Decidable c] {x y : Word} (hx : NanCanonical x) (hy : NanCanonical y) :
    NanCanonical (if c then x else y) := by split <;> assumption

theorem NanCanonical.withSign {neg : Bool} {mag : Nat} (h : mag ≤ infMag) : NanCanonical (withSign neg mag) := by
  apply of_number
  unfold isNaN32
  rw [magBits_withSign (Nat.lt_of_le_of_lt h (by decide))]
  simpa using h

theorem NanCanonical.roundUnits (neg : Bool) (num den : Nat) : NanCanonical (roundUnits neg num den) :=
  of_number (isNaN32_roundUnits neg num den)

theorem NanCanonical.abs32 {a : Word} (h : isNaN32 a = false) : NanCanonical (abs32 a) := by
  apply withSign
  simpa [isNaN32] using h

theorem NanCanonical.boundedBy {bound : Word} (h : isNaN32 bound = false) (v : Word) :
    NanCanonical (boundedBy bound v) := by
  unfold Machine.boundedBy
  split
  · rename_i hle
    refine of_number ?_
    simp only [isNaN32, decide_eq_false_iff_not] at h ⊢
    omega
  · exact of_number (by decide)

/-- An operation whose result is canonical for numbers, and the canonical NaN for NaN operands, is canonical. -/
theorem NanCanonical.of_operands {a b r : Word} (hnan : isNaN32 a = true ∨ isNaN32 b = true → r = Machine.qNaN)
    (hnum : isNaN32 a = false → isNaN32 b = false → NanCanonical r) : NanCanonical r := by
  cases ha : isNaN32 a
  · cases hb : isNaN32 b
    · exact hnum ha hb
    · rw [hnan (.inr hb)]; exact .qNaN
  · rw [hnan (.inl ha)]; exact .qNaN

theorem add32_canonical (a b : Word) : NanCanonical (add32 a b) := by
  refine .of_operands add32_nan fun ha hb => ?_
  simp only [add32, ha, hb, Bool.or_false, Bool.false_eq_true, if_false]
  exact .ite (.ite .qNaN (.of_number ha)) (.ite (.of_number hb) (.ite (.withSign (by decide)) (.roundUnits _ _ _)))

theorem sub32_canonical (a b : Word) : NanCanonical (sub32 a b) := add32_canonical a (neg32 b)

theorem mul32_canonical (a b : Word) : NanCanonical (mul32 a b) := by
  unfold mul32
  exact .ite .qNaN (.ite (.ite .qNaN (.withSign (by decide))) (.roundUnits _ _ _))

theorem div32_canonical (a b : Word) : NanCanonical (div32 a b) := by
  unfold div32
  exact .ite .qNaN (.ite (.ite .qNaN (.withSign (by decide))) (.ite (.withSign (by decide))
    (.ite (.ite .qNaN (.withSign (by decide))) (.roundUnits _ _ _))))

theorem fmod32_canonical (a m : Word) : NanCanonical (fmod32 a m) := by
  cases ha : isNaN32 a
  · unfold fmod32
    exact .ite .qNaN (.ite (.of_number ha) (.roundUnits _ _ _))
  · rw [fmod32_nan (.inl (isFinite32_of_nan ha))]; exact .qNaN

theorem sqrt32_canonical (a : Word) : NanCanonical (sqrt32 a) := by
  cases ha : isNaN32 a
  · unfold sqrt32
    exact .ite .qNaN (.ite (.of_number ha) (.ite .qNaN (.ite (.of_number ha) (.roundUnits _ _ _))))
  · rw [sqrt32_nan ha]; exact .qNaN

theorem sin32_canonical (x : Word) : NanCanonical (sin32 x) := by
  unfold sin32
  exact .ite .qNaN (.ite (.of_number (by decide)) (.boundedBy (by decide) _))

/-- No exponent of the table of powers of ten is a NaN. -/
theorem powersOfTen_numbers : ∀ p ∈ powersOfTen, isNaN32 p.2 = false := by
  rw [← List.forall_iff_forall_mem]; decide

theorem log10_32_canonical (x : Word) : NanCanonical (log10_32 x) := by
  cases hx : isNaN32 x
  · unfold log10_32
    refine .ite .qNaN (.ite (.withSign (by decide)) (.ite .qNaN (.ite (.of_number hx) ?_)))
    split
    · rename_i k hk
      obtain ⟨l₁, l₂, htable, -⟩ := List.lookup_eq_some_iff.1 hk
      exact .of_number (powersOfTen_numbers (x, k) (by simp [htable]))
    · exact canonNaN_canonical _
  · rw [log10_32_nan hx]; exact .qNaN

theorem atan2_32_canonical (y x : Word) : NanCanonical (atan2_32 y x) := by
  unfold atan2_32
  refine .ite .qNaN (.ite (.withSign ?_) (.ite (.withSign ?_) (.boundedBy (by decide) _)))
  · split <;> decide
  · split <;> decide

theorem hypot32_canonical (a b : Word) : NanCanonical (hypot32 a b) := by
  cases hinf : isInf32 a || isInf32 b
  · obtain ⟨ha, hb⟩ := Bool.or_eq_false_iff.1 hinf
    refine .of_operands (hypot32_nan ha hb) fun hna hnb => ?_
    unfold hypot32
    exact .ite (.withSign (by decide)) (.ite .qNaN (.ite (.abs32 hna) (.ite (.abs32 hnb)
      (.ite (canonNaN_canonical _) (canonNaN_canonical _)))))
  · unfold hypot32
    rw [if_pos hinf]
    exact .withSign (by decide)

theorem ratioMagnitude_canonical (ratio : Word × Word) : NanCanonical (ratioMagnitude ratio) := mul32_canonical _ _

theorem ratioPhase_canonical (ratio : Word × Word) : NanCanonical (ratioPhase ratio) :=
  .ite (.of_number (by decide)) (mul32_canonical _ _)

/-- Settles O54: the canonical results, the NaN operands, and the NaNs of the transform. -/
theorem nanResultsAreCanonical : Obligations.NanResultsAreCanonical := by
  intro a b
  refine ⟨?_, fun v z hz => ?_, fun h => ?_, fun h => ⟨sqrt32_nan h, sin32_of_not_finite (isFinite32_of_nan h),
    log10_32_nan h⟩, fun v k n hn hnan => rdftBin_nan hn hnan⟩
  · simp only [List.forall_mem_cons]
    exact ⟨add32_canonical a b, sub32_canonical a b, mul32_canonical a b, div32_canonical a b, fmod32_canonical a b,
      sqrt32_canonical a, sin32_canonical a, log10_32_canonical a, atan2_32_canonical a b, hypot32_canonical a b,
      ratioMagnitude_canonical _, ratioPhase_canonical _, List.forall_mem_nil _⟩
  · obtain ⟨k, -, rfl⟩ := List.mem_map.1 hz
    exact rdftBin_canonical v k
  · exact ⟨add32_nan h, sub32_nan h, mul32_nan h, div32_nan h, fmod32_nan (h.imp isFinite32_of_nan .inl),
      atan2_32_nan h, fun ha hb => hypot32_nan ha hb h⟩

/-! ## The sine (R19) -/

/-- A value of a magnitude within a bound is a number between the bound and its negation. -/
theorem within_bound {w bound : Word} (hb : isNaN32 bound = false) (hs : signBit bound = false)
    (h : magBits w ≤ magBits bound) :
    isNaN32 w = false ∧ gt32 w bound = false ∧ gt32 (neg32 bound) w = false := by
  have hw : isNaN32 w = false := by
    simp only [isNaN32, decide_eq_false_iff_not] at hb ⊢
    omega
  have hkey : orderKey bound = magBits bound := by simp [orderKey, hs]
  have hneg : orderKey (neg32 bound) = -magBits bound := by simp [orderKey, signBit_neg32 hb, hs]
  obtain ⟨hlo, hhi⟩ := abs_le.1 ((abs_orderKey w).trans_le (Int.ofNat_le.2 h))
  refine ⟨hw, ?_, ?_⟩
  · rw [← Bool.not_eq_true, gt32_iff hw hb, hkey]; omega
  · rw [← Bool.not_eq_true, gt32_iff (by simpa using hb) hw, hneg]; omega

theorem magBits_boundedBy_le (bound v : Word) : magBits (boundedBy bound v) ≤ magBits bound := by
  unfold boundedBy
  split
  · assumption
  · exact Nat.zero_le _

theorem magBits_sin32_le {x : Word} (h : isFinite32 x = true) : magBits (sin32 x) ≤ magBits fOne := by
  simp only [sin32, h, Bool.not_true, Bool.false_eq_true, if_false]
  split
  · decide
  · exact magBits_boundedBy_le _ _

/-- S2 of R19. -/
theorem sin32_within_one {x : Word} (h : isFinite32 x = true) :
    isNaN32 (sin32 x) = false ∧ gt32 (sin32 x) 0x3F800000#32 = false ∧ gt32 0xBF800000#32 (sin32 x) = false :=
  within_bound (bound := fOne) (by decide) (by decide) (magBits_sin32_le h)

/-- S3 of R19. -/
theorem sin32_zero : sin32 0#32 = 0#32 := rfl

/-! ## The logarithm (R20) -/

/-- The table holds the powers of ten from 10^0 to 10^10, with their exponents. -/
theorem powersOfTen_eq :
    powersOfTen = (List.range 11).map fun k => (roundUnits false (10 ^ k * 2 ^ 149) 1, roundUnits false (k * 2 ^ 149) 1) := by
  decide +kernel

theorem log10_32_table : ∀ p ∈ powersOfTen, log10_32 p.1 = p.2 := by
  rw [← List.forall_iff_forall_mem]; decide

/-- L2 and L6 of R20. -/
theorem log10_32_powerOfTen {k : Nat} (h : k ≤ 10) :
    log10_32 (roundUnits false (10 ^ k * 2 ^ 149) 1) = roundUnits false (k * 2 ^ 149) 1 := by
  refine log10_32_table (_, _) ?_
  rw [powersOfTen_eq]
  exact List.mem_map.2 ⟨k, List.mem_range.2 (by omega), rfl⟩

/-- A value below zero has the sign 1 and is no zero. -/
theorem negative_of_gt32 {x : Word} (h : gt32 0#32 x = true) :
    isNaN32 x = false ∧ signBit x = true ∧ isZero32 x = false := by
  cases hn : isNaN32 x
  · have hlt : orderKey x < 0 := (gt32_iff (by decide) hn).1 h
    unfold orderKey at hlt
    split at hlt
    · rename_i hs
      refine ⟨rfl, hs, ?_⟩
      rw [← Bool.not_eq_true, isZero32_iff]
      omega
    · omega
  · rw [gt32_of_nan (.inr hn)] at h; cases h

/-- A value above zero has the sign 0. -/
theorem positive_of_gt32 {x : Word} (h : gt32 x 0#32 = true) : signBit x = false := by
  cases hn : isNaN32 x
  · have hlt : 0 < orderKey x := (gt32_iff hn (by decide)).1 h
    unfold orderKey at hlt
    split at hlt
    · omega
    · rename_i hs; exact Bool.eq_false_iff.2 hs
  · rw [gt32_of_nan (.inl hn)] at h; cases h

/-- L5 of R20. -/
theorem log10_32_invalid {x : Word} (h : isNaN32 x = true ∨ gt32 0#32 x = true) : log10_32 x = qNaN := by
  rcases h with h | h
  · exact log10_32_nan h
  · obtain ⟨hn, hs, hz⟩ := negative_of_gt32 h
    simp [log10_32, hn, hs, hz]

/-! ## The arctangent (R21) -/

/-- A2 of R21, and its value for a zero of either sign. -/
theorem atan2_32_zero {y x : Word} (hy : isZero32 y = true) (hx : isNaN32 x = false) :
    atan2_32 y x = withSign (signBit y) (if signBit x then magBits pi32 else 0) := by
  simp [atan2_32, isNaN32_of_zero hy, hx, hy]

theorem magBits_atan2_32_le {y x : Word} (hy : isNaN32 y = false) (hx : isNaN32 x = false) :
    magBits (atan2_32 y x) ≤ magBits pi32 := by
  simp only [atan2_32, hy, hx, Bool.or_false, Bool.false_eq_true, if_false]
  split
  · cases signBit y <;> cases signBit x <;> decide
  · split
    · cases signBit y <;> cases signBit x <;> decide
    · exact magBits_boundedBy_le _ _

/-- The range of R21. -/
theorem atan2_32_within_pi {y x : Word} (hy : isNaN32 y = false) (hx : isNaN32 x = false) :
    isNaN32 (atan2_32 y x) = false ∧ gt32 (atan2_32 y x) 0x40490FDB#32 = false ∧
      gt32 0xC0490FDB#32 (atan2_32 y x) = false :=
  within_bound (bound := pi32) (by decide) (by decide) (magBits_atan2_32_le hy hx)

theorem atan2_32_zero_of_sign_zero {x : Word} (hx : isNaN32 x = false) (hs : signBit x = false) :
    atan2_32 0#32 x = 0#32 ∧ atan2_32 0x80000000#32 x = 0x80000000#32 := by
  rw [atan2_32_zero (by decide) hx, atan2_32_zero (by decide) hx, hs]
  decide

theorem atan2_32_zero_of_sign_one {x : Word} (hx : isNaN32 x = false) (hs : signBit x = true) :
    atan2_32 0#32 x = 0x40490FDB#32 ∧ atan2_32 0x80000000#32 x = 0xC0490FDB#32 := by
  rw [atan2_32_zero (by decide) hx, atan2_32_zero (by decide) hx, hs]
  decide

/-! ## The hypotenuse (R22) -/

theorem abs32_neg32 (a : Word) : abs32 (neg32 a) = abs32 a := by rw [abs32, magBits_neg32, abs32]

/-- H2 of R22. -/
theorem hypot32_zero {a b : Word} (hb : isZero32 b = true) (ha : isNaN32 a = false) : hypot32 a b = abs32 a := by
  cases hi : isInf32 a
  · simp [hypot32, hi, isInf32_of_zero hb, ha, isNaN32_of_zero hb, hb]
  · simp [hypot32, hi, abs32, isInf32_iff.1 hi]

/-- H3 of R22. -/
theorem hypot32_inf {a : Word} (b : Word) (ha : isInf32 a = true) : hypot32 a b = 0x7F800000#32 := by
  simp only [hypot32, ha, Bool.true_or, if_true]
  rfl

/-- The OPEN value takes the larger magnitude first, so the order of the operands does not matter. -/
theorem hypot32_comm (a b : Word) : hypot32 a b = hypot32 b a := by
  unfold hypot32
  rw [Bool.or_comm (isInf32 b), Bool.or_comm (isNaN32 b)]
  congr 2
  cases ha : isZero32 a <;> cases hb : isZero32 b <;> simp only [Bool.false_eq_true, if_false, if_true]
  · rcases Nat.lt_trichotomy (magBits a) (magBits b) with h | h | h
    · rw [if_pos h, if_neg (by omega)]
    · rw [if_neg (by omega), if_neg (by omega), abs32, abs32, h]
    · rw [if_neg (by omega), if_pos h]
  · rw [abs32, abs32, isZero32_iff.1 ha, isZero32_iff.1 hb]

/-- H4 of R22: only the magnitude of an operand enters. -/
theorem hypot32_neg32 (a b : Word) : hypot32 (neg32 a) b = hypot32 a b := by
  simp only [hypot32, isInf32_neg32, isNaN32_neg32, isZero32_neg32, magBits_neg32, abs32_neg32]

/-- Settles O55, property by property. -/
theorem numericFunctionProperties : Obligations.NumericFunctionProperties := by
  refine ⟨fun x => sin32_within_one, sin32_zero, fun x => sin32_of_not_finite, fun k => log10_32_powerOfTen, rfl, rfl, rfl,
    fun x => log10_32_invalid, fun y x => atan2_32_within_pi, fun x hx => ⟨?_, ?_⟩, fun y x => atan2_32_nan,
    fun a b => hypot32_zero, fun a b => hypot32_inf b, fun a b => hypot32_nan,
    fun a b => ⟨hypot32_comm a b, hypot32_neg32 a b⟩⟩
  · rintro (h | rfl)
    · exact atan2_32_zero_of_sign_zero hx (positive_of_gt32 h)
    · exact atan2_32_zero_of_sign_zero hx (by decide)
  · rintro (h | rfl)
    · obtain ⟨-, hs, -⟩ := negative_of_gt32 h
      exact atan2_32_zero_of_sign_one hx hs
    · exact atan2_32_zero_of_sign_one hx (by decide)

/-! ## The transform (R23) -/

/-- D1 of R23. -/
theorem length_rdft32 (v : List Word) : (rdft32 v).length = v.length / 2 + 1 := by simp [rdft32]

/-- The components D4 of R23 fixes. -/
theorem rdftBin_im_of_finite {v : List Word} {k : Nat} (hv : v.all isFinite32 = true) (hk : k = 0 ∨ 2 * k = v.length) :
    (rdftBin v k).2 = fZero := by
  have hcond : (v.all isFinite32 && (k == 0 || 2 * k == v.length)) = true := by simpa [hv] using hk
  simp only [rdftBin, nanEnters_of_finite _ hv, hcond, Bool.false_eq_true, if_false, if_true]

/-- D2 of R23 for an imaginary part D4 does not fix. -/
theorem rdftBin_im_neg32 {v : List Word} {k : Nat}
    (h : (∃ x ∈ v, isFinite32 x = false) ∨ (k ≠ 0 ∧ 2 * k ≠ v.length)) :
    (rdftBin (v.map neg32) k).2 = neg32 (rdftBin v k).2 := by
  rw [rdftBin_neg32]
  refine if_neg ?_
  rw [Bool.and_eq_true, not_and_or]
  refine h.imp (fun hx => ?_) (fun hk => ?_)
  · simpa using hx
  · simpa using hk

/-- Settles O56. -/
theorem transformProperties : Obligations.TransformProperties := by
  intro v _
  refine ⟨length_rdft32 v, fun k => by rw [rdftBin_neg32], fun k => rdftBin_im_neg32, fun hv => ?_⟩
  have hall : v.all isFinite32 = true := List.all_eq_true.2 hv
  exact ⟨rdftBin_im_of_finite hall (.inl rfl), fun hdvd => rdftBin_im_of_finite hall (.inr (Nat.mul_div_cancel' hdvd))⟩

/-! ## One bin (R24, R131 to R133) -/

/-- Settles O41: both sides are the operations of R24 and R131 to R133 in one order. -/
theorem spectrumBinFormula : Obligations.SpectrumBinFormula := fun _ _ _ _ => ⟨rfl, rfl⟩

/-! ## The state after reset (R7, R45, R58) -/

/-- The analyzer after reset is unconfigured and idle: it has no run, so no word need be written. -/
theorem anInv_reset : AnInv State.reset where
  unconfigured := fun _ => ⟨rfl, rfl⟩
  configured := fun h => absurd rfl h
  lenLeCap := Nat.le_refl _
  posLeLen := Nat.le_refl _
  kLe := Nat.zero_le _
  idle := fun _ => rfl
  chunks := nofun
  processed := nofun
  done := nofun
  inWritten := rfl
  outWritten := rfl

/-- The SG registers after reset are the increments of the others (R45); the constants are compared by evaluation. -/
theorem sgInv_reset : SgInv State.reset.sg := by decide +kernel

/-- Settles O57: DMEM is empty after reset, so its form holds of no cell. -/
theorem resetMeetsTheInvariant : Obligations.ResetMeetsTheInvariant :=
  ⟨by decide, ⟨List.Pairwise.nil, nofun⟩, sgInv_reset, anInv_reset⟩

end Sys2Proof.Proofs
end

section
/-! PROOFS. The SG invariants (R40, R42, R43, R45): the wrap of R94 answers a phase in range, a setter recomputes what it
invalidates, and a generator step keeps all three. -/

namespace Sys2Proof.Proofs

open Sys2Proof.Machine

/-! ## The phase wrap (R94) -/

/-- A word with the sign 0 is not below zero. -/
theorem not_negative_of_sign {w : Word} (h : signBit w = false) : gt32 fZero w = false := by
  rw [← Bool.not_eq_true]
  intro hlt
  obtain ⟨-, hs, -⟩ := negative_of_gt32 hlt
  rw [h] at hs; cases hs

/-- A value not below zero and of magnitude at most TWO_PI is a phase. -/
theorem phaseInRange_of_magBits_le {w : Word} (hpos : gt32 fZero w = false) (hle : magBits w ≤ magBits twoPi) :
    phaseInRange w = true := by
  obtain ⟨-, hup, -⟩ := within_bound (bound := twoPi) (by decide) (by decide) hle
  simp [phaseInRange, hpos, hup]

/-- The exact remainder by TWO_PI is smaller than TWO_PI in magnitude. -/
theorem magBits_fmod32_twoPi_lt {p : Word} (hp : isFinite32 p = true) : magBits (fmod32 p twoPi) < magBits twoPi := by
  have hz : isZero32 twoPi = false := by decide
  obtain ⟨-, hexact⟩ := roundMag_mod hp hz
  rw [← unitsOfMag_lt_iff, fmod32_finite hp (by decide) hz, magBits_roundUnits, hexact]
  exact Nat.mod_lt _ (unitsMag_pos hz)

/-- A negative value plus a positive one of larger magnitude is positive and at most the larger one: the exact sum is, and
rounding keeps the order (R12). -/
theorem add32_of_smaller_negative {r m : Word} (hr : signBit r = true) (hm : signBit m = false)
    (hfin : isFinite32 m = true) (hlt : magBits r < magBits m) :
    signBit (add32 r m) = false ∧ magBits (add32 r m) ≤ magBits m := by
  have hrfin : isFinite32 r = true := isFinite32_iff.2 (hlt.trans (isFinite32_iff.1 hfin))
  have hmag : unitsMag r < unitsMag m := unitsOfMag_lt_iff.2 hlt
  have hru : units r = -(unitsMag r : Int) := by rw [units_eq_signed, hr]; rfl
  have hmu : units m = (unitsMag m : Int) := by rw [units_eq_signed, hm]; rfl
  have hsign : sumSign r m = false := by
    rw [sumSign, if_neg (by omega), decide_eq_false_iff_not]; omega
  rw [add32_finite hrfin hfin, hsign, signBit_roundUnits, magBits_roundUnits]
  refine ⟨rfl, roundMag_le_of_le Nat.one_pos ?_⟩
  change _ ≤ unitsMag m * 1
  omega

theorem wrapPhase_eq (p : Word) : wrapPhase p =
    if gt32 fZero (fmod32 p twoPi) then add32 (fmod32 p twoPi) twoPi else fmod32 p twoPi := rfl

/-- `WRAP` answers a phase in [0, TWO_PI], or a NaN for an operand that is not finite (R94). -/
theorem wrapPhase_inRange (p : Word) : phaseInRange (wrapPhase p) = true := by
  rw [wrapPhase_eq]
  cases hp : isFinite32 p with
  | false => rw [fmod32_nan (.inl hp)]; decide
  | true =>
    have hlt := magBits_fmod32_twoPi_lt hp
    split
    · rename_i hneg
      obtain ⟨-, hr, -⟩ := negative_of_gt32 hneg
      obtain ⟨hsign, hle⟩ := add32_of_smaller_negative hr (by decide) (by decide) hlt
      exact phaseInRange_of_magBits_le (not_negative_of_sign hsign) hle
    · rename_i hpos
      exact phaseInRange_of_magBits_le (Bool.eq_false_iff.2 hpos) hlt.le

/-! ## Generator steps and setters (R95 to R100) -/

/-- A generator step recomputes PINC from the new FREQ and wraps the phase; FINC and its operands stay (R95). -/
theorem sgInv_sgStep {g : SweepGen} (h : SgInv g) : SgInv (sgStep g).gen := by
  obtain ⟨-, hfinc, -⟩ := h
  exact ⟨rfl, hfinc, wrapPhase_inRange _⟩

theorem sgInv_genAfter {g : SweepGen} (h : SgInv g) (n : Nat) : SgInv (genAfter g n) := by
  induction n with
  | zero => exact h
  | succ n ih => rw [genAfter_succ']; exact sgInv_sgStep ih

/-- Recomputing FINC restores the invariants when the setter left FREQ, FS, PINC and PHASE alone (R43, R97 to R99). -/
theorem sgInv_withFinc {g : SweepGen} (hpinc : g.pinc = pincOf g.freq g.fs) (hphase : phaseInRange g.phase = true) :
    SgInv (withFinc g) := ⟨hpinc, rfl, hphase⟩

/-- A zero phase, where SG_INIT and SG_START begin (R96, R100). -/
theorem phaseInRange_zero : phaseInRange fZero = true := by decide

/-- Every command keeps the SG invariants: those of another unit keep the SG registers. -/
theorem exec_keeps_sgInv {i : Instr} {s t : State} (hinv : SgInv s.sg) (h : exec i s = .next t) : SgInv t.sg := by
  obtain ⟨hpinc, hfinc, hphase⟩ := hinv
  cases i with
  | sysReset => cases h; exact sgInv_reset
  | sgInit => cases h; exact sgInv_withFinc rfl phaseInRange_zero
  | sgSetRange => cases h; exact sgInv_withFinc hpinc hphase
  | sgSetTime => cases h; exact sgInv_withFinc hpinc hphase
  | sgSetGain => cases h; exact sgInv_withFinc hpinc hphase
  | sgStart => cases h; exact ⟨rfl, hfinc, phaseInRange_zero⟩
  | sgProcess n =>
    obtain ⟨-, rfl⟩ | ⟨-, -, rfl⟩ | ⟨hfit, -, r, hr, rfl⟩ := execSgProcess_next h
    · exact ⟨hpinc, hfinc, hphase⟩
    · exact ⟨hpinc, hfinc, hphase⟩
    · obtain ⟨r', hr', hspec⟩ := sgFill_spec (n := n) (a := u32Arg s .arg0) (g := s.sg) (d := s.dmem) hfit
      obtain rfl : r = r' := Except.ok.inj (hr.symm.trans hr')
      change SgInv r.gen
      rw [hspec.gen]
      exact sgInv_genAfter ⟨hpinc, hfinc, hphase⟩ _
  | _ => rw [(exec_frame h).sg nofun rfl]; exact ⟨hpinc, hfinc, hphase⟩

/-- Settles O58: a step is idle, a hardware reset, a command, or an access that keeps the SG registers. -/
theorem stepKeepsSgInvariant : Obligations.StepKeepsSgInvariant := by
  intro s t hinv h
  obtain ⟨-, rfl⟩ | ⟨e, rest, -, ⟨-, rfl⟩ | ⟨-, i, hi⟩ | ⟨-, -, hsg, -⟩⟩ := step_next h
  · exact hinv
  · exact sgInv_reset
  · exact exec_keeps_sgInv (s := { s with hostQueue := rest }) hinv hi
  · rw [hsg]; exact hinv

end Sys2Proof.Proofs
end

section
/-! PROOFS. The analyzer's invariants (R50 to R56, R121, R122, R125, R137). A command leaves the run alone, clears it, seeds
it, or moves its cursor and state on: one lemma for each, and every command by one of them. -/

namespace Sys2Proof.Proofs

open Sys2Proof.Machine

/-! ## What the invariants depend on -/

/-- The marks of one DMEM are in the other. -/
abbrev KeepsMarks (m m' : Memory) : Prop := ∀ b, (readWord m b).isSome → (readWord m' b).isSome

theorem writtenRegion_mono {m m' : Memory} (hmarks : KeepsMarks m m') {a n : Nat} (h : writtenRegion m a n = true) :
    writtenRegion m' a n = true :=
  writtenRegion_iff.2 fun i hi => hmarks _ (writtenRegion_iff.1 h i hi)

theorem u32Word_toNat_le (n : Nat) : (u32Word n).toNat ≤ n := by
  rw [u32Word, BitVec.toNat_ofNat]; exact Nat.mod_le _ _

theorem binCount_le_binCapacity {n cap : Nat} (h : n ≤ cap) : binCount n ≤ binCapacity cap :=
  Nat.succ_le_succ (Nat.div_le_div_right h)

/-- A step that changes nothing of the analyzer but K keeps the invariants, when K stays within M. -/
theorem anInv_of_bins {s t : State} (h : AnInv s) (hbuild : t.build = s.build)
    (han : t.an = { s.an with k := t.an.k }) (hmarks : KeepsMarks s.mem t.mem)
    (hzero : s.an.cap.toNat = 0 → t.an.k.toNat = 0) (hk : t.an.k.toNat ≤ binCapacity s.an.cap.toNat) : AnInv t := by
  generalize t.an.k = k at *
  exact
    { unconfigured := by rw [han]; exact fun hcap => ⟨(h.unconfigured hcap).1, hzero hcap⟩
      configured := by rw [han, hbuild]; exact h.configured
      lenLeCap := by rw [han]; exact h.lenLeCap
      posLeLen := by rw [han]; exact h.posLeLen
      kLe := by rw [han]; exact hk
      idle := by rw [han]; exact h.idle
      chunks := by rw [han]; exact h.chunks
      processed := by rw [han]; exact h.processed
      done := by rw [han]; exact h.done
      inWritten := by rw [han]; exact writtenRegion_mono hmarks h.inWritten
      outWritten := by rw [han]; exact writtenRegion_mono hmarks h.outWritten }

/-- A step that leaves the AN registers alone and keeps the marks keeps the invariants. -/
theorem anInv_of_marks {s t : State} (h : AnInv s) (hbuild : t.build = s.build) (han : t.an = s.an)
    (hmarks : KeepsMarks s.mem t.mem) : AnInv t :=
  anInv_of_bins h hbuild (by rw [han]) hmarks (by rw [han]; exact fun hcap => (h.unconfigured hcap).2)
    (by rw [han]; exact h.kLe)

/-- A command that raises changes nothing the invariants speak of. -/
theorem anInv_withResult {s : State} (h : AnInv s) (c : ResultCode) : AnInv (s.withResult c) :=
  anInv_of_marks h rfl rfl fun _ hb => hb

/-- The configuration fits in DMEM (R121). -/
abbrev ConfigFits (s : State) : Prop :=
  s.an.bs.toNat ≠ 0 ∧ s.an.base.toNat + runWords s.an.cap.toNat ≤ s.build.dmemWords

/-- With the run cleared only the configuration is left to check: no word need be written. -/
theorem anInv_of_cleared {t : State} (hcleared : clearRun t.an = t.an) (hfits : t.an.cap.toNat ≠ 0 → ConfigFits t) :
    AnInv t := by
  have hlen : t.an.len.toNat = 0 := congrArg (fun a => a.len.toNat) hcleared.symm
  have hpos : t.an.pos.toNat = 0 := congrArg (fun a => a.pos.toNat) hcleared.symm
  have hk : t.an.k.toNat = 0 := congrArg (fun a => a.k.toNat) hcleared.symm
  have hidle : t.an.state = .idle := congrArg Analyzer.state hcleared.symm
  exact
    { unconfigured := fun _ => ⟨hidle, hk⟩
      configured := hfits
      lenLeCap := by omega
      posLeLen := by omega
      kLe := by omega
      idle := fun _ => hlen
      chunks := by rw [hidle]; nofun
      processed := by rw [hidle]; nofun
      done := by rw [hidle]; nofun
      inWritten := by rw [hlen]; rfl
      outWritten := by rw [hlen]; rfl }

/-- What the state of a run says of its cursor (R56, R137): no run is idle. -/
def CursorAt (a : AnState) (pos len : Nat) : Prop :=
  match a with
  | .idle => False
  | .chunks => pos < len
  | .processed => pos = len
  | .done => pos = len

theorem CursorAt.le {a : AnState} {pos len : Nat} (h : CursorAt a pos len) : pos ≤ len := by
  cases a with
  | idle => exact h.elim
  | chunks => exact Nat.le_of_lt h
  | processed => exact Nat.le_of_eq h
  | done => exact Nat.le_of_eq h

/-- A run whose samples are written meets the invariants, wherever its cursor is. -/
theorem anInv_of_run {t : State} (hfits : ConfigFits t) (hlen : 0 < t.an.len.toNat)
    (hcap : t.an.len.toNat ≤ t.an.cap.toNat) (hk : t.an.k.toNat ≤ binCapacity t.an.cap.toNat)
    (hcursor : CursorAt t.an.state t.an.pos.toNat t.an.len.toNat)
    (hin : writtenRegion t.mem (inBase t.an) t.an.len.toNat = true)
    (hout : writtenRegion t.mem (outBase t.an) t.an.len.toNat = true) : AnInv t where
  unconfigured := fun h0 => by omega
  configured := fun _ => hfits
  lenLeCap := hcap
  posLeLen := hcursor.le
  kLe := hk
  idle := fun hs => by rw [hs] at hcursor; exact hcursor.elim
  chunks := fun hs => by rw [hs] at hcursor; exact hcursor
  processed := fun hs => by rw [hs] at hcursor; exact ⟨hlen, hcursor⟩
  done := fun hs => by rw [hs] at hcursor; exact ⟨hlen, hcursor⟩
  inWritten := hin
  outWritten := hout

/-- A run stays one when only its cursor, its bins and its state change, and the marks are kept. -/
theorem anInv_of_moved {s t : State} (h : AnInv s) (hlen : 0 < s.an.len.toNat) (hbuild : t.build = s.build)
    (han : t.an = { s.an with pos := t.an.pos, k := t.an.k, state := t.an.state }) (hmarks : KeepsMarks s.mem t.mem)
    (hk : t.an.k.toNat ≤ binCapacity s.an.cap.toNat)
    (hcursor : CursorAt t.an.state t.an.pos.toNat s.an.len.toNat) : AnInv t := by
  have hle := h.lenLeCap
  obtain ⟨hbs, hfit⟩ := h.configured (by omega)
  have hcap : t.an.cap = s.an.cap := by rw [han]
  have hlen' : t.an.len = s.an.len := by rw [han]
  refine anInv_of_run ?_ ?_ ?_ ?_ ?_ ?_ ?_
  · rw [ConfigFits, hbuild, han]; exact ⟨hbs, hfit⟩
  · rwa [hlen']
  · rwa [hlen', hcap]
  · rwa [hcap]
  · rwa [hlen']
  · rw [han]; exact writtenRegion_mono hmarks h.inWritten
  · rw [han]; exact writtenRegion_mono hmarks h.outWritten

/-! ## Seeding a run (R125, R130) -/

/-- A run whose sweep fits, before its first chunk: it has a sample, AN_LEN holds their number, IN and OUT hold them. -/
theorem anInv_seeded {s : State} {r : SeedResult} (h : AnInv s) (hcap : s.an.cap.toNat ≠ 0) (hr : seedRun s = .ok r)
    (hends : r.fits = true) :
    AnInv (r.state.withAnState .chunks) ∧ 0 < r.len ∧ r.state.an.len = u32Word r.len ∧ (u32Word r.len).toNat = r.len := by
  obtain ⟨hbs, hfit⟩ := h.configured hcap
  obtain ⟨r', hr', hstate, han, -, -, hseed, -⟩ := seedRun_spec hfit
  obtain rfl : r = r' := Except.ok.inj (hr.symm.trans hr')
  obtain ⟨⟨hpos, -, -⟩, hle, -, hsamples, -⟩ := hseed hends
  have hbuild : r.state.build = s.build := by rw [hstate]
  have hword : (u32Word r.len).toNat = r.len := u32Word_toNat (Nat.lt_of_le_of_lt hle s.an.cap.isLt)
  rw [hends, if_pos rfl] at han
  refine ⟨?_, hpos, by rw [han], hword⟩
  generalize r.state.an.gen = g at han
  have hrun : (r.state.withAnState .chunks).an =
      { clearRun s.an with len := u32Word r.len, gen := g, state := .chunks } := by rw [State.withAnState_an, han]
  refine anInv_of_run ?_ ?_ ?_ ?_ ?_ ?_ ?_
  · rw [ConfigFits, hrun, State.withAnState_build, hbuild]; exact ⟨hbs, hfit⟩
  · rwa [hrun, hword]
  · rwa [hrun, hword]
  · rw [hrun]; exact Nat.zero_le _
  · rw [hrun]; exact Nat.lt_of_lt_of_eq hpos hword.symm
  · rw [hrun, hword]
    exact writtenRegion_iff.2 fun i hi => Option.isSome_of_eq_some (hsamples i hi).1
  · rw [hrun, hword]
    exact writtenRegion_iff.2 fun i hi => Option.isSome_of_eq_some (hsamples i hi).2

/-- A run whose sweep does not fit is cleared (R125, R146). -/
theorem anInv_capacity {s : State} {r : SeedResult} (h : AnInv s) (hr : seedRun s = .ok r) (hends : r.fits = false) :
    AnInv { r.state with res0 := r.state.an.cap, result := .capacity } := by
  obtain ⟨g, d, -, hstate⟩ := seedRun_ok hr
  rw [hends] at hstate
  rw [hstate]
  exact anInv_of_cleared rfl h.configured

/-- A run whose spectra are written is over: the cursor is at its end and K is the number of its bins (R129, R130). -/
theorem anInv_of_done {s t : State} (h : AnInv s) (hlen : 0 < s.an.len.toNat) (hbuild : t.build = s.build)
    (han : t.an = { s.an with pos := s.an.len, k := u32Word (binCount s.an.len.toNat), state := .done })
    (hmarks : KeepsMarks s.mem t.mem) : AnInv t := by
  refine anInv_of_moved h hlen hbuild (by rw [han]) hmarks ?_ ?_
  · rw [han]; exact (u32Word_toNat_le _).trans (binCount_le_binCapacity h.lenLeCap)
  · rw [han]; exact rfl

/-! ## The commands -/

/-- AN_NEXT answers SEQUENCE, or moves the cursor of a run in CHUNKS over the next chunk (R127). -/
theorem execAnNext_an {s t : State} (h : execAnNext s = .next t) :
    t.an = s.an ∨
      (s.an.state = .chunks ∧ ∃ pos, pos = s.an.pos.toNat + chunkLen s.an.bs.toNat s.an.len.toNat s.an.pos.toNat ∧
        t.an = { s.an with pos := u32Word pos, state := if pos = s.an.len.toNat then .processed else .chunks }) := by
  unfold execAnNext at h
  split at h
  · cases h; exact .inl rfl
  · rename_i hs; cases h; exact .inr ⟨by simpa using hs, _, rfl, rfl⟩

/-- The cursor after the next chunk is the end of the run, in PROCESSED, or before it, in CHUNKS (R126). -/
theorem anInv_anNext {s t : State} (hinv : AnInv s) (h : exec .anNext s = .next t) : AnInv t := by
  obtain ⟨hbuild, -, -, hkeeps⟩ := exec_keeps h
  obtain han | ⟨hstate, pos, hpos, han⟩ := execAnNext_an h
  · exact anInv_of_marks hinv hbuild han hkeeps.marks
  · have hlt := hinv.chunks hstate
    have hle : pos ≤ s.an.len.toNat := by unfold chunkLen at hpos; omega
    have hword : (u32Word pos).toNat = pos := u32Word_toNat (Nat.lt_of_le_of_lt hle s.an.len.isLt)
    refine anInv_of_moved hinv (by omega) hbuild (by rw [han]) hkeeps.marks (by rw [han]; exact hinv.kLe) ?_
    rw [han]
    simp only [hword]
    split
    · assumption
    · exact Nat.lt_of_le_of_ne hle ‹_›

/-- AN_BEGIN leaves the run it seeded in CHUNKS, or a cleared one (R125). -/
theorem anInv_anBegin {s t : State} (hinv : AnInv s) (h : execAnBegin s = .next t) : AnInv t := by
  obtain ⟨-, rfl⟩ | ⟨hcap, r, hr, ⟨hends, rfl⟩ | ⟨hends, rfl⟩⟩ := execAnBegin_next h
  · exact anInv_withResult hinv _
  · exact anInv_capacity hinv hr hends
  · obtain ⟨hrun, -, -, -⟩ := anInv_seeded hinv hcap hr hends
    exact anInv_of_marks hrun rfl rfl fun _ hb => hb

/-- AN_FINISH ends a run whose chunks have all been handed out (R129). -/
theorem anInv_anFinish {s t : State} (hinv : AnInv s) (h : execAnFinish s = .next t) : AnInv t := by
  obtain ⟨-, rfl⟩ | ⟨hstate, d, hd, rfl⟩ := execAnFinish_next h
  · exact anInv_withResult hinv _
  · obtain ⟨hlen, hend⟩ := hinv.processed hstate
    have hpos : s.an.pos = s.an.len := BitVec.eq_of_toNat_eq hend
    exact anInv_of_done hinv hlen rfl (by rw [← hpos]) (writeSpectra_keeps hd).marks

/-- AN_RUN_BQ seeds a run, filters OUT in place and ends the run, or leaves a cleared one (R130). -/
theorem anInv_anRunBq {s t : State} (hinv : AnInv s) (h : execAnRunBq s = .next t) : AnInv t := by
  obtain ⟨-, rfl⟩ | ⟨hcap, r, hr, ⟨hends, rfl⟩ | ⟨hends, p, d, hp, hd, rfl⟩⟩ := execAnRunBq_next h
  · exact anInv_withResult hinv _
  · exact anInv_capacity hinv hr hends
  · obtain ⟨hrun, hpos, hlen, hword⟩ := anInv_seeded hinv hcap hr hends
    refine anInv_of_done hrun ?_ rfl ?_ ((bqChunks_keeps hp).trans (writeSpectra_keeps hd)).marks
    · rwa [State.withAnState_an, hlen, hword]
    · rw [State.withAnState_an, hlen, hword]

/-- Every command keeps the analyzer's invariants: those of another unit leave the AN registers alone and keep the marks. -/
theorem exec_keeps_anInv {i : Instr} {s t : State} (hinv : AnInv s) (h : exec i s = .next t) : AnInv t := by
  obtain ⟨hbuild, -, -, hkeeps⟩ := exec_keeps h
  cases i with
  | sysReset => cases h; exact anInv_of_cleared rfl (absurd rfl)
  | anConfig =>
    obtain ⟨-, rfl⟩ | ⟨-, -, -, rfl⟩ | ⟨hbs, -, hfit, rfl⟩ := execAnConfig_next h
    · exact anInv_withResult hinv _
    · exact anInv_withResult hinv _
    · exact anInv_of_cleared rfl fun _ => ⟨hbs, hfit⟩
  | anBegin => exact anInv_anBegin hinv h
  | anNext => exact anInv_anNext hinv h
  | anFinish => exact anInv_anFinish hinv h
  | anRunBq => exact anInv_anRunBq hinv h
  | anSpectrum n =>
    obtain ⟨-, rfl⟩ | ⟨-, -, rfl⟩ | ⟨hcap, -, hle, d, hd, rfl⟩ := execAnSpectrum_next h
    · exact anInv_withResult hinv _
    · exact anInv_withResult hinv _
    · exact anInv_of_bins hinv rfl rfl hkeeps.marks (absurd · hcap)
        ((u32Word_toNat_le _).trans (binCount_le_binCapacity hle))
  | _ => exact anInv_of_marks hinv hbuild ((exec_frame h).an nofun rfl) hkeeps.marks

/-- Settles O60: a step is idle, a hardware reset, a command, or an access that keeps the AN registers and the marks. -/
theorem stepKeepsAnalyzerInvariant : Obligations.StepKeepsAnalyzerInvariant := by
  intro s t hinv h
  obtain ⟨-, rfl⟩ | ⟨e, rest, -, ⟨-, rfl⟩ | ⟨-, i, hi⟩ | ⟨-, hbuild, -, -, han, hkeeps⟩⟩ := step_next h
  · exact hinv
  · exact anInv_of_cleared rfl (absurd rfl)
  · have hpopped : AnInv { s with hostQueue := rest } := anInv_of_marks hinv rfl rfl fun _ hb => hb
    exact exec_keeps_anInv hpopped hi
  · exact anInv_of_marks hinv hbuild han hkeeps.marks

end Sys2Proof.Proofs
end

section
/-! PROOFS. The register window and the reset (R28, R31, R33, R58, R63, R64, R84, R89, R91, R151): one rule for an aligned
word access to the window, the lookup of R28's table, the fields of STATUS, and the registers after a reset. -/

namespace Sys2Proof.Proofs

open Sys2Proof.Machine

/-! ## STATUS (R33, R56, R141) -/

/-- The codes fit the fields: the result code has four bits, and its values three. -/
theorem statusCodes_lt (s : State) :
    s.result.code < 8 ∧ s.an.state.code < 4 ∧ s.sg.started.toNat < 2 ∧ formCode s.build.form < 2 := by
  refine ⟨?_, ?_, Bool.toNat_lt _, ?_⟩
  · cases s.result <;> decide
  · cases s.an.state <;> decide
  · cases s.build.form <;> decide

theorem formCode_eq (f : BiquadForm) : formCode f = if f = .transposed then 1 else 0 := by cases f <;> rfl

theorem bool_toNat_eq (b : Bool) : b.toNat = if b then 1 else 0 := by cases b <;> rfl

/-- The sum that composes STATUS does not overflow its 32 bits. -/
theorem statusWord_toNat (s : State) : (statusWord s).toNat =
    s.result.code + 2 ^ 4 * s.an.state.code + 2 ^ 6 * s.sg.started.toNat + 2 ^ 7 * formCode s.build.form := by
  obtain ⟨hresult, hstate, hstarted, hform⟩ := statusCodes_lt s
  rw [statusWord, BitVec.toNat_ofNat]
  omega

/-- Settles O11: each field is read off the sum, whose terms do not overlap. -/
theorem statusWordFields : Obligations.StatusWordFields := by
  intro s
  obtain ⟨hresult, hstate, hstarted, hform⟩ := statusCodes_lt s
  have hsum := statusWord_toNat s
  refine ⟨?_, ?_, ?_, ?_, by omega⟩
  · calc (statusWord s).toNat % 16 = s.result.code := by omega
      _ = _ := rfl
  · calc (statusWord s).toNat / 16 % 4 = s.an.state.code := by omega
      _ = _ := rfl
  · rw [← bool_toNat_eq]; omega
  · rw [← formCode_eq]; omega

/-! ## Accesses to the register window (R31, R63, R64) -/

/-- A step whose oldest event is an aligned word access to the register window serves that access. -/
theorem step_regAccess {s : State} {o : Nat} {kind : AccessKind} {rest : List HostEvent} (ho : o < 256)
    (haligned : o % 4 = 0) (hq : s.hostQueue = .access ⟨s.build.regBase + o, 4, kind⟩ :: rest) :
    step s = serveReg o kind { s with hostQueue := rest } := by
  have htarget : targetOf s.build (s.build.regBase + o) = .reg o := by
    rw [targetOf, if_pos ⟨Nat.le_add_right _ _, by rw [Config.regWindowBytes]; omega⟩, Nat.add_sub_cancel_left]
  have hword : alignedWord 4 o = true := by simp [alignedWord, haligned]
  simp only [step, serveNext, hq, serveEvent, serveAccess, htarget, hword, if_true]

theorem executeWord_ok {w : Word} {i : Instr} (h : decode w = .ok i) (s : State) : executeWord w s = exec i s := by
  rw [executeWord, h]

theorem executeWord_error {w : Word} {r : Illegal} (h : decode w = .error r) (s : State) :
    executeWord w s = .next { s with result := .illegalCmd } := by
  rw [executeWord, h]; rfl

/-- A step whose oldest access writes a word to CMD executes the word (R31, R89). -/
theorem step_cmdWrite {s : State} {w : Word} {rest : List HostEvent}
    (hq : s.hostQueue = .access ⟨s.build.regBase, 4, .write w⟩ :: rest) :
    step s = executeWord w { s with hostQueue := rest } :=
  (step_regAccess (o := 0) (by decide) rfl hq).trans rfl

/-- Settles O5: the word is executed, and executing it follows what it decodes to. -/
theorem stepRunsDecodedCommand : Obligations.StepRunsDecodedCommand := by
  intro s w rest hq
  rw [step_cmdWrite hq]
  exact ⟨rfl, fun i hi => executeWord_ok hi _, fun r hr => executeWord_error hr _⟩

/-! ## A placed command (R31, R75, R83) -/

/-- The word of a well-formed command decodes to it: the counts by the fields of the word, the other commands by
evaluation. -/
theorem decode_encode {i : Instr} (h : i.wellFormed = true) : decode (encode i) = .ok i := by
  cases i with
  | sgProcess n =>
    obtain ⟨hunit, hop, hcount⟩ := Laws.commandWord_fields (unit := 1) (op := 5) (by decide) (by decide) (Laws.count_lt h)
    simp only [encode, decode, hunit, hop, hcount, decodeSg]
  | bqProcessBlock n =>
    obtain ⟨hunit, hop, hcount⟩ := Laws.commandWord_fields (unit := 2) (op := 3) (by decide) (by decide) (Laws.count_lt h)
    simp only [encode, decode, hunit, hop, hcount, decodeBq]
  | anSpectrum n =>
    obtain ⟨hunit, hop, hcount⟩ := Laws.commandWord_fields (unit := 3) (op := 5) (by decide) (by decide) (Laws.count_lt h)
    simp only [encode, decode, hunit, hop, hcount, decodeAn]
  | _ => rfl

theorem tableWord_toNat (w : Word) : tableWord 32 w.toNat = w := by
  rw [tableWord, Nat.mod_eq_of_lt w.isLt, BitVec.ofNat_toNat, BitVec.setWidth_eq]

/-- Settles O6: the placed word is written to CMD, decodes to its command, and leaves the queue it was placed on. -/
theorem withFetchWordRunsCommand : Obligations.WithFetchWordRunsCommand := by
  intro s i hi
  rw [State.withFetchWord, tableWord_toNat]
  calc step (issueCommand s (encode i)) = executeWord (encode i) s := step_cmdWrite rfl
    _ = exec i s := executeWord_ok (decode_encode hi) s

/-! ## The table of R28 -/

/-- The table lists each register at its offset, with what a read of it returns. -/
theorem regTable_lookup_offset (s : State) (r : RegName) : (regTable s).lookup r.offset = some (readReg s r) := by
  have hdirect : ∀ w : Word, (if s.build.form = .direct then w else 0#32) = directOnly s.build.form w := by
    intro w; cases s.build.form <;> rfl
  cases r with
  | bqS2 => exact congrArg some (hdirect _)
  | bqS3 => exact congrArg some (hdirect _)
  | _ => rfl

/-- An offset the window maps is that of its register. -/
theorem offset_of_regAt {o : Nat} {r : RegName} (h : regAt o = some r) : r.offset = o := by
  unfold regAt at h
  split at h <;> cases h <;> rfl

/-- Every offset the table lists is mapped. -/
theorem regAt_isSome_of_mem {s : State} {p : Nat × Word} (h : p ∈ regTable s) : (regAt p.1).isSome = true := by
  have hall : (regTable s).all (fun p => (regAt p.1).isSome) = true := rfl
  exact List.all_eq_true.1 hall p h

theorem regTable_lookup_of_mapped (s : State) {o : Nat} {r : RegName} (h : regAt o = some r) :
    (regTable s).lookup o = some (readReg s r) := by
  rw [← offset_of_regAt h, regTable_lookup_offset]

theorem regTable_lookup_of_unmapped (s : State) {o : Nat} (h : regAt o = none) : (regTable s).lookup o = none := by
  rw [List.lookup_eq_none_iff]
  intro p hp
  rw [bne_iff_ne]
  rintro rfl
  have hsome := regAt_isSome_of_mem hp
  rw [h] at hsome; cases hsome

/-- A read of the register window changes hostRead alone, which takes what the table lists (R28, R64). -/
theorem serveReg_read (o : Nat) (s : State) :
    serveReg o .read s = .next { s with hostRead := some (((regTable s).lookup o).getD 0#32) } := by
  cases hr : regAt o with
  | some r => simp only [serveReg, hr, regTable_lookup_of_mapped s hr, Option.getD_some]
  | none => simp only [serveReg, hr, regTable_lookup_of_unmapped s hr, Option.getD_none]

/-- Settles O8: the access is served in the window, and the table does not read the host's queue. -/
theorem hostRegisterReads : Obligations.HostRegisterReads := by
  intro s o rest ho haligned hq
  rw [step_regAccess ho haligned hq, serveReg_read]
  rfl

/-! ## Reset (R58, R91, R151) -/

/-- The register reset gives every register of the table its value of R58. -/
theorem regTable_resetRegisters (s : State) : regTable (resetRegisters s) = resetTable s.build := by
  have hstatus : statusWord (resetRegisters s) = BitVec.ofNat 32 (2 ^ 7 * formCode s.build.form) :=
    congrArg (BitVec.ofNat 32) (Nat.zero_add _)
  have hs2 : (resetRegisters s).bq.s2 = 0#32 := rfl
  have hs3 : (resetRegisters s).bq.s3 = 0#32 := rfl
  simp only [regTable, hstatus, hs2, hs3, ite_self]
  rfl

/-- Settles O12: SYS_RESET and a hardware reset leave the registers of the register reset, and State.reset is its own
register reset. -/
theorem resetValues : Obligations.ResetValues := by
  refine ⟨regTable_resetRegisters State.reset, fun x => rfl, fun s => ⟨?_, fun rest hq => ?_⟩⟩
  · exact ⟨complete (resetRegisters s), rfl, regTable_resetRegisters s, rfl, rfl, rfl, rfl, rfl⟩
  · refine ⟨hardwareReset { s with hostQueue := rest }, ?_, regTable_resetRegisters s, fun x => rfl, rfl, rfl, rfl⟩
    rw [step, serveNext, hq]
    rfl

end Sys2Proof.Proofs
end

section
/-! PROOFS. DMEM and the commands that use it (R8, R59, R60, R62, R74, R91, R101, R102, R129, R142, R143): the invariant of
DMEM, the errors of SG_PROCESS, and the one fault a command can end in. -/

namespace Sys2Proof.Proofs

open Sys2Proof.Machine

/-! ## The invariant of DMEM (R59, R60, R74, R91) -/

/-- Settles O59: a hardware reset empties DMEM; a command or a host access leaves a DMEM that `Keeps` relates to the one
before, whose form is that of DmemInv. -/
theorem stepKeepsDmemInvariant : Obligations.StepKeepsDmemInvariant := by
  intro s t hinv h
  obtain ⟨-, rfl⟩ | ⟨e, rest, hq, ⟨rfl, rfl⟩ | ⟨-, i, hi⟩ | ⟨-, hbuild, -, -, -, hkeeps⟩⟩ := step_next h
  · exact ⟨rfl, hinv, fun _ _ ha => ha⟩
  · exact ⟨rfl, ⟨List.Pairwise.nil, nofun⟩, fun hnoReset => absurd hq (hnoReset rest)⟩
  · obtain ⟨hbuild, -, -, hkeeps⟩ := exec_keeps hi
    exact ⟨hbuild, hkeeps.ok hinv, fun _ => hkeeps.marks⟩
  · exact ⟨hbuild, hkeeps.ok hinv, fun _ => hkeeps.marks⟩

/-! ## The errors of SG_PROCESS (R62, R102, R143) -/

/-- The region check comes before everything else. -/
theorem execSgProcess_of_outside {n : Nat} {s : State} (h : s.build.dmemWords < s.arg0.toNat + n) :
    execSgProcess n s = .next (s.withResult .range) := by
  simp [execSgProcess, inRange_of_lt h]

/-- With the region inside DMEM a stopped generator is the error, before any sample. -/
theorem execSgProcess_of_stopped {n : Nat} {s : State} (h : s.arg0.toNat + n ≤ s.build.dmemWords)
    (hstopped : s.sg.started = false) : execSgProcess n s = .next (s.withResult .notStarted) := by
  simp [execSgProcess, inRange_of_le h, hstopped]

/-- Settles O23: the region decides first, the generator second, and either error writes RESULT alone. -/
theorem sgProcessErrorsInOrder : Obligations.SgProcessErrorsInOrder :=
  fun _ _ => ⟨execSgProcess_of_outside, execSgProcess_of_stopped⟩

/-! ## Loops over written words (R74) -/

/-- A written region has no word a loop could stop at. -/
theorem not_unwritten_of_writtenRegion {m : Memory} {a n c : Nat} (h : writtenRegion m a n = true)
    (hc : a ≤ c ∧ c < a + n) (hnone : readWord m c = none) : False := by
  have hsome := writtenRegion_iff.1 h (c - a) (by omega)
  rw [Nat.add_sub_cancel' hc.1, hnone] at hsome
  cases hsome

/-- A block of written words is processed to its end. -/
theorem bqBlock_completes (form : BiquadForm) {n a : Nat} (b : Biquad) {d : Dmem} (hfit : a + n ≤ d.words)
    (h : writtenRegion d.cells a n = true) : ∃ r, bqBlock form n a b d = .ok r := by
  cases hr : bqBlock form n a b d with
  | ok r => exact ⟨r, rfl⟩
  | error f =>
    obtain ⟨c, hle, hlt, -, hnone⟩ := bqBlock_error hfit hr
    exact (not_unwritten_of_writtenRegion h ⟨hle, hlt⟩ hnone).elim

/-- The spectra of written samples are computed. -/
theorem writeSpectra_completes {a : Analyzer} {n : Nat} {d : Dmem} (hfit : buffersFit a d.words) (hn : n ≤ a.cap.toNat)
    (hin : writtenRegion d.cells (inBase a) n = true) (hout : writtenRegion d.cells (outBase a) n = true) :
    ∃ d', writeSpectra a n d = .ok d' := by
  cases hr : writeSpectra a n d with
  | ok d' => exact ⟨d', rfl⟩
  | error f =>
    obtain ⟨c, hc | hc, -, hnone⟩ := writeSpectra_error hfit hn hr
    · exact (not_unwritten_of_writtenRegion hin hc hnone).elim
    · exact (not_unwritten_of_writtenRegion hout hc hnone).elim

/-! ## The commands that cannot stop (R62, R129) -/

theorem execSgProcess_completes (n : Nat) (s : State) : ∃ t, execSgProcess n s = .next t := by
  by_cases hfit : s.arg0.toNat + n ≤ s.build.dmemWords
  · cases hstarted : s.sg.started with
    | false => exact ⟨_, execSgProcess_of_stopped hfit hstarted⟩
    | true =>
      obtain ⟨r, hr, -⟩ := sgFill_spec (n := n) (a := u32Arg s .arg0) (g := s.sg) (d := s.dmem) hfit
      rw [execSgProcess, hr, u32Arg_arg0, inRange_of_le hfit, hstarted]
      exact ⟨_, rfl⟩
  · exact ⟨_, execSgProcess_of_outside (by omega)⟩

theorem execAnConfig_completes (s : State) : ∃ t, execAnConfig s = .next t := by
  unfold execAnConfig
  split
  · exact ⟨_, rfl⟩
  · split
    · exact ⟨_, rfl⟩
    · exact ⟨_, rfl⟩

theorem execAnNext_completes (s : State) : ∃ t, execAnNext s = .next t := by
  unfold execAnNext
  split
  · exact ⟨_, rfl⟩
  · exact ⟨_, rfl⟩

/-- AN_BEGIN reads no word but those it has written. -/
theorem execAnBegin_completes {s : State} (hinv : AnInv s) : ∃ t, execAnBegin s = .next t := by
  unfold execAnBegin
  split
  · exact ⟨_, rfl⟩
  · rename_i hcap
    obtain ⟨-, hfit⟩ := hinv.configured hcap
    obtain ⟨r, hr, -⟩ := seedRun_spec hfit
    rw [hr]
    dsimp only
    split
    · exact ⟨_, rfl⟩
    · exact ⟨_, rfl⟩

/-- AN_FINISH reads the samples of a run, which are written (R129). -/
theorem execAnFinish_completes {s : State} (hinv : AnInv s) : ∃ t, execAnFinish s = .next t := by
  unfold execAnFinish
  split
  · exact ⟨_, rfl⟩
  · rename_i hstate
    obtain ⟨hlen, -⟩ := hinv.processed (not_not.1 hstate)
    have hle := hinv.lenLeCap
    obtain ⟨-, hfit⟩ := hinv.configured (by omega)
    obtain ⟨d, hd⟩ := writeSpectra_completes (d := s.dmem) hfit hle hinv.inWritten hinv.outWritten
    rw [hd]
    exact ⟨_, rfl⟩

/-- The regions a seeded run holds are those its filter and its spectra read. -/
theorem seedRun_written {s : State} {r : SeedResult} (hfit : buffersFit s.an s.build.dmemWords) (hr : seedRun s = .ok r)
    (hends : r.fits = true) :
    r.len ≤ s.an.cap.toNat ∧ r.state.build = s.build ∧ writtenRegion r.state.mem (inBase s.an) r.len = true ∧
      writtenRegion r.state.mem (outBase s.an) r.len = true := by
  obtain ⟨r', hr', hstate, -, -, -, hseed, -⟩ := seedRun_spec hfit
  obtain rfl : r = r' := Except.ok.inj (hr.symm.trans hr')
  obtain ⟨-, hle, -, hsamples, -⟩ := hseed hends
  exact ⟨hle, by rw [hstate], writtenRegion_iff.2 fun i hi => Option.isSome_of_eq_some (hsamples i hi).1,
    writtenRegion_iff.2 fun i hi => Option.isSome_of_eq_some (hsamples i hi).2⟩

/-- AN_RUN_BQ filters and transforms the samples it has written, in chunks that are not empty (R121, R130). -/
theorem execAnRunBq_completes {s : State} (hinv : AnInv s) : ∃ t, execAnRunBq s = .next t := by
  unfold execAnRunBq
  split
  · exact ⟨_, rfl⟩
  · rename_i hcap
    obtain ⟨hbs, hfit⟩ := hinv.configured hcap
    obtain ⟨r, hr, -⟩ := seedRun_spec hfit
    rw [hr]
    dsimp only
    split
    · exact ⟨_, rfl⟩
    · rename_i hends
      obtain ⟨hle, hbuild, hin, hout⟩ := seedRun_written hfit hr (by simpa using hends)
      have hwords : r.state.dmem.words = s.build.dmemWords := by rw [State.dmem_words, hbuild]
      have hregion : outBase s.an + r.len ≤ r.state.dmem.words := by
        unfold outBase; unfold runWords at hfit; omega
      obtain ⟨p, hp⟩ := bqBlock_completes s.build.form s.bq hregion hout
      rw [← bqChunks_eq_bqBlock s.build.form hbs le_rfl] at hp
      have hkeeps := bqChunks_keeps hp
      obtain ⟨d, hd⟩ := writeSpectra_completes (d := p.2) (by rw [hkeeps.words, hwords]; exact hfit) hle
        (writtenRegion_mono hkeeps.marks hin) (writtenRegion_mono hkeeps.marks hout)
      rw [hp]
      dsimp only
      rw [hd]
      exact ⟨_, rfl⟩

/-! ## The commands that read what the host wrote (R74, R114, R134) -/

/-- The outcome is a next state, or the fault of a read of a DMEM word nothing has written. -/
abbrev CompletesOrUnwritten (m : Memory) (o : Host.Outcome State Fault Refusal) : Prop :=
  (∃ t, o = .next t) ∨ ∃ a, o = .fault (.unwrittenWord a) ∧ readWord m a = none

theorem execBqProcessBlock_answers (n : Nat) (s : State) : CompletesOrUnwritten s.mem (execBqProcessBlock n s) := by
  unfold execBqProcessBlock
  split
  · exact .inl ⟨_, rfl⟩
  · rename_i hfit
    split
    · rename_i f hf
      obtain ⟨c, -, -, rfl, hnone⟩ := bqBlock_error (not_not.1 (mt not_inRange_iff.2 hfit)) hf
      exact .inr ⟨c, rfl, hnone⟩
    · exact .inl ⟨_, rfl⟩

theorem execAnSpectrum_answers (n : Nat) {s : State} (hinv : AnInv s) :
    CompletesOrUnwritten s.mem (execAnSpectrum n s) := by
  unfold execAnSpectrum
  split
  · exact .inl ⟨_, rfl⟩
  · rename_i hcap
    obtain ⟨-, hfit⟩ := hinv.configured hcap
    split
    · exact .inl ⟨_, rfl⟩
    · rename_i hn
      split
      · rename_i f hf
        obtain ⟨c, -, rfl, hnone⟩ := writeSpectra_error hfit (not_lt.1 (not_or.1 hn).2) hf
        exact .inr ⟨c, rfl, hnone⟩
      · exact .inl ⟨_, rfl⟩

/-- The two commands whose samples the host chose (R74, R129). -/
abbrev ReadsHostData (i : Instr) : Prop := (∃ n, i = .bqProcessBlock n) ∨ ∃ n, i = .anSpectrum n

theorem exec_answers_of_readsHostData {i : Instr} {s : State} (hinv : AnInv s) (hi : ReadsHostData i) :
    CompletesOrUnwritten s.mem (exec i s) := by
  obtain ⟨n, rfl⟩ | ⟨n, rfl⟩ := hi
  · exact execBqProcessBlock_answers n s
  · exact execAnSpectrum_answers n hinv

/-- Every other command gives a next state. -/
theorem exec_completes {i : Instr} {s : State} (hinv : AnInv s) (hi : ¬ReadsHostData i) : ∃ t, exec i s = .next t := by
  cases i with
  | sgProcess n => exact execSgProcess_completes n s
  | bqProcessBlock n => exact absurd (.inl ⟨n, rfl⟩) hi
  | anConfig => exact execAnConfig_completes s
  | anBegin => exact execAnBegin_completes hinv
  | anNext => exact execAnNext_completes s
  | anFinish => exact execAnFinish_completes hinv
  | anRunBq => exact execAnRunBq_completes hinv
  | anSpectrum n => exact absurd (.inr ⟨n, rfl⟩) hi
  | _ => exact ⟨_, rfl⟩

/-- Settles O16: a command that reads no data of the host's completes, and the other two complete or name the word. -/
theorem onlyUnwrittenHostDataFaults : Obligations.OnlyUnwrittenHostDataFaults := by
  intro i s hinv
  by_cases hi : ReadsHostData i
  · obtain ⟨t, ht⟩ | ⟨a, ha, hnone⟩ := exec_answers_of_readsHostData hinv.an hi
    · rw [ht]; exact ⟨nofun, nofun⟩
    · rw [ha]
      refine ⟨nofun, fun f hf => ?_⟩
      cases hf
      exact ⟨a, rfl, hnone, hi⟩
  · obtain ⟨t, ht⟩ := exec_completes hinv.an hi
    rw [ht]; exact ⟨nofun, nofun⟩

end Sys2Proof.Proofs
end

section
/-! PROOFS. The host's accesses to the two windows (R28, R63 to R67, R74): where an address lies, what a write of each window
does, and the accesses that have no step. -/

namespace Sys2Proof.Proofs

open Sys2Proof.Machine

/-! ## Where an address lies (R63, R65) -/

theorem targetOf_regWindow (b : Build) {o : Nat} (ho : o < 256) : targetOf b (b.regBase + o) = .reg o := by
  rw [targetOf, if_pos ⟨Nat.le_add_right _ _, Nat.add_lt_add_left ho _⟩, Nat.add_sub_cancel_left]

/-- A byte of the data window that the register window does not hide (log 7). -/
theorem targetOf_dataWindow {b : Build} {o : Nat} (ho : o < 4 * b.dmemWords)
    (hclear : b.dataBase + o < b.regBase ∨ b.regBase + 256 ≤ b.dataBase + o) :
    targetOf b (b.dataBase + o) = .data o := by
  have hnotReg : ¬(b.regBase ≤ b.dataBase + o ∧ b.dataBase + o < b.regBase + Config.regWindowBytes) := by
    rw [Config.regWindowBytes]; omega
  rw [targetOf, if_neg hnotReg, if_pos ⟨Nat.le_add_right _ _, Nat.add_lt_add_left ho _⟩, Nat.add_sub_cancel_left]

/-- A step whose oldest event is an access serves that access. -/
theorem step_access {s : State} {x : HostAccess} {rest : List HostEvent} (hq : s.hostQueue = .access x :: rest) :
    step s = serveAccess x { s with hostQueue := rest } := by
  rw [step, serveNext, hq]; rfl

/-! ## Accesses that are not one aligned word (R64, R67) -/

theorem alignedWord_eq_false {bytes o : Nat} (h : bytes ≠ 4 ∨ o % 4 ≠ 0) : alignedWord bytes o = false := by
  simpa [alignedWord, or_iff_not_imp_left] using h

/-- In either window such an access is refused by name. -/
theorem step_misshapenAccess {s : State} {x : HostAccess} {o : Nat} {rest : List HostEvent}
    (hq : s.hostQueue = .access x :: rest) (htarget : targetOf s.build x.addr = .reg o ∨ targetOf s.build x.addr = .data o)
    (hshape : x.bytes ≠ 4 ∨ o % 4 ≠ 0) : step s = .refused .accessOutsideInterface := by
  rw [step_access hq]
  obtain h | h := htarget
  · simp [serveAccess, h, alignedWord_eq_false hshape]
  · simp [serveAccess, h, alignedWord_eq_false hshape]

/-! ## Writes to the register window (R28, R64) -/

/-- The state with the word in the ARG register at an offset of the window, if one is there. -/
def withArgAt (s : State) (o : Nat) (w : Word) : State :=
  { s with
    arg0 := if o = 0x008 then w else s.arg0
    arg1 := if o = 0x00C then w else s.arg1
    arg2 := if o = 0x010 then w else s.arg2
    arg3 := if o = 0x014 then w else s.arg3
    arg4 := if o = 0x018 then w else s.arg4 }

/-- A register write reaches the ARG register at the register's offset, and nothing else. -/
theorem writeReg_eq_withArgAt (s : State) (w : Word) (r : RegName) : writeReg s w r = withArgAt s r.offset w := by
  cases r <;> rfl

/-- At an unmapped offset there is no ARG register. -/
theorem withArgAt_of_unmapped (s : State) {o : Nat} (w : Word) (h : regAt o = none) : withArgAt s o w = s := by
  have hne : ∀ p, (regAt p).isSome = true → o ≠ p := by rintro p hp rfl; rw [h] at hp; cases hp
  simp only [withArgAt, hne 0x008 rfl, hne 0x00C rfl, hne 0x010 rfl, hne 0x014 rfl, hne 0x018 rfl, if_false]

/-- A write of the register window other than to CMD changes an ARG register or nothing. -/
theorem serveReg_write {o : Nat} (hcmd : o ≠ 0) (w : Word) (s : State) :
    serveReg o (.write w) s = .next (withArgAt s o w) := by
  cases hr : regAt o with
  | some r =>
    have hoffset := offset_of_regAt hr
    have hne : r ≠ .cmd := by rintro rfl; exact hcmd hoffset.symm
    simp only [serveReg, hr, if_neg hne, writeReg_eq_withArgAt, hoffset]
  | none => simp only [serveReg, hr, withArgAt_of_unmapped s w hr]

/-- CMD and the unmapped offsets read 0 (R31, R64). -/
theorem serveReg_read_zero {o : Nat} {s : State} (h : o = 0 ∨ (regTable s).lookup o = none) :
    serveReg o .read s = .next { s with hostRead := some 0#32 } := by
  rw [serveReg_read]
  obtain rfl | hnone := h
  · rfl
  · rw [hnone, Option.getD_none]

/-- Settles O9: an aligned word is served in the window by the rule of its kind; any other access is refused. -/
theorem hostRegisterWindowRules : Obligations.HostRegisterWindowRules := by
  intro s o w rest ho
  refine ⟨fun haligned hcmd hq => ?_, fun haligned hzero hq => ?_, fun bytes kind hshape hq => ?_⟩
  · rw [step_regAccess ho haligned hq, serveReg_write hcmd]
    rfl
  · rw [step_regAccess ho haligned hq]
    exact serveReg_read_zero hzero
  · exact step_misshapenAccess hq (.inl (targetOf_regWindow s.build ho)) hshape

/-! ## Accesses to the data window (R65, R66, R74) -/

/-- A step whose oldest event is an aligned word access to the data window serves that access. -/
theorem step_dataAccess {s : State} {a : Nat} {kind : AccessKind} {rest : List HostEvent} (ha : a < s.build.dmemWords)
    (hclear : s.build.dataBase + 4 * a < s.build.regBase ∨ s.build.regBase + 256 ≤ s.build.dataBase + 4 * a)
    (hq : s.hostQueue = .access ⟨s.build.dataBase + 4 * a, 4, kind⟩ :: rest) :
    step s = serveData a kind { s with hostQueue := rest } := by
  have htarget := targetOf_dataWindow (by omega) hclear
  have hword : alignedWord 4 (4 * a) = true := by simp [alignedWord]
  rw [step_access hq]
  simp only [serveAccess, htarget, hword, if_true, Nat.mul_div_cancel_left a (show 0 < 4 by decide)]

theorem serveData_write {s : State} {a : Nat} (ha : a < s.build.dmemWords) (w : Word) :
    serveData a (.write w) s = .next { s with mem := writeWord s.mem a w } := by
  simp only [serveData, memWrite_ok (d := s.dmem) w ha]
  rfl

theorem serveData_read_written {s : State} {a : Nat} {w : Word} (ha : a < s.build.dmemWords)
    (hw : readWord s.mem a = some w) : serveData a .read s = .next { s with hostRead := some w } := by
  simp only [serveData, memRead_ok (d := s.dmem) ha hw]

theorem memRead_unwritten {d : Dmem} {a : Nat} (ha : a < d.words) (hnone : readWord d.cells a = none) :
    memRead d a = .error (.unwrittenWord a) := by
  simp only [memRead, if_pos ha, hnone]

theorem serveData_read_unwritten {s : State} {a : Nat} (ha : a < s.build.dmemWords) (hnone : readWord s.mem a = none) :
    serveData a .read s = .fault (.unwrittenWord a) := by
  simp only [serveData, memRead_unwritten (d := s.dmem) ha hnone]

/-- Settles O10: an aligned word is served as a read or a write of its DMEM word; any other access is refused. -/
theorem hostDataWindowAccess : Obligations.HostDataWindowAccess := by
  refine ⟨fun s a rest ha hclear => ⟨fun w hq => ?_, fun hq => ?_⟩, fun s o bytes kind rest ho hclear hshape hq => ?_⟩
  · rw [step_dataAccess ha hclear hq]
    exact ⟨writeWord s.mem a w, serveData_write (s := { s with hostQueue := rest }) ha w,
      readWord_writeWord_same s.mem a w, fun j hj => readByte_writeWord_same s.mem a w hj,
      fun x hx => readByte_writeWord_ne s.mem w hx⟩
  · rw [step_dataAccess ha hclear hq]
    exact ⟨fun w hw => serveData_read_written ha hw, fun hnone => serveData_read_unwritten ha hnone⟩
  · exact step_misshapenAccess hq (.inr (targetOf_dataWindow ho hclear)) hshape

end Sys2Proof.Proofs
end

section
/-! PROOFS. Command words (30_encoding.md, R76, R79, R83 to R85): what each unit's decoder accepts, read as a row of the
opcode map, and what it rejects, read as a line of R84's list. -/

namespace Sys2Proof.Proofs

open Sys2Proof.Machine Sys2Proof.Laws

/-! ## The words that decode (R83, R85) -/

/-- A C0 command is accepted as itself, and its count of 0 is the field N. -/
theorem withoutCount_ok {n : Nat} {c i : Instr} (hc : countOf c = 0) (h : withoutCount n c = .ok i) :
    opcodeOf i = opcodeOf c ∧ countOf i = n := by
  unfold withoutCount at h
  split at h
  next hn => cases h; exact ⟨rfl, hc.trans hn.symm⟩
  next => cases h

theorem decodeCtl_ok {op n : Nat} {i : Instr} (h : decodeCtl op n = .ok i) : opcodeOf i = (0, op) ∧ countOf i = n := by
  unfold decodeCtl at h
  split at h
  case h_1 | h_2 => exact withoutCount_ok rfl h
  case h_3 => cases h

theorem decodeSg_ok {op n : Nat} {i : Instr} (h : decodeSg op n = .ok i) : opcodeOf i = (1, op) ∧ countOf i = n := by
  unfold decodeSg at h
  split at h
  case h_1 | h_2 | h_3 | h_4 | h_5 => exact withoutCount_ok rfl h
  case h_6 => cases h; exact ⟨rfl, rfl⟩
  case h_7 => cases h

theorem decodeBq_ok {op n : Nat} {i : Instr} (h : decodeBq op n = .ok i) : opcodeOf i = (2, op) ∧ countOf i = n := by
  unfold decodeBq at h
  split at h
  case h_1 | h_2 | h_3 => exact withoutCount_ok rfl h
  case h_4 => cases h; exact ⟨rfl, rfl⟩
  case h_5 => cases h

theorem decodeAn_ok {op n : Nat} {i : Instr} (h : decodeAn op n = .ok i) : opcodeOf i = (3, op) ∧ countOf i = n := by
  unfold decodeAn at h
  split at h
  case h_1 | h_2 | h_3 | h_4 | h_5 => exact withoutCount_ok rfl h
  case h_6 => cases h; exact ⟨rfl, rfl⟩
  case h_7 => cases h

/-- The fields of a word that decodes are the row of its command in the opcode map and its count. -/
theorem decode_ok {w : Word} {i : Instr} (h : decode w = .ok i) :
    opcodeOf i = (unitField w, opField w) ∧ countOf i = countField w := by
  unfold decode at h
  split at h
  case h_1 hunit => rw [hunit]; exact decodeCtl_ok h
  case h_2 hunit => rw [hunit]; exact decodeSg_ok h
  case h_3 hunit => rw [hunit]; exact decodeBq_ok h
  case h_4 hunit => rw [hunit]; exact decodeAn_ok h
  case h_5 => cases h

/-- The encoder writes the command's row of the opcode map and its count. -/
theorem encode_eq_commandWord (i : Instr) : encode i = commandWord (opcodeOf i).1 (opcodeOf i).2 (countOf i) := by
  cases i <;> rfl

theorem wellFormed_iff_countOf_lt (i : Instr) : i.wellFormed = true ↔ countOf i < 2 ^ 24 := by
  cases i with
  | sgProcess n | bqProcessBlock n | anSpectrum n => exact decide_eq_true_iff
  | _ => exact iff_of_true rfl (Nat.two_pow_pos 24)

theorem countField_lt (w : Word) : countField w < 2 ^ 24 := Nat.mod_lt _ (Nat.two_pow_pos 24)

/-- Settles O1: the fields of the word select the command and give its count. -/
theorem decodeOfEncode : Obligations.DecodeOfEncode := fun _ => decode_encode

/-- Settles O2: the command has the word's own fields, and a word is the command word of its fields. -/
theorem encodeOfDecode : Obligations.EncodeOfDecode := by
  intro w i h
  obtain ⟨hopcode, hcount⟩ := decode_ok h
  constructor
  · calc encode i = commandWord (opcodeOf i).1 (opcodeOf i).2 (countOf i) := encode_eq_commandWord i
      _ = commandWord (unitField w) (opField w) (countField w) := by rw [hopcode, hcount]
      _ = w := commandWord_of_fields w
  · rw [wellFormed_iff_countOf_lt, hcount]
    exact countField_lt w

/-! ## The words that are rejected (R84) -/

/-- The decoder gives no command. -/
def Rejected (r : Except Illegal Instr) : Prop := ∃ e, r = .error e

theorem rejected_error (e : Illegal) : Rejected (.error e) := ⟨e, rfl⟩

theorem not_rejected_ok (i : Instr) : ¬Rejected (.ok i) := nofun

theorem rejected_withoutCount (n : Nat) (i : Instr) : Rejected (withoutCount n i) ↔ n ≠ 0 := by
  unfold withoutCount
  split
  next hn => exact iff_of_false (not_rejected_ok i) (not_not_intro hn)
  next hn => exact iff_of_true (rejected_error _) hn

theorem rejected_decodeCtl (op n : Nat) : Rejected (decodeCtl op n) ↔ 2 ≤ op ∨ n ≠ 0 := by
  unfold decodeCtl
  split
  case h_1 | h_2 => rw [rejected_withoutCount]; omega
  case h_3 => exact iff_of_true (rejected_error _) (.inl (by grind))

theorem rejected_decodeSg (op n : Nat) : Rejected (decodeSg op n) ↔ 6 ≤ op ∨ (op ≠ 5 ∧ n ≠ 0) := by
  unfold decodeSg
  split
  case h_1 | h_2 | h_3 | h_4 | h_5 => rw [rejected_withoutCount]; omega
  case h_6 => exact iff_of_false (not_rejected_ok _) (by omega)
  case h_7 => exact iff_of_true (rejected_error _) (.inl (by grind))

theorem rejected_decodeBq (op n : Nat) : Rejected (decodeBq op n) ↔ 4 ≤ op ∨ (op ≠ 3 ∧ n ≠ 0) := by
  unfold decodeBq
  split
  case h_1 | h_2 | h_3 => rw [rejected_withoutCount]; omega
  case h_4 => exact iff_of_false (not_rejected_ok _) (by omega)
  case h_5 => exact iff_of_true (rejected_error _) (.inl (by grind))

theorem rejected_decodeAn (op n : Nat) : Rejected (decodeAn op n) ↔ 6 ≤ op ∨ (op ≠ 5 ∧ n ≠ 0) := by
  unfold decodeAn
  split
  case h_1 | h_2 | h_3 | h_4 | h_5 => rw [rejected_withoutCount]; omega
  case h_6 => exact iff_of_false (not_rejected_ok _) (by omega)
  case h_7 => exact iff_of_true (rejected_error _) (.inl (by grind))

/-- R76, R83: the opcodes of the three commands with a count. -/
def TakesCount (unit op : Nat) : Prop := (unit = 1 ∧ op = 5) ∨ (unit = 2 ∧ op = 3) ∨ (unit = 3 ∧ op = 5)

/-- R84's list of illegal commands, on the fields of the word. -/
def IllegalFields (unit op n : Nat) : Prop :=
  4 ≤ unit ∨ (unit = 0 ∧ 2 ≤ op) ∨ (unit = 1 ∧ 6 ≤ op) ∨ (unit = 2 ∧ 4 ≤ op) ∨ (unit = 3 ∧ 6 ≤ op) ∨
    (¬TakesCount unit op ∧ n ≠ 0)

/-- The decoder rejects exactly the words of R84's list. -/
theorem rejected_decode (w : Word) : Rejected (decode w) ↔ IllegalFields (unitField w) (opField w) (countField w) := by
  unfold decode IllegalFields TakesCount
  split
  case h_1 hunit => rw [rejected_decodeCtl, hunit]; omega
  case h_2 hunit => rw [rejected_decodeSg, hunit]; omega
  case h_3 hunit => rw [rejected_decodeBq, hunit]; omega
  case h_4 hunit => rw [rejected_decodeAn, hunit]; omega
  case h_5 => exact iff_of_true (rejected_error _) (.inl (by grind))

/-- Settles O3: the decoder rejects the words of the list, and a rejected word only sets RESULT. -/
theorem illegalCommandWords : Obligations.IllegalCommandWords := by
  intro w s
  refine ⟨rejected_decode w, fun hillegal => ?_⟩
  obtain ⟨r, hr⟩ := (rejected_decode w).2 hillegal
  exact executeWord_error hr s

/-- Settles O4: the model evaluates each word. -/
theorem sampleWordsDecode : Obligations.SampleWordsDecode := by
  unfold Obligations.SampleWordsDecode
  decide

end Sys2Proof.Proofs
end

section
/-! PROOFS. The control commands (40_control.md, R90). -/

namespace Sys2Proof.Proofs

open Sys2Proof.Machine

/-- NOP only completes: it takes no argument and has no error (R90). -/
theorem execNop_eq (s : State) : execNop s = .next (s.withResult .ok) := by
  rw [execNop, complete_eq]

/-- Settles O13: NOP is the completion of a command on the state as it stands. -/
theorem nopOnlySetsOk : Obligations.NopOnlySetsOk := by
  intro s
  calc exec .nop s = execNop s := rfl
    _ = .next (s.withResult .ok) := execNop_eq s
    _ = .next { s with result := .ok } := rfl

end Sys2Proof.Proofs
end

section
/-! PROOFS. The sweep generator (41_sweep_generator.md, R92 to R107): the loop of SG_PROCESS on a started generator,
two calls over adjoining regions, a restart, the values of samples and phases, and the commands without a loop. -/

namespace Sys2Proof.Proofs

open Sys2Proof.Machine

/-! ## The end of a sweep (R95, R103) -/

theorem sweepRunsOn_succ (g : SweepGen) (n : Nat) :
    sweepRunsOn g (n + 1) ↔ sweepRunsOn g n ∧ gt32 (freqAfter g (n + 1)) g.fmax = false := by
  constructor
  · intro h
    exact ⟨fun j hj => h j (by omega), h (n + 1) (by omega) (by omega)⟩
  · rintro ⟨h, hlast⟩ j hj hpos
    obtain hj | rfl : j < n + 1 ∨ j = n + 1 := by omega
    · exact h j hj hpos
    · exact hlast

/-- A generator stays started as long as its sweep runs on. -/
theorem genAfter_started_iff (g : SweepGen) (n : Nat) :
    (genAfter g n).started = true ↔ g.started = true ∧ sweepRunsOn g n := by
  induction n with
  | zero => exact ⟨fun h => ⟨h, fun j hj hpos => by omega⟩, And.left⟩
  | succ n ih =>
    obtain ⟨-, -, hfmax, -, -, -⟩ := genAfter_fixed g n
    have hfreq := genAfter_freq g (n + 1)
    rw [genAfter_succ', sgStep_freq] at hfreq
    rw [genAfter_succ', sgStep_started, hfreq, hfmax, sweepRunsOn_succ, Bool.and_eq_true, ih, Bool.not_eq_true',
      and_assoc]

/-- The step that ends the sweep stops the generator. -/
theorem genAfter_stopped {g : SweepGen} {n : Nat} (h : sweepEndsAt g n) : (genAfter g n).started = false := by
  rw [← Bool.not_eq_true, genAfter_started_iff]
  exact fun hrun => not_sweepRunsOn h le_rfl hrun.2

/-! ## SG_PROCESS on a started generator (R101 to R104) -/

/-- The state SG_PROCESS leaves after its loop (R101, R103). -/
def afterFill (s : State) (r : SgFillResult) : State :=
  { s with
    sg := r.gen
    mem := r.dmem.cells
    res0 := u32Word r.count
    result := if r.exhausted then .maxFreqReached else .ok }

theorem execSgProcess_of_started {n : Nat} {s : State} {r : SgFillResult} (hfit : s.arg0.toNat + n ≤ s.build.dmemWords)
    (hstarted : s.sg.started = true) (hr : sgFill n s.arg0.toNat s.sg s.dmem = .ok r) :
    execSgProcess n s = .next (afterFill s r) := by
  rw [execSgProcess, u32Arg_arg0, inRange_of_le hfit, hstarted, hr]
  rfl

/-- SG_PROCESS that answers OK has found a started generator and has not ended its sweep. -/
theorem execSgProcess_ok {n : Nat} {s t : State} (h : execSgProcess n s = .next t) (hok : t.result = .ok) :
    s.arg0.toNat + n ≤ s.build.dmemWords ∧ s.sg.started = true ∧
      ∃ r, sgFill n s.arg0.toNat s.sg s.dmem = .ok r ∧ r.exhausted = false ∧ t = afterFill s r := by
  obtain ⟨-, rfl⟩ | ⟨-, -, rfl⟩ | ⟨hfit, hstarted, r, hr, rfl⟩ := execSgProcess_next h
  · cases hok
  · cases hok
  · refine ⟨hfit, hstarted, r, hr, ?_, rfl⟩
    cases hex : r.exhausted with
    | false => rfl
    | true => rw [hex] at hok; cases hok

/-- What the loop answered is what `SgFillSpec` says. -/
theorem sgFill_ok_spec {n a : Nat} {g : SweepGen} {d : Dmem} {r : SgFillResult} (hfit : a + n ≤ d.words)
    (hr : sgFill n a g d = .ok r) : SgFillSpec n a g d r := by
  obtain ⟨r', hr', hspec⟩ := sgFill_spec (g := g) hfit
  obtain rfl : r = r' := Except.ok.inj (hr.symm.trans hr')
  exact hspec

/-- Settles O24: the loop's answer by `sgFill_spec`, and the two ways it can end. -/
theorem sgProcessWritesTheSweep : Obligations.SgProcessWritesTheSweep := by
  intro n s hfit hstarted
  obtain ⟨r, hr, hspec⟩ := sgFill_spec (g := s.sg) (d := s.dmem) hfit
  refine ⟨r.count, if r.exhausted then .maxFreqReached else .ok, r.dmem.cells, ?_, hspec.count_le, hspec.samples,
    hspec.writes.frame, ?_⟩
  · rw [← hspec.gen]
    exact execSgProcess_of_started hfit hstarted hr
  · cases hex : r.exhausted with
    | true =>
      have hend := hspec.ended hex
      exact .inr ⟨rfl, hend, genAfter_stopped hend⟩
    | false =>
      obtain ⟨hcount, hrun⟩ := hspec.ongoing hex
      exact .inl ⟨rfl, hcount, hrun, (genAfter_started_iff _ _).2 ⟨hstarted, hcount ▸ hrun⟩⟩

/-! ## Two runs in a row (R107) -/

/-- The state in which the second of two calls over adjoining regions runs, when the loop of the first answered `r`. -/
def adjoining (s : State) (n : Nat) (r : SgFillResult) : State :=
  { afterFill s r with arg0 := s.arg0 + BitVec.ofNat 32 n }

theorem adjoining_arg0 {s : State} {n : Nat} (r : SgFillResult) (h : s.arg0.toNat + n < 2 ^ 32) :
    (adjoining s n r).arg0.toNat = s.arg0.toNat + n := by
  change (s.arg0 + BitVec.ofNat 32 n).toNat = _
  rw [BitVec.toNat_add, BitVec.toNat_ofNat]
  omega

theorem adjoining_dmem {s : State} {r : SgFillResult} (n : Nat) (h : r.dmem.words = s.build.dmemWords) :
    (adjoining s n r).dmem = r.dmem := congrArg (Dmem.mk · r.dmem.cells) h.symm

/-- Settles O25: the second call starts where the first ended, so their loops are one loop by `sgFill_add`. -/
theorem sgProcessPartitionIndependent : Obligations.SgProcessPartitionIndependent := by
  rintro n1 n2 s t1 t2 ⟨-, hwords⟩ hfit h1 hok h2
  obtain ⟨hfit1, hstarted, r1, hr1, hex1, rfl⟩ := execSgProcess_ok h1 hok
  have hspec1 := sgFill_ok_spec hfit1 hr1
  obtain ⟨hcount1, hrun1⟩ := hspec1.ongoing hex1
  have hwords1 : r1.dmem.words = s.build.dmemWords := hspec1.writes.words
  have harg : (adjoining s n1 r1).arg0.toNat = s.arg0.toNat + n1 := adjoining_arg0 r1 (by omega)
  have hstarted1 : r1.gen.started = true := by
    rw [hspec1.gen, hcount1]
    exact (genAfter_started_iff _ _).2 ⟨hstarted, hrun1⟩
  obtain ⟨r2, hr2, hspec2⟩ :=
    sgFill_spec (n := n2) (a := s.arg0.toNat + n1) (g := r1.gen) (d := r1.dmem) (by omega)
  have hcount2 := hspec2.count_le
  have hsecond : execSgProcess n2 (adjoining s n1 r1) = .next (afterFill (adjoining s n1 r1) r2) := by
    refine execSgProcess_of_started ?_ hstarted1 ?_
    · rw [harg, Nat.add_assoc]; exact hfit
    · rw [harg, adjoining_dmem n1 hwords1]; exact hr2
  obtain rfl := Host.Outcome.next.inj (h2.symm.trans hsecond)
  have hboth : sgFill (n1 + n2) s.arg0.toNat s.sg s.dmem =
      .ok ⟨r1.count + r2.count, r2.exhausted, r2.gen, r2.dmem⟩ := by
    simp [sgFill_add, hr1, hex1, hr2]
  refine ⟨_, execSgProcess_of_started hfit hstarted hboth, rfl, rfl, rfl, ?_⟩
  change (u32Word (r1.count + r2.count)).toNat = n1 + (u32Word r2.count).toNat
  rw [u32Word_toNat (by omega), u32Word_toNat (by omega), hcount1]

/-! ## A restart (R100, R107) -/

/-- SG_START overwrites every register that a step changes (R95, R100). -/
theorem sgStartGen_genAfter (g : SweepGen) (n : Nat) : sgStartGen (genAfter g n) = sgStartGen g := by
  obtain ⟨hfs, hfmin, hfmax, htime, hgain, hfinc⟩ := genAfter_fixed g n
  simp only [sgStartGen, hfs, hfmin, hfmax, htime, hgain, hfinc]

/-- SG_PROCESS leaves a generator some steps on, none of them when it raises. -/
theorem execSgProcess_sg {n : Nat} {s t : State} (h : execSgProcess n s = .next t) : ∃ c, t.sg = genAfter s.sg c := by
  obtain ⟨-, rfl⟩ | ⟨-, -, rfl⟩ | ⟨hfit, -, r, hr, rfl⟩ := execSgProcess_next h
  · exact ⟨0, rfl⟩
  · exact ⟨0, rfl⟩
  · exact ⟨r.count, (sgFill_ok_spec hfit hr).gen⟩

/-- Settles O26: SG_START forgets the steps taken since, and starting twice is starting once. -/
theorem restartReproducesTheSweep : Obligations.RestartReproducesTheSweep := by
  intro n s t1 t2 h1 h2
  cases h1
  obtain ⟨c, hc⟩ := execSgProcess_sg h2
  refine ⟨_, rfl, ?_⟩
  calc sgStartGen t2.sg = sgStartGen (genAfter (sgStartGen s.sg) c) := by rw [hc]; rfl
    _ = sgStartGen (sgStartGen s.sg) := sgStartGen_genAfter _ _
    _ = sgStartGen s.sg := rfl

/-! ## Samples (R12, R19, R107) -/

/-- Multiplying by a value of magnitude at most 1.0 does not raise the magnitude: the exact product is no larger, and
rounding keeps the order (R12). -/
theorem magBits_mul32_le {a b : Word} (ha : isFinite32 a = true) (hb : magBits b ≤ magBits fOne) :
    magBits (mul32 a b) ≤ magBits a := by
  have hbfin : isFinite32 b = true := isFinite32_iff.2 (hb.trans_lt (by decide))
  have hunits : unitsMag b ≤ 2 ^ 149 :=
    calc unitsMag b ≤ unitsMag fOne := unitsOfMag_le_iff.2 hb
      _ = 2 ^ 149 := by decide
  rw [mul32_finite ha hbfin, magBits_roundUnits]
  exact roundMag_le_of_le (by positivity) (Nat.mul_le_mul_left _ hunits)

theorem magBits_abs32 (w : Word) : magBits (abs32 w) = magBits w := magBits_withSign (magBits_lt w)

/-- Magnitudes compare as `|.|` does. -/
theorem gt32_abs32_eq_false {a b : Word} (hb : isFinite32 b = true) (h : magBits a ≤ magBits b) :
    gt32 (abs32 a) (abs32 b) = false := by
  have hbound : isNaN32 (abs32 b) = false :=
    isNaN32_of_finite (by rwa [isFinite32_iff, magBits_abs32, ← isFinite32_iff])
  obtain ⟨-, hgt, -⟩ := within_bound hbound (signBit_withSign (magBits_lt b))
    (show magBits (abs32 a) ≤ magBits (abs32 b) by rwa [magBits_abs32, magBits_abs32])
  exact hgt

/-- Settles O27: the sine of a finite phase is at most 1.0 in magnitude (S2). -/
theorem sampleWithinGain : Obligations.SampleWithinGain := by
  intro g hgain hphase
  have hle : magBits (sgStep g).sample ≤ magBits g.gain := magBits_mul32_le hgain (magBits_sin32_le hphase)
  have hfin : isFinite32 (sgStep g).sample = true := isFinite32_iff.2 (hle.trans_lt (isFinite32_iff.1 hgain))
  exact ⟨isNaN32_of_finite hfin, gt32_abs32_eq_false hgain hle⟩

/-! ## Phases (R16, R94) -/

/-- The wrap of a finite phase is a number: a negative remainder is finite, and so is TWO_PI. -/
theorem isNaN32_wrapPhase {p : Word} (hp : isFinite32 p = true) : isNaN32 (wrapPhase p) = false := by
  have hfin : isFinite32 (fmod32 p twoPi) = true :=
    isFinite32_iff.2 ((magBits_fmod32_twoPi_lt hp).trans (by decide))
  rw [wrapPhase_eq]
  split
  · rw [add32_finite hfin (by decide)]; exact isNaN32_roundUnits _ _ _
  · exact isNaN32_of_finite hfin

theorem wrapPhase_of_not_finite {p : Word} (hp : isFinite32 p = false) : wrapPhase p = qNaN := by
  rw [wrapPhase_eq, fmod32_nan (.inl hp)]
  rfl

/-- A remainder that is not negative is the wrap. -/
theorem wrapPhase_of_fmod {p r : Word} (h : fmod32 p twoPi = r) (hr : gt32 fZero r = false) : wrapPhase p = r := by
  rw [wrapPhase_eq, h, hr, if_neg Bool.false_ne_true]

/-- A dividend of smaller magnitude is its own remainder. -/
theorem fmod32_of_magBits_lt {a m : Word} (hm : isFinite32 m = true) (h : magBits a < magBits m) : fmod32 a m = a := by
  have hmfin := isFinite32_iff.1 hm
  have hz : isZero32 m = false := by rw [← Bool.not_eq_true, isZero32_iff]; omega
  have hround : roundMag (unitsMag a) 1 = magBits a := by
    simpa [unitsMag] using roundMag_unitsOfMag Nat.one_pos (show magBits a ≤ infMag by omega)
  have hmod : unitsMag a % unitsMag m = unitsMag a := Nat.mod_eq_of_lt (unitsOfMag_lt_iff.2 h)
  rw [fmod32_finite (isFinite32_iff.2 (h.trans hmfin)) hm hz, hmod, roundUnits, hround, withSign_signBit_magBits]

/-- Between the modulus and its double the remainder is one subtraction, rounded the same. -/
theorem fmod32_eq_sub32 {a m : Word} (ha : isFinite32 a = true) (hm : isFinite32 m = true) (hsa : signBit a = false)
    (hsm : signBit m = false) (hle : unitsMag m ≤ unitsMag a) (hlt : unitsMag a < 2 * unitsMag m) :
    fmod32 a m = sub32 a m := by
  have hz : isZero32 m = false := by
    rw [← Bool.not_eq_true, isZero32_iff]
    intro h0
    have hm0 : unitsMag m = 0 := by rw [unitsMag, h0, unitsOfMag_zero]
    omega
  obtain ⟨hnfin, hnunits⟩ := neg32_finite hm
  have hsum : units a + units (neg32 m) = (unitsMag a - unitsMag m : Nat) := by
    rw [hnunits, units_eq_signed, units_eq_signed, hsa, hsm]
    simp only [signed, Bool.false_eq_true, if_false]
    omega
  have hsign : sumSign a (neg32 m) = false := by
    rw [sumSign, hsum, hsa, Bool.false_and, decide_eq_false (by omega), ite_self]
  have hmod : unitsMag a % unitsMag m = unitsMag a - unitsMag m := by
    rw [Nat.mod_eq_sub_mod hle, Nat.mod_eq_of_lt (by omega)]
  rw [fmod32_finite ha hm hz, sub32, add32_finite ha hnfin, hsign, hsum, hsa, hmod, Int.natAbs_natCast]

/-- Only numbers compare (R15). -/
theorem numbers_of_gt32 {a b : Word} (h : gt32 a b = true) : isNaN32 a = false ∧ isNaN32 b = false := by
  simp only [gt32, Bool.and_eq_true, Bool.not_eq_true'] at h
  exact h.1

/-- A value that is not negative and below `m` has a smaller magnitude. -/
theorem magBits_lt_of_gt32 {p m : Word} (hpos : gt32 fZero p = false) (h : gt32 m p = true) :
    magBits p < magBits m := by
  obtain ⟨hm, hp⟩ := numbers_of_gt32 h
  have hzero : orderKey fZero = 0 := rfl
  have hmag := abs_orderKey p
  have hmagm := abs_orderKey m
  rw [← Bool.not_eq_true, gt32_iff (by decide) hp, hzero] at hpos
  rw [gt32_iff hm hp] at h
  rw [abs_of_nonneg (by omega)] at hmag hmagm
  omega

/-- A value from a positive `m` on is positive and has at least the magnitude of `m`. -/
theorem magBits_le_of_not_gt32 {p m : Word} (hp : isNaN32 p = false) (hm : gt32 m fZero = true) (h : gt32 m p = false) :
    signBit p = false ∧ magBits m ≤ magBits p := by
  obtain ⟨hnan, -⟩ := numbers_of_gt32 hm
  have hzero : orderKey fZero = 0 := rfl
  rw [gt32_iff hnan (by decide), hzero] at hm
  rw [← Bool.not_eq_true, gt32_iff hnan hp] at h
  have hmag := abs_orderKey p
  have hmagm := abs_orderKey m
  rw [abs_of_nonneg (by omega)] at hmag hmagm
  refine ⟨?_, by omega⟩
  rw [← Bool.not_eq_true]
  intro hs
  have hkey : orderKey p = -(magBits p : Int) := if_pos hs
  omega

/-- From TWO_PI up to its double the wrap is one subtraction. -/
theorem wrapPhase_eq_sub32 {p : Word} (hp : isFinite32 p = true) (hge : gt32 twoPi p = false)
    (hlt : magBits p < magBits 0x41490FDB#32) : wrapPhase p = sub32 p twoPi := by
  obtain ⟨hsign, hle⟩ := magBits_le_of_not_gt32 (isNaN32_of_finite hp) (by decide) hge
  have hdouble : unitsMag p < 2 * unitsMag twoPi :=
    calc unitsMag p < unitsMag 0x41490FDB#32 := unitsOfMag_lt_iff.2 hlt
      _ = 2 * unitsMag twoPi := by decide
  have hfmod := fmod32_eq_sub32 hp (by decide) hsign (by decide) (unitsOfMag_le_iff.2 hle) hdouble
  refine wrapPhase_of_fmod hfmod (not_negative_of_sign ?_)
  rw [← hfmod, fmod32_finite hp (by decide) (by decide), signBit_roundUnits, hsign]

/-- Settles O19: the range by `wrapPhase_inRange`; below TWO_PI the remainder is the phase, up to its double one
subtraction. -/
theorem wrapPhaseRange : Obligations.WrapPhaseRange := by
  intro p
  refine ⟨wrapPhase_eq p, fun hp => ?_, wrapPhase_of_not_finite, fun hp hpos hlt => ?_⟩
  · have hnan := isNaN32_wrapPhase hp
    have hrange := wrapPhase_inRange p
    simp only [phaseInRange, hnan, Bool.false_or, Bool.and_eq_true, Bool.not_eq_true'] at hrange
    exact ⟨hnan, hrange⟩
  · split
    · rename_i hbelow
      exact wrapPhase_of_fmod (fmod32_of_magBits_lt (by decide) (magBits_lt_of_gt32 hpos hbelow)) hpos
    · rename_i hge
      exact wrapPhase_eq_sub32 hp (Bool.eq_false_iff.2 hge) (magBits_lt_of_gt32 hpos hlt)

/-! ## The formulas and the commands without a loop (R92 to R100, R123) -/

/-- The end of the sweep clears the flag, and nothing else does. -/
theorem and_not_eq_ite (started exhausted : Bool) :
    (started && !exhausted) = if exhausted then false else started := by cases exhausted <;> simp

/-- Settles O18: each side is the expression of its rule; only the flag is written in another form. -/
theorem generatorFormulas : Obligations.GeneratorFormulas := by
  refine ⟨fun _ _ _ _ => rfl, fun _ _ => rfl, fun g => ?_, fun _ => rfl⟩
  rw [← and_not_eq_ite]
  rfl

/-- SG_INIT constructs a generator and completes (R96). -/
theorem execSgInit_eq (s : State) :
    execSgInit s = .next ({ s with sg := sgInitGen s.arg0 }.withResult .ok) := by
  rw [execSgInit, f32Arg_arg0, complete_eq]

/-- Settles O20: the defaults are those of `sgInitGen`, and the word is its row of the opcode map. -/
theorem sgInitConstructsDefaults : Obligations.SgInitConstructsDefaults :=
  ⟨by decide, fun s => (execSgInit_eq s).trans rfl⟩

theorem execSgSetRange_eq (s : State) :
    execSgSetRange s = .next ({ s with sg := sgSetRange s.arg0 s.arg1 s.sg }.withResult .ok) := by
  rw [execSgSetRange, f32Arg_arg0, f32Arg_arg1, complete_eq]

theorem execSgSetTime_eq (s : State) :
    execSgSetTime s = .next ({ s with sg := sgSetTime s.arg0 s.sg }.withResult .ok) := by
  rw [execSgSetTime, f32Arg_arg0, complete_eq]

theorem execSgSetGain_eq (s : State) :
    execSgSetGain s = .next ({ s with sg := sgSetGain s.arg0 s.sg }.withResult .ok) := by
  rw [execSgSetGain, f32Arg_arg0, complete_eq]

/-- Settles O21: each setter writes its registers, and `withFinc` computes SG_FINC from the registers so written. -/
theorem sgSettersWriteTheirRegisters : Obligations.SgSettersWriteTheirRegisters :=
  ⟨by decide, by decide, by decide, fun s =>
    ⟨(execSgSetRange_eq s).trans rfl, (execSgSetTime_eq s).trans rfl, (execSgSetGain_eq s).trans rfl⟩⟩

theorem execSgStart_eq (s : State) : execSgStart s = .next ({ s with sg := sgStartGen s.sg }.withResult .ok) := by
  rw [execSgStart, complete_eq]

/-- Settles O22: SG_START completes with the generator of `sgStartGen`, started or exhausted before. -/
theorem sgStartStartsAtFmin : Obligations.SgStartStartsAtFmin :=
  ⟨by decide, fun s => (execSgStart_eq s).trans rfl⟩

end Sys2Proof.Proofs
end

section
/-! PROOFS. The biquad (42_biquad.md, R108 to R119): BQ_PROCESS_BLOCK by the laws of its loop, two calls over adjoining
regions, the NaN that stays in the filter state, the bypass set as exact arithmetic, and the commands without a loop. -/

namespace Sys2Proof.Proofs

open Sys2Proof.Machine

/-! ## BQ_PROCESS_BLOCK (R62, R74, R114) -/

theorem execBqProcessBlock_of_outside {n : Nat} {s : State} (h : s.build.dmemWords < s.arg0.toNat + n) :
    execBqProcessBlock n s = .next { s with result := .range } := by
  rw [execBqProcessBlock, u32Arg_arg0, inRange_of_lt h]
  rfl

/-- The state BQ_PROCESS_BLOCK leaves after its loop (R114). -/
def afterBlock (s : State) (r : Biquad × Dmem) : State := { s with result := .ok, bq := r.1, mem := r.2.cells }

theorem execBqProcessBlock_of_block {n : Nat} {s : State} {r : Biquad × Dmem}
    (hfit : s.arg0.toNat + n ≤ s.build.dmemWords) (hr : bqBlock s.build.form n s.arg0.toNat s.bq s.dmem = .ok r) :
    execBqProcessBlock n s = .next (afterBlock s r) := by
  rw [execBqProcessBlock, u32Arg_arg0, inRange_of_le hfit, hr]
  rfl

/-- On a region inside DMEM, BQ_PROCESS_BLOCK that completes has run its loop to the end. -/
theorem execBqProcessBlock_inside {n : Nat} {s t : State} (hfit : s.arg0.toNat + n ≤ s.build.dmemWords)
    (h : execBqProcessBlock n s = .next t) :
    ∃ r, bqBlock s.build.form n s.arg0.toNat s.bq s.dmem = .ok r ∧ t = afterBlock s r := by
  obtain ⟨hout, -⟩ | ⟨-, hloop⟩ := execBqProcessBlock_next h
  · exact absurd hfit hout
  · exact hloop

/-- A block that is processed to its end has no unwritten word. -/
theorem readWord_ne_none_of_bqBlock {form : BiquadForm} {n a : Nat} {b : Biquad} {d : Dmem} {r : Biquad × Dmem}
    (h : bqBlock form n a b d = .ok r) {i : Nat} (hi : i < n) : readWord d.cells (a + i) ≠ none := by
  obtain ⟨xs, rfl, hxs⟩ := bqBlock_ok h
  rw [(hxs i hi).2]
  exact Option.some_ne_none _

/-- Settles O30: `bqBlock_spec` on a region that holds `xs`; a region with an unwritten word cannot be processed to its
end, and the only other answer is the fault. -/
theorem bqBlockProcessesInPlace : Obligations.BqBlockProcessesInPlace := by
  refine fun n s => ⟨execBqProcessBlock_of_outside, ?_, ?_⟩
  · rintro hfit xs rfl hheld
    have hregion : HoldsWords s.dmem s.arg0.toNat xs := fun i hi =>
      ⟨(Nat.add_lt_add_left hi _).trans_le hfit, hheld i hi⟩
    obtain ⟨d, hblock, hwrites, houtputs⟩ := bqBlock_spec s.build.form (b := s.bq) hregion
    refine ⟨d.cells, execBqProcessBlock_of_block hfit hblock, fun i hi => ?_, hwrites.frame⟩
    have hi' : i < (bqOutputs s.build.form s.bq xs).length := by rwa [bqOutputs_length]
    rw [List.getElem?_eq_getElem hi']
    exact (houtputs i hi').2
  · rintro hfit ⟨i, hi, hnone⟩
    obtain ⟨t, ht⟩ | hfault := execBqProcessBlock_answers n s
    · obtain ⟨r, hr, -⟩ := execBqProcessBlock_inside hfit ht
      exact absurd hnone (readWord_ne_none_of_bqBlock hr hi)
    · exact hfault

/-! ## Two blocks in a row (R119) -/

/-- The host's next ARG0, when the region it names lies in DMEM. -/
theorem toNat_add_ofNat {a : Word} {n : Nat} (h : a.toNat + n < 2 ^ 32) :
    (a + BitVec.ofNat 32 n).toNat = a.toNat + n := by
  rw [BitVec.toNat_add, BitVec.toNat_ofNat]
  omega

/-- Settles O31: the second call starts where the first ended, so their loops are one loop by `bqBlock_add`. -/
theorem bqBlockPartitionIndependent : Obligations.BqBlockPartitionIndependent := by
  rintro n1 n2 s t1 t2 ⟨-, hwords⟩ hfit h1 h2
  obtain ⟨r1, hr1, rfl⟩ := execBqProcessBlock_inside (by omega) h1
  have harg : (s.arg0 + BitVec.ofNat 32 n1).toNat = s.arg0.toNat + n1 := toNat_add_ofNat (by omega)
  have hdmem : ({ afterBlock s r1 with arg0 := s.arg0 + BitVec.ofNat 32 n1 } : State).dmem = r1.2 :=
    congrArg (Dmem.mk · r1.2.cells) (bqBlock_keeps hr1).words.symm
  obtain ⟨r2, hr2, rfl⟩ := execBqProcessBlock_inside (by rw [harg, Nat.add_assoc]; exact hfit) h2
  rw [harg, hdmem] at hr2
  have hboth : bqBlock s.build.form (n1 + n2) s.arg0.toNat s.bq s.dmem = .ok r2 := by
    rw [bqBlock_add, hr1]
    exact hr2
  exact execBqProcessBlock_of_block hfit hboth

/-! ## A NaN in the filter state (R14, R117) -/

/-- The state register that feeds the next output through an addition or a product holds a NaN. -/
def HoldsNaN : BiquadForm → Biquad → Prop
  | .direct, b => isNaN32 b.s2 = true
  | .transposed, b => isNaN32 b.s0 = true

/-- A NaN in the state makes the output the canonical NaN, which the update puts back into the state. -/
theorem bqStep_of_holdsNaN {form : BiquadForm} {b : Biquad} (x : Word) (h : HoldsNaN form b) :
    (bqStep form b x).2 = qNaN ∧ HoldsNaN form (bqStep form b x).1 := by
  have hq : isNaN32 qNaN = true := by decide
  cases form with
  | direct =>
    have hfed : mul32 b.b1 b.s2 = qNaN := mul32_nan (.inr h)
    have hy : (bqStep .direct b x).2 = qNaN :=
      sub32_nan (.inl (by rw [hfed, sub32_nan (.inr hq)]; exact hq))
    exact ⟨hy, (congrArg isNaN32 hy).trans hq⟩
  | transposed =>
    have hy : (bqStep .transposed b x).2 = qNaN := add32_nan (.inr h)
    have hfed : mul32 b.b1 (bqStep .transposed b x).2 = qNaN := mul32_nan (.inr ((congrArg isNaN32 hy).trans hq))
    have hs0 : (bqStep .transposed b x).1.s0 = qNaN := sub32_nan (.inr ((congrArg isNaN32 hfed).trans hq))
    exact ⟨hy, (congrArg isNaN32 hs0).trans hq⟩

/-- Each output is the canonical NaN and leaves a NaN for the next one. -/
theorem bqOutputs_of_holdsNaN {form : BiquadForm} {b : Biquad} (h : HoldsNaN form b) (xs : List Word) :
    ∀ y ∈ bqOutputs form b xs, y = qNaN := by
  induction xs generalizing b with
  | nil => exact List.forall_mem_nil _
  | cons x xs ih =>
    obtain ⟨hy, hnext⟩ := bqStep_of_holdsNaN x h
    exact List.forall_mem_cons.2 ⟨hy, ih hnext⟩

/-- Settles O32: the premise is `HoldsNaN` of the form that is built. -/
theorem nanStatePersists : Obligations.NanStatePersists := by
  intro form b xs hnan
  have hb : HoldsNaN form b := by
    cases form with
    | direct => exact hnan
    | transposed => exact hnan
  exact bqOutputs_of_holdsNaN hb xs

/-! ## Exact operations (R12, R15) -/

/-- The word is finite and its value is `u` units of 2^-149. -/
def HasUnits (w : Word) (u : Int) : Prop := isFinite32 w = true ∧ units w = u

theorem hasUnits_units {w : Word} (h : isFinite32 w = true) : HasUnits w (units w) := ⟨h, rfl⟩

theorem units_of_zero {w : Word} (h : isZero32 w = true) : units w = 0 := by
  rw [units_eq_signed, unitsMag, isZero32_iff.1 h, unitsOfMag_zero, signed_zero]

theorem hasUnits_zero {w : Word} (h : isZero32 w = true) : HasUnits w 0 := ⟨isFinite32_of_zero h, units_of_zero h⟩

/-- Finite words of one value compare equal: only the sign of a zero can differ. -/
theorem HasUnits.eq32 {a b : Word} {u : Int} (ha : HasUnits a u) (hb : HasUnits b u) : Machine.eq32 a b = true := by
  have hlt := units_lt_iff a b
  have hgt := units_lt_iff b a
  rw [ha.2, hb.2] at hlt hgt
  have hkey : orderKey a = orderKey b := by omega
  simp [Machine.eq32, isNaN32_of_finite ha.1, isNaN32_of_finite hb.1, hkey]

/-- Adding a zero is exact (R12). -/
theorem HasUnits.add32_zero {a z : Word} {u : Int} (ha : HasUnits a u) (hz : HasUnits z 0) :
    HasUnits (add32 a z) u := by
  obtain ⟨hfin, rfl⟩ := ha
  have hsum : units a + units z = units a := by rw [hz.2, add_zero]
  have habs : (units a).natAbs = unitsMag a := by unfold units; split <;> omega
  have hsign := signed_sumSign a z
  rw [hsum, habs] at hsign
  have hround : roundMag (unitsMag a) 1 = magBits a := by
    have hle : magBits a ≤ infMag := (isFinite32_iff.1 hfin).le
    simpa [unitsMag] using roundMag_unitsOfMag Nat.one_pos hle
  rw [add32_finite hfin hz.1, hsum, habs]
  constructor
  · rwa [isFinite32_iff, magBits_roundUnits, hround, ← isFinite32_iff]
  · rw [units_eq_signed, signBit_roundUnits, unitsMag_roundUnits, hround]
    exact hsign

/-- So is subtracting one. -/
theorem HasUnits.sub32_zero {a z : Word} {u : Int} (ha : HasUnits a u) (hz : HasUnits z 0) :
    HasUnits (sub32 a z) u := by
  obtain ⟨hfin, hneg⟩ := neg32_finite hz.1
  exact ha.add32_zero ⟨hfin, by rw [hneg, hz.2, neg_zero]⟩

/-- A product with 1.0 is the other factor, bit for bit (R12). -/
theorem mul32_one_left {x : Word} (h : isFinite32 x = true) : mul32 fOne x = x := by
  have hone : unitsMag fOne = 2 ^ 149 := by decide
  have hsign : signBit fOne = false := by decide
  rw [mul32_finite (by decide) h, hone, hsign, Nat.mul_comm, unitsMag, roundUnits,
    roundMag_unitsOfMag (by positivity) (isFinite32_iff.1 h).le, Bool.false_bne, withSign_signBit_magBits]

/-- A product with zero is a zero (R12). -/
theorem hasUnits_mul32_zero {x : Word} (h : isFinite32 x = true) : HasUnits (mul32 fZero x) 0 := by
  have hzero : unitsMag fZero = 0 := by decide
  refine hasUnits_zero ?_
  rw [mul32_finite (by decide) h, isZero32_iff, magBits_roundUnits, hzero, Nat.zero_mul, roundMag_zero (by positivity)]

/-! ## The bypass set (R110) -/

/-- The coefficients are the bypass set (R110). -/
structure IsBypass (b : Biquad) : Prop where
  /-- a0 is 1.0. -/
  a0 : b.a0 = fOne
  /-- a1 is zero. -/
  a1 : b.a1 = fZero
  /-- a2 is zero. -/
  a2 : b.a2 = fZero
  /-- b1 is zero. -/
  b1 : b.b1 = fZero
  /-- b2 is zero. -/
  b2 : b.b2 = fZero

theorem IsBypass.bqStep {b : Biquad} (h : IsBypass b) (form : BiquadForm) (x : Word) :
    IsBypass (bqStep form b x).1 := by
  obtain ⟨ha0, ha1, ha2, hb1, hb2⟩ := bqStep_coefs form b x
  exact ⟨ha0.trans h.a0, ha1.trans h.a1, ha2.trans h.a2, hb1.trans h.b1, hb2.trans h.b2⟩

/-- The states that add nothing to an output of the bypass set: finite delays, or accumulators that are zero (log 24). -/
def AddsNothing : BiquadForm → Biquad → Prop
  | .direct, b => isFinite32 b.s0 = true ∧ isFinite32 b.s1 = true ∧ isFinite32 b.s2 = true ∧ isFinite32 b.s3 = true
  | .transposed, b => HasUnits b.s0 0 ∧ HasUnits b.s1 0

/-- The DIRECT update adds four zero products to `x`, and moves finite words along its delays. -/
theorem bqStepDirect_bypass {b : Biquad} {x : Word} (hc : IsBypass b) (hs : AddsNothing .direct b)
    (hx : isFinite32 x = true) :
    HasUnits (bqStepDirect b x).2 (units x) ∧ AddsNothing .direct (bqStepDirect b x).1 := by
  obtain ⟨h0, h1, h2, h3⟩ := hs
  have hy : HasUnits (bqStepDirect b x).2 (units x) := by
    simp only [bqStepDirect, hc.a0, hc.a1, hc.a2, hc.b1, hc.b2, mul32_one_left hx]
    exact ((((hasUnits_units hx).add32_zero (hasUnits_mul32_zero h0)).add32_zero (hasUnits_mul32_zero h1)).sub32_zero
      (hasUnits_mul32_zero h2)).sub32_zero (hasUnits_mul32_zero h3)
  exact ⟨hy, hx, h0, hy.1, h2⟩

/-- The TRANSPOSED update adds a zero accumulator to `x`, and its new accumulators are sums of zeros. -/
theorem bqStepTransposed_bypass {b : Biquad} {x : Word} (hc : IsBypass b) (hs : AddsNothing .transposed b)
    (hx : isFinite32 x = true) :
    HasUnits (bqStepTransposed b x).2 (units x) ∧ AddsNothing .transposed (bqStepTransposed b x).1 := by
  obtain ⟨h0, h1⟩ := hs
  have hy : HasUnits (add32 x b.s0) (units x) := (hasUnits_units hx).add32_zero h0
  have hzx := hasUnits_mul32_zero hx
  have hzy := hasUnits_mul32_zero hy.1
  simp only [bqStepTransposed, hc.a0, hc.a1, hc.a2, hc.b1, hc.b2, mul32_one_left hx]
  exact ⟨hy, (hzx.add32_zero h1).sub32_zero hzy, hzx.sub32_zero hzy⟩

theorem bqStep_bypass {form : BiquadForm} {b : Biquad} {x : Word} (hc : IsBypass b) (hs : AddsNothing form b)
    (hx : isFinite32 x = true) : HasUnits (bqStep form b x).2 (units x) ∧ AddsNothing form (bqStep form b x).1 := by
  cases form with
  | direct => exact bqStepDirect_bypass hc hs hx
  | transposed => exact bqStepTransposed_bypass hc hs hx

/-- Each output has the value of its input, and each step keeps a state that adds nothing. -/
theorem bqOutputs_bypass {form : BiquadForm} {b : Biquad} {xs : List Word} (hc : IsBypass b) (hs : AddsNothing form b)
    (hxs : ∀ x ∈ xs, isFinite32 x = true) : List.Forall₂ (fun y x => eq32 y x = true) (bqOutputs form b xs) xs := by
  induction xs generalizing b with
  | nil => exact .nil
  | cons x xs ih =>
    obtain ⟨hx, hrest⟩ := List.forall_mem_cons.1 hxs
    obtain ⟨hy, hnext⟩ := bqStep_bypass hc hs hx
    exact .cons (hy.eq32 (hasUnits_units hx)) (ih (hc.bqStep form x) hnext hrest)

/-- Settles O33: the premises are the bypass set and, of either form, a state that adds nothing. -/
theorem bypassIsIdentity : Obligations.BypassIsIdentity := by
  intro form b xs ha0 ha1 ha2 hb1 hb2 hstate hxs
  have hs : AddsNothing form b := by
    cases form with
    | direct => exact hstate
    | transposed => exact ⟨hasUnits_zero hstate.1, hasUnits_zero hstate.2⟩
  exact bqOutputs_bypass ⟨ha0, ha1, ha2, hb1, hb2⟩ hs hxs

/-- The bypass set over an accumulator Z1 that still holds 1.0, as in V-BQ-4. -/
def bypassWithTransient : Biquad := { bqResetRegs with s0 := fOne }

/-- Refutes O34: a TRANSPOSED build gives out the 1.0 it finds in Z1 where the input is 0.0. -/
theorem not_bypassFromEveryFiniteState : ¬Obligations.BypassFromEveryFiniteState := by
  intro h
  have hkept := h .transposed bypassWithTransient fZero rfl rfl rfl rfl rfl (by decide) (by decide) (by decide)
    (by decide) (by decide)
  have hadded : (bqStep .transposed bypassWithTransient fZero).2 = fOne := by decide +kernel
  rw [hadded] at hkept
  exact absurd hkept (by decide)

/-! ## The commands without a loop (R111 to R113) -/

theorem execBqReset_eq (s : State) : execBqReset s = .next ({ s with bq := bqResetRegs }.withResult .ok) := by
  rw [execBqReset, complete_eq]

theorem execBqSetCoefs_eq (s : State) :
    execBqSetCoefs s = .next
      ({ s with bq := { s.bq with a0 := s.arg0, a1 := s.arg1, a2 := s.arg2, b1 := s.arg3, b2 := s.arg4 } }.withResult
        .ok) := by
  rw [execBqSetCoefs, f32Arg_arg0, f32Arg_arg1, f32Arg_arg2, f32Arg_arg3, f32Arg_arg4, complete_eq]

/-- Settles O28: `bqResetRegs` is the bypass set over a cleared state, and the words are their rows of the opcode map. -/
theorem bqResetAndCoefficients : Obligations.BqResetAndCoefficients :=
  ⟨by decide, by decide, fun s => ⟨(execBqReset_eq s).trans rfl, (execBqSetCoefs_eq s).trans rfl⟩⟩

theorem execBqProcessSample_eq (s : State) :
    execBqProcessSample s = .next
      (({ s with bq := (bqStep s.build.form s.bq s.arg0).1 }.withRes0 (bqStep s.build.form s.bq s.arg0).2).withResult
        .ok) := by
  rw [execBqProcessSample, f32Arg_arg0, complete_eq]

/-- Settles O29: the step of the form that is built is the pseudocode of its rule. -/
theorem bqSampleUpdatesState : Obligations.BqSampleUpdatesState := by
  refine fun s => ⟨fun hform => ?_, fun hform => ?_⟩
  · refine (execBqProcessSample_eq s).trans ?_
    rw [hform]
    rfl
  · refine (execBqProcessSample_eq s).trans ?_
    rw [hform]
    rfl

end Sys2Proof.Proofs
end

section
/-! PROOFS. AN_CONFIG and AN_NEXT (43_analyzer.md, R121, R126, R127): the equations of their cases, and the chunks that
AN_NEXT in a row hands out. -/

namespace Sys2Proof.Proofs

open Sys2Proof.Machine

/-! ## AN_CONFIG (R121, R143) -/

theorem toNat_ne_zero {w : Word} (h : w ≠ 0#32) : w.toNat ≠ 0 := fun h0 => h (BitVec.eq_of_toNat_eq h0)

theorem execAnConfig_of_zero {s : State} (h : s.arg1 = 0#32 ∨ s.arg3 = 0#32) :
    execAnConfig s = .next { s with result := .config } :=
  if_pos (h.imp (congrArg BitVec.toNat) (congrArg BitVec.toNat))

theorem execAnConfig_of_outside {s : State} (h1 : s.arg1 ≠ 0#32) (h3 : s.arg3 ≠ 0#32)
    (h : s.build.dmemWords < s.arg2.toNat + runWords s.arg3.toNat) :
    execAnConfig s = .next { s with result := .range } := by
  rw [execAnConfig, u32Arg_arg1, u32Arg_arg2, u32Arg_arg3, if_neg (not_or.2 ⟨toNat_ne_zero h1, toNat_ne_zero h3⟩),
    inRange_of_lt h]
  rfl

theorem execAnConfig_of_fits {s : State} (h1 : s.arg1 ≠ 0#32) (h3 : s.arg3 ≠ 0#32)
    (h : s.arg2.toNat + runWords s.arg3.toNat ≤ s.build.dmemWords) :
    execAnConfig s = .next
      { s with
        result := .ok
        an := { clearRun s.an with fs := s.arg0, bs := s.arg1, base := s.arg2, cap := s.arg3 } } := by
  rw [execAnConfig, u32Arg_arg1, u32Arg_arg2, u32Arg_arg3, if_neg (not_or.2 ⟨toNat_ne_zero h1, toNat_ne_zero h3⟩),
    inRange_of_le h]
  rfl

/-- Settles O35: the zero operands decide first, the buffers second. -/
theorem anConfigTakesConfiguration : Obligations.AnConfigTakesConfiguration :=
  ⟨rfl, fun _ => ⟨execAnConfig_of_zero, fun h1 h3 => ⟨execAnConfig_of_outside h1 h3, execAnConfig_of_fits h1 h3⟩⟩⟩

/-! ## AN_NEXT (R126, R127) -/

/-- The length of the next chunk of a run (R126). -/
def nextLen (a : Analyzer) : Nat := chunkLen a.bs.toNat a.len.toNat a.pos.toNat

/-- The state AN_NEXT leaves in CHUNKS: the next chunk in the RES registers, the cursor after it (R127). -/
def handedOut (s : State) : State :=
  { s with
    result := .ok
    res0 := u32Word (inBase s.an + s.an.pos.toNat)
    res1 := u32Word (outBase s.an + s.an.pos.toNat)
    res2 := u32Word (nextLen s.an)
    an :=
      { s.an with
        pos := u32Word (s.an.pos.toNat + nextLen s.an)
        state := if s.an.pos.toNat + nextLen s.an = s.an.len.toNat then .processed else .chunks } }

theorem execAnNext_of_chunks {s : State} (h : s.an.state = .chunks) : execAnNext s = .next (handedOut s) :=
  if_neg (not_not.2 h)

theorem execAnNext_of_other {s : State} (h : s.an.state ≠ .chunks) : execAnNext s = .next { s with result := .sequence } :=
  if_pos h

/-- Settles O39: `handedOut` is the state of the statement. -/
theorem anNextHandsOutAChunk : Obligations.AnNextHandsOutAChunk :=
  ⟨rfl, fun _ => ⟨execAnNext_of_other, fun h _ => execAnNext_of_chunks h⟩⟩

/-- AN_NEXT once more, after the others. -/
theorem repeatNext_succ {n : Nat} {s t : State} (h : repeatNext n s = .next t) : repeatNext (n + 1) s = exec .anNext t := by
  induction n generalizing s with
  | zero =>
    obtain rfl : s = t := Host.Outcome.next.inj h
    rw [repeatNext]
    cases hu : exec .anNext s with
    | next u => rfl
    | fault f => rfl
    | refused r => rfl
  | succ n ih =>
    rw [repeatNext] at h ⊢
    cases hu : exec .anNext s with
    | next u => rw [hu] at h; exact ih h
    | fault f => rw [hu] at h; cases h
    | refused r => rw [hu] at h; cases h

/-- Chunk `j` exists exactly when it begins inside the run. -/
theorem lt_chunkCount_iff {len bs j : Nat} (hbs : bs ≠ 0) : j < chunkCount len bs ↔ j * bs < len := by
  rw [chunkCount, ← Nat.succ_le_iff, Nat.le_div_iff_mul_le (Nat.pos_of_ne_zero hbs), Nat.succ_mul]
  omega

/-- While chunks remain the cursor has moved by whole blocks (R126). -/
theorem repeatNext_tiles {s : State} (hstate : s.an.state = .chunks) (hpos : s.an.pos = 0#32) {j : Nat}
    (hj : j * s.an.bs.toNat < s.an.len.toNat) :
    ∃ t, repeatNext j s = .next t ∧ t.an = { s.an with pos := u32Word (j * s.an.bs.toNat) } ∧ t.mem = s.mem := by
  induction j with
  | zero => exact ⟨s, rfl, by rw [Nat.zero_mul, u32Word, ← hpos], rfl⟩
  | succ j ih =>
    rw [Nat.succ_mul] at hj
    obtain ⟨t, ht, han, hmem⟩ := ih (by omega)
    have hcursor : (u32Word (j * s.an.bs.toNat)).toNat = j * s.an.bs.toNat :=
      u32Word_toNat (by have := s.an.len.isLt; omega)
    have hlen : nextLen t.an = s.an.bs.toNat := by
      rw [nextLen, han]
      change min s.an.bs.toNat (s.an.len.toNat - (u32Word (j * s.an.bs.toNat)).toNat) = _
      omega
    refine ⟨handedOut t, ?_, ?_, hmem⟩
    · rw [repeatNext_succ ht]
      exact execAnNext_of_chunks (by rw [han]; exact hstate)
    · simp only [handedOut, hlen]
      simp only [han, hcursor, Nat.succ_mul]
      rw [if_neg (by omega), hstate]

/-- Settles O40: the chunk after `j` whole blocks is a whole block or, where the run ends, the rest. -/
theorem chunksTileTheRun : Obligations.ChunksTileTheRun := by
  intro s hstate hpos hbs hlen j hj
  have hbs' := toNat_ne_zero hbs
  have hfirst := (lt_chunkCount_iff hbs').1 hj
  obtain ⟨t, ht, han, hmem⟩ := repeatNext_tiles hstate hpos hfirst
  have hcursor : (u32Word (j * s.an.bs.toNat)).toNat = j * s.an.bs.toNat :=
    u32Word_toNat (hfirst.trans s.an.len.isLt)
  have hnext : nextLen t.an = min s.an.bs.toNat (s.an.len.toNat - j * s.an.bs.toNat) := by
    rw [nextLen, han]
    exact congrArg (fun p => min s.an.bs.toNat (s.an.len.toNat - p)) hcursor
  have hmore := lt_chunkCount_iff (len := s.an.len.toNat) (j := j + 1) hbs'
  rw [Nat.succ_mul] at hmore
  refine ⟨handedOut t, ?_, ?_, ?_, ?_, ?_, hmem⟩
  · rw [repeatNext_succ ht]
    exact execAnNext_of_chunks (by rw [han]; exact hstate)
  · simp only [handedOut, han, hcursor]; rfl
  · simp only [handedOut, han, hcursor]; rfl
  · simp only [handedOut, hnext]
    split
    · rename_i hlast
      rw [Nat.min_eq_left (by omega)]; rfl
    · rename_i hlast
      obtain rfl : j = chunkCount s.an.len.toNat s.an.bs.toNat - 1 := by omega
      rw [Nat.min_eq_right (by omega), Nat.mul_comm]; rfl
  · simp only [handedOut, hnext]
    simp only [han, hcursor]
    split
    · rw [if_neg (by omega)]
    · rw [if_pos (by omega)]

end Sys2Proof.Proofs
end

section
/-! PROOFS. The analyzer's buffers (43_analyzer.md sections 2 and 3, R121 to R134): where they lie, what a seeded run holds
in them, and the spectra of the words they hold. -/

namespace Sys2Proof.Proofs

open Sys2Proof.Machine

/-! ## The layout (R121, R122) -/

/-- For `n` samples the used words of IN, OUT, MAG and PH follow one another inside DMEM. -/
theorem buffers_follow {a : Analyzer} {words n : Nat} (hfit : buffersFit a words) (hn : n ≤ a.cap.toNat) :
    inBase a + n ≤ outBase a ∧ outBase a + n ≤ magBase a ∧ magBase a + binCount n ≤ phBase a ∧
      phBase a + binCount n ≤ words := by
  have hbins := binCount_le_binCapacity hn
  unfold buffersFit runWords at hfit
  unfold inBase outBase magBase phBase
  omega

theorem holdsWords_of_reads {d : Dmem} {a : Nat} {xs : List Word} (hfit : a + xs.length ≤ d.words)
    (h : ∀ i (hi : i < xs.length), readWord d.cells (a + i) = some xs[i]) : HoldsWords d a xs :=
  fun i hi => ⟨by omega, h i hi⟩

/-! ## The spectra of written and of unwritten words (R74, R131) -/

/-- Spectra that are computed have read every word of IN and OUT. -/
theorem writeSpectra_read {a : Analyzer} {n : Nat} {d d' : Dmem} (h : writeSpectra a n d = .ok d') {i : Nat} (hi : i < n) :
    readWord d.cells (inBase a + i) ≠ none ∧ readWord d.cells (outBase a + i) ≠ none := by
  unfold writeSpectra at h
  split at h
  · cases h
  · rename_i vin hin
    split at h
    · cases h
    · rename_i vout hout
      obtain ⟨hli, hHi⟩ := readWords_iff_holdsWords.1 hin
      obtain ⟨hlo, hHo⟩ := readWords_iff_holdsWords.1 hout
      rw [(hHi i (by omega)).2, (hHo i (by omega)).2]
      exact ⟨Option.some_ne_none _, Option.some_ne_none _⟩

/-- An unwritten sample stops the spectra, at an unwritten word. -/
theorem writeSpectra_unwritten {a : Analyzer} {n : Nat} {d : Dmem} (hfit : buffersFit a d.words) (hn : n ≤ a.cap.toNat)
    (h : ∃ i < n, readWord d.cells (inBase a + i) = none ∨ readWord d.cells (outBase a + i) = none) :
    ∃ c, writeSpectra a n d = .error (.unwrittenWord c) ∧ readWord d.cells c = none := by
  obtain ⟨i, hi, hnone⟩ := h
  cases hw : writeSpectra a n d with
  | ok d' =>
    obtain ⟨hin, hout⟩ := writeSpectra_read hw hi
    exact absurd hnone (not_or.2 ⟨hin, hout⟩)
  | error f =>
    obtain ⟨c, -, rfl, hc⟩ := writeSpectra_error hfit hn hw
    exact ⟨c, rfl, hc⟩

/-- The spectra of the samples IN and OUT hold. -/
theorem writeSpectra_of_reads {s : State} {n : Nat} {vin vout : List Word} (hfit : buffersFit s.an s.build.dmemWords)
    (hn : n ≤ s.an.cap.toNat) (hli : vin.length = n) (hlo : vout.length = n)
    (hin : ∀ i (h : i < vin.length), readWord s.mem (inBase s.an + i) = some vin[i])
    (hout : ∀ i (h : i < vout.length), readWord s.mem (outBase s.an + i) = some vout[i]) :
    ∃ d, writeSpectra s.an n s.dmem = .ok d ∧
      (∀ k < binCount n,
        readWord d.cells (magBase s.an + k) = some (spectrumBin (rdftBin vout k) (rdftBin vin k)).1 ∧
          readWord d.cells (phBase s.an + k) = some (spectrumBin (rdftBin vout k) (rdftBin vin k)).2) ∧
      ∀ x, (x < 4 * magBase s.an ∨ 4 * (magBase s.an + binCount n) ≤ x) →
        (x < 4 * phBase s.an ∨ 4 * (phBase s.an + binCount n) ≤ x) → readByte d.cells x = readByte s.mem x := by
  obtain ⟨hio, hom, hmp, hp⟩ := buffers_follow hfit hn
  have hHi : HoldsWords s.dmem (inBase s.an) vin := holdsWords_of_reads (by rw [State.dmem_words]; omega) hin
  have hHo : HoldsWords s.dmem (outBase s.an) vout := holdsWords_of_reads (by rw [State.dmem_words]; omega) hout
  obtain ⟨d, hd, hspec⟩ := writeSpectra_spec (d := s.dmem) hfit hn hli hlo hHi hHo
  exact ⟨d, hd, hspec.bins vin vout hli hlo hHi hHo, hspec.frame⟩

/-! ## AN_FINISH (R129) -/

theorem execAnFinish_of_other {s : State} (h : s.an.state ≠ .processed) :
    execAnFinish s = .next { s with result := .sequence } := if_pos h

theorem execAnFinish_of_error {s : State} {f : Fault} (h : s.an.state = .processed)
    (hf : writeSpectra s.an s.an.len.toNat s.dmem = .error f) : execAnFinish s = .fault f := by
  rw [execAnFinish, if_neg (not_not.2 h), hf]

theorem execAnFinish_of_spectra {s : State} {d : Dmem} (h : s.an.state = .processed)
    (hd : writeSpectra s.an s.an.len.toNat s.dmem = .ok d) :
    execAnFinish s = .next
      { s with
        result := .ok
        res0 := s.an.len
        res1 := u32Word (binCount s.an.len.toNat)
        an := { s.an with k := u32Word (binCount s.an.len.toNat), state := .done }
        mem := d.cells } := by
  rw [execAnFinish, if_neg (not_not.2 h), hd]
  rfl

/-- Settles O42: the state decides first; the samples are all written, or the spectra stop at one that is not. -/
theorem anFinishWritesTheSpectra : Obligations.AnFinishWritesTheSpectra := by
  refine fun s => ⟨execAnFinish_of_other, fun hstate hfit hle hnone => ?_,
    fun vin vout hstate hfit hle hli hlo hin hout => ?_⟩
  · obtain ⟨c, hc, hcn⟩ := writeSpectra_unwritten (d := s.dmem) hfit hle hnone
    exact ⟨c, execAnFinish_of_error hstate hc, hcn⟩
  · obtain ⟨d, hd, hbins, hframe⟩ := writeSpectra_of_reads hfit hle hli hlo hin hout
    exact ⟨d.cells, execAnFinish_of_spectra hstate hd, hbins, hframe⟩

/-! ## AN_SPECTRUM (R134, R143) -/

theorem execAnSpectrum_of_length {n : Nat} {s : State} (hcap : s.an.cap ≠ 0#32) (h : n = 0 ∨ s.an.cap.toNat < n) :
    execAnSpectrum n s = .next { s with result := .range } := by
  rw [execAnSpectrum, if_neg (toNat_ne_zero hcap), if_pos h]
  rfl

theorem execAnSpectrum_of_error {n : Nat} {s : State} {f : Fault} (hcap : s.an.cap ≠ 0#32) (hn : n ≠ 0)
    (hle : n ≤ s.an.cap.toNat) (hf : writeSpectra s.an n s.dmem = .error f) : execAnSpectrum n s = .fault f := by
  rw [execAnSpectrum, if_neg (toNat_ne_zero hcap), if_neg (not_or.2 ⟨hn, hle.not_gt⟩), hf]

theorem execAnSpectrum_of_spectra {n : Nat} {s : State} {d : Dmem} (hcap : s.an.cap ≠ 0#32) (hn : n ≠ 0)
    (hle : n ≤ s.an.cap.toNat) (hd : writeSpectra s.an n s.dmem = .ok d) :
    execAnSpectrum n s = .next
      { s with
        result := .ok
        res0 := u32Word n
        res1 := u32Word (binCount n)
        an := { s.an with k := u32Word (binCount n) }
        mem := d.cells } := by
  rw [execAnSpectrum, if_neg (toNat_ne_zero hcap), if_neg (not_or.2 ⟨hn, hle.not_gt⟩), hd]
  rfl

/-- Settles O43: the length decides first; the samples are all written, or the spectra stop at one that is not. -/
theorem anSpectrumOfHostData : Obligations.AnSpectrumOfHostData := by
  refine fun n s hcap => ⟨execAnSpectrum_of_length hcap, fun hn hle hfit hnone => ?_,
    fun vin vout hn hle hfit hli hlo hin hout => ?_⟩
  · obtain ⟨c, hc, hcn⟩ := writeSpectra_unwritten (d := s.dmem) hfit hle hnone
    exact ⟨c, execAnSpectrum_of_error hcap hn hle hc, hcn⟩
  · obtain ⟨d, hd, hbins, hframe⟩ := writeSpectra_of_reads hfit hle hli hlo hin hout
    exact ⟨d.cells, execAnSpectrum_of_spectra hcap hn hle hd, hbins, hframe⟩

/-! ## A seeded run (R123 to R125, R130) -/

/-- The state the seeding of a run leaves: the run cleared but for its length, generator G moved on, and DMEM. -/
def seeded (s : State) (len : Word) (g : SweepGen) (m : Memory) : State :=
  { s with an := { clearRun s.an with len := len, gen := g }, mem := m }

/-- The samples of the analyzer's own sweep (R123, R124). -/
def sweepSamples (a : Analyzer) (len : Nat) : List Word := (List.range len).map (sampleOf (initPrivateGen a.fs))

@[simp] theorem sweepSamples_length (a : Analyzer) (len : Nat) : (sweepSamples a len).length = len := by
  simp [sweepSamples]

/-- Each word of the region holds its sample of the analyzer's own sweep. -/
abbrev HoldsSweep (m : Memory) (base : Nat) (a : Analyzer) (len : Nat) : Prop :=
  ∀ i < len, readWord m (base + i) = some (sampleOf (initPrivateGen a.fs) i)

theorem HoldsSweep.holdsWords {d : Dmem} {base len : Nat} {a : Analyzer} (h : HoldsSweep d.cells base a len)
    (hfit : base + len ≤ d.words) : HoldsWords d base (sweepSamples a len) := by
  refine holdsWords_of_reads (by rwa [sweepSamples_length]) fun i hi => ?_
  rw [h i (by rwa [sweepSamples_length] at hi)]
  simp [sweepSamples]

/-- A sweep that ends within AN_CAP samples is in IN and in OUT, and no other byte changes (R124, R125). -/
theorem seedRun_of_ends {s : State} {len : Nat} (hfit : buffersFit s.an s.build.dmemWords)
    (hends : sweepEndsAt (initPrivateGen s.an.fs) len) (hle : len ≤ s.an.cap.toNat) :
    ∃ g m, seedRun s = .ok ⟨true, len, seeded s (u32Word len) g m⟩ ∧
      HoldsSweep m (inBase s.an) s.an len ∧ HoldsSweep m (outBase s.an) s.an len ∧
      ∀ x, (x < 4 * inBase s.an ∨ 4 * (inBase s.an + len) ≤ x) →
        (x < 4 * outBase s.an ∨ 4 * (outBase s.an + len) ≤ x) → readByte m x = readByte s.mem x := by
  obtain ⟨⟨fits, len', u⟩, hr, hstate, han, -, -, hfits, hlong⟩ := seedRun_spec hfit
  cases fits with
  | false => exact absurd (hlong rfl).1 (not_sweepRunsOn hends hle)
  | true =>
    obtain ⟨hends', -, -, hsamples, hframe⟩ := hfits rfl
    obtain rfl := sweepEndsAt_unique hends hends'
    have hu : u = seeded s (u32Word len) u.an.gen u.mem :=
      hstate.trans (congrArg (fun a => { s with an := a, mem := u.mem }) han)
    exact ⟨u.an.gen, u.mem, by rw [hr, ← hu], fun i hi => (hsamples i hi).1,
      fun i hi => (hsamples i hi).2, hframe⟩

/-- A sweep that goes on leaves its first AN_CAP samples in IN and no run (R124, R125). -/
theorem seedRun_of_runsOn {s : State} (hfit : buffersFit s.an s.build.dmemWords)
    (hruns : sweepRunsOn (initPrivateGen s.an.fs) s.an.cap.toNat) :
    ∃ r g m, seedRun s = .ok r ∧ r.fits = false ∧ r.state = seeded s 0#32 g m ∧
      HoldsSweep m (inBase s.an) s.an s.an.cap.toNat ∧
      ∀ x, (x < 4 * inBase s.an ∨ 4 * (inBase s.an + s.an.cap.toNat) ≤ x) → readByte m x = readByte s.mem x := by
  obtain ⟨⟨fits, len', u⟩, hr, hstate, han, -, -, hfits, hlong⟩ := seedRun_spec hfit
  cases fits with
  | true =>
    obtain ⟨hends, hle, -⟩ := hfits rfl
    exact absurd hruns (not_sweepRunsOn hends hle)
  | false =>
    obtain ⟨-, -, hsamples, hframe⟩ := hlong rfl
    have hu : u = seeded s 0#32 u.an.gen u.mem :=
      hstate.trans (congrArg (fun a => { s with an := a, mem := u.mem }) han)
    exact ⟨_, _, _, hr, rfl, hu, hsamples, hframe⟩

/-! ## AN_BEGIN (R125) -/

theorem execAnBegin_of_fits {s : State} {r : SeedResult} (hcap : s.an.cap ≠ 0#32) (hr : seedRun s = .ok r)
    (hfits : r.fits = true) :
    execAnBegin s = .next
      { r.state with result := .ok, res0 := u32Word r.len, an := { r.state.an with state := .chunks } } := by
  simp only [execAnBegin, if_neg (toNat_ne_zero hcap), hr, hfits]
  rfl

/-- Settles O37: the seeded run is the statement's state, its run moved to CHUNKS. -/
theorem anBeginSeedsTheRun : Obligations.AnBeginSeedsTheRun := by
  intro s len hcap hfit hends hle
  obtain ⟨g, m, hr, hin, hout, hframe⟩ := seedRun_of_ends hfit hends hle
  exact ⟨m, g, execAnBegin_of_fits hcap hr rfl, fun i hi => ⟨hin i hi, hout i hi⟩, hframe⟩

/-- AN_BEGIN and AN_RUN_BQ end alike when the sweep does not fit (R125, R130). -/
theorem exec_of_capacity {i : Instr} {s : State} {r : SeedResult} (hi : i = .anBegin ∨ i = .anRunBq)
    (hcap : s.an.cap ≠ 0#32) (hr : seedRun s = .ok r) (hfits : r.fits = false) :
    exec i s = .next (capacityEnd r.state) := by
  obtain rfl | rfl := hi
  · change execAnBegin s = _
    simp [execAnBegin, toNat_ne_zero hcap, hr, hfits]
  · change execAnRunBq s = _
    simp [execAnRunBq, toNat_ne_zero hcap, hr, hfits]

/-- Settles O38: both commands end with the cleared run of a sweep that goes on. -/
theorem sweepLongerThanCapacity : Obligations.SweepLongerThanCapacity := by
  intro s i hi hcap hfit hruns
  obtain ⟨r, g, m, hr, hfits, hstate, hsamples, hframe⟩ := seedRun_of_runsOn hfit hruns
  refine ⟨m, g, ?_, hsamples, hframe⟩
  rw [exec_of_capacity hi hcap hr hfits, hstate]
  rfl

end Sys2Proof.Proofs
end

section
/-! PROOFS. AN_RUN_BQ (43_analyzer.md, R130, R137, R138): what the run measures, the block sizes and the host's own loop
that leave the same state, and the transitions of AN_STATE. -/

namespace Sys2Proof.Proofs

open Sys2Proof.Machine

/-! ## A run with the BQ unit (R130) -/

/-- The state after the run of a seeded state: the filter's registers, and DMEM with its outputs and the spectra. -/
def measured (u : State) (len : Nat) (b : Biquad) (m : Memory) : State :=
  { u with
    result := .ok
    res0 := u32Word len
    res1 := u32Word (binCount len)
    bq := b
    an := { u.an with pos := u32Word len, k := u32Word (binCount len), state := .done }
    mem := m }

/-- Whatever the block size, a run filters OUT as one block (R119, R138). -/
theorem execAnRunBq_of_run {s : State} {r : SeedResult} {p : Biquad × Dmem} {d : Dmem} (hcap : s.an.cap ≠ 0#32)
    (hbs : s.an.bs ≠ 0#32) (hr : seedRun s = .ok r) (hfits : r.fits = true)
    (hp : bqBlock s.build.form r.len (outBase s.an) s.bq r.state.dmem = .ok p)
    (hd : writeSpectra s.an r.len p.2 = .ok d) : execAnRunBq s = .next (measured r.state r.len p.1 d.cells) := by
  simp only [execAnRunBq, if_neg (toNat_ne_zero hcap), hr, hfits,
    bqChunks_eq_bqBlock s.build.form (toNat_ne_zero hbs) le_rfl, hp, hd]
  rfl

/-- A completed AN_RUN_BQ, with its chunks as one block. -/
theorem execAnRunBq_next_block {s t : State} (hbs : s.an.bs ≠ 0#32) (h : execAnRunBq s = .next t) :
    (s.an.cap = 0#32 ∧ t = s.withResult .config) ∨
      (s.an.cap ≠ 0#32 ∧ ∃ r, seedRun s = .ok r ∧
        ((r.fits = false ∧ t = capacityEnd r.state) ∨
          (r.fits = true ∧ ∃ p d, bqBlock s.build.form r.len (outBase s.an) s.bq r.state.dmem = .ok p ∧
            writeSpectra s.an r.len p.2 = .ok d ∧ t = measured r.state r.len p.1 d.cells))) := by
  obtain ⟨hcap, rfl⟩ | ⟨hcap, r, hr, hcase⟩ := execAnRunBq_next h
  · exact .inl ⟨BitVec.eq_of_toNat_eq hcap, rfl⟩
  · refine .inr ⟨fun h0 => hcap (congrArg BitVec.toNat h0), r, hr, hcase.imp id ?_⟩
    rintro ⟨hfits, p, d, hp, hd, rfl⟩
    rw [bqChunks_eq_bqBlock s.build.form (toNat_ne_zero hbs) le_rfl] at hp
    exact ⟨hfits, p, d, hp, hd, rfl⟩

/-- The spectra leave every word below MAG as it was, those of IN and OUT among them. -/
theorem readWord_of_spectra {a : Analyzer} {n b : Nat} {d d' : Dmem} (h : SpectrumSpec a n d d')
    (hb : b < magBase a) : readWord d'.cells b = readWord d.cells b := by
  have hmp : magBase a ≤ phBase a := Nat.le_add_right _ _
  exact readWord_congr fun x _ hx => h.frame x (by omega) (by omega)

/-- Settles O44: the sweep is seeded, its copy in OUT filtered in place, and the spectra of both are written; each step
leaves the buffers of the ones before it alone. -/
theorem anRunBqMeasuresTheFilter : Obligations.AnRunBqMeasuresTheFilter := by
  intro s len hcap hbs hfit hends hle vin vout
  obtain ⟨hio, hom, hmp, hp⟩ := buffers_follow (a := s.an) hfit hle
  obtain ⟨g, m, hr, hin, hout, hframe⟩ := seedRun_of_ends hfit hends hle
  have hlen : vin.length = len := sweepSamples_length s.an len
  have hlen' : vout.length = len := (bqOutputs_length _ _ _).trans hlen
  have hvin : HoldsWords (seeded s (u32Word len) g m).dmem (inBase s.an) vin :=
    HoldsSweep.holdsWords hin (by change _ ≤ s.build.dmemWords; omega)
  have hvcopy : HoldsWords (seeded s (u32Word len) g m).dmem (outBase s.an) vin :=
    HoldsSweep.holdsWords hout (by change _ ≤ s.build.dmemWords; omega)
  obtain ⟨d, hd, hwrites, hvout⟩ := bqBlock_spec s.build.form (b := s.bq) hvcopy
  rw [hlen] at hd hwrites
  have hvin' := hvin.of_writesOnly hwrites (by omega)
  obtain ⟨e, he, hspec⟩ := writeSpectra_spec (by rw [hwrites.words]; exact hfit) hle hlen hlen' hvin' hvout
  refine ⟨e.cells, g, execAnRunBq_of_run hcap hbs hr rfl hd he, fun i hi => ⟨?_, ?_⟩,
    hspec.bins vin vout hlen hlen' hvin' hvout, fun x hxi hxo hxm hxp => ?_⟩
  · rw [readWord_of_spectra hspec (by omega), (hvin' i (hi.trans_eq hlen.symm)).2, List.getElem?_eq_getElem]
  · rw [readWord_of_spectra hspec (by omega), (hvout i (hi.trans_eq hlen'.symm)).2, List.getElem?_eq_getElem]
  · rw [hspec.frame x hxm hxp, hwrites.frame x hxo]
    exact hframe x hxi hxo

/-! ## Any block size (R138) -/

/-- The state under another block size. -/
def withBlockSize (s : State) (b : Word) : State := { s with an := { s.an with bs := b } }

/-- Seeding a run does not read the block size, and keeps it. -/
theorem seedRun_withBlockSize {s : State} {r : SeedResult} (b : Word) (h : seedRun s = .ok r) :
    seedRun (withBlockSize s b) = .ok { r with state := withBlockSize r.state b } := by
  have hgen : generate (withBlockSize s b).an (withBlockSize s b).dmem = generate s.an s.dmem := rfl
  have hin : inBase (withBlockSize s b).an = inBase s.an := rfl
  have hout : outBase (withBlockSize s b).an = outBase s.an := rfl
  unfold seedRun at h ⊢
  rw [hgen, hin, hout]
  split at h
  · cases h
  · dsimp only at h ⊢
    split at h
    · rename_i hex
      rw [if_pos hex]
      cases h
      rfl
    · rename_i hex
      rw [if_neg hex]
      split at h
      · cases h
      · cases h
        rfl

/-- Settles O45: the run is seeded alike and filtered as one block, whatever the block size. -/
theorem blockSizeIndependent : Obligations.BlockSizeIndependent := by
  intro s t b1 b2 hb1 hb2 h
  obtain ⟨hcap, rfl⟩ | ⟨hcap, r, hr, hcase⟩ := execAnRunBq_next_block hb1 h
  · exact if_pos (congrArg BitVec.toNat hcap)
  · have hr2 := seedRun_withBlockSize b2 hr
    obtain ⟨hfits, rfl⟩ | ⟨hfits, p, d, hp, hd, rfl⟩ := hcase
    · exact exec_of_capacity (s := withBlockSize s b2) (.inr rfl) hcap hr2 hfits
    · exact execAnRunBq_of_run (s := withBlockSize s b2) hcap hb2 hr2 hfits hp hd

/-! ## The host's loop (R138) -/

/-- A count of chunks is one more than that of what the first chunk leaves. -/
theorem chunkCount_eq_succ {rest bs n : Nat} (hbs : bs ≠ 0) (h : chunkCount rest bs = n + 1) :
    0 < rest ∧ chunkCount (rest - min bs rest) bs = n := by
  have hpos : 0 < rest := by
    have hfirst := lt_chunkCount_iff (len := rest) (j := 0) hbs
    omega
  refine ⟨hpos, ?_⟩
  have hiff : ∀ j, j < chunkCount (rest - min bs rest) bs ↔ j < n := fun j => by
    have hnext := lt_chunkCount_iff (len := rest) (j := j + 1) hbs
    rw [h, Nat.succ_mul] at hnext
    rw [lt_chunkCount_iff hbs]
    omega
  have h1 := hiff n
  have h2 := hiff (chunkCount (rest - min bs rest) bs)
  omega

/-- A run whose cursor is at a chunk's beginning or, in PROCESSED, at its end. -/
structure RunAt (u : State) : Prop where
  /-- A block has a sample (R121). -/
  blocks : u.an.bs.toNat ≠ 0
  /-- The cursor is in 0 .. L (R54). -/
  inside : u.an.pos.toNat ≤ u.an.len.toNat
  /-- Chunks remain exactly before the end of the run (R56). -/
  state : u.an.state = if u.an.pos.toNat = u.an.len.toNat then .processed else .chunks
  /-- OUT lies in DMEM, at addresses a register holds (R7, R121). -/
  region : outBase u.an + u.an.len.toNat ≤ u.build.dmemWords ∧ u.build.dmemWords < 2 ^ 32

/-- The state the host's loop leaves: OUT filtered, the run in PROCESSED; ARG0, the RES registers and RESULT as the last
commands left them. -/
def loopEnd (u : State) (r : Biquad × Dmem) (arg0 res0 res1 res2 : Word) (c : ResultCode) : State :=
  { u with
    result := c
    arg0 := arg0
    res0 := res0
    res1 := res1
    res2 := res2
    bq := r.1
    an := { u.an with pos := u.an.len, state := .processed }
    mem := r.2.cells }

/-- The commands of one chunk, each of which gave a next state. -/
theorem repeatChunk_succ {n : Nat} {u t : State} (h : repeatChunk (n + 1) u = .next t) :
    ∃ v w, exec .anNext u = .next v ∧ exec (.bqProcessBlock v.res2.toNat) { v with arg0 := v.res1 } = .next w ∧
      repeatChunk n w = .next t := by
  rw [repeatChunk] at h
  split at h
  · rename_i v hv
    split at h
    · rename_i w hw
      exact ⟨v, w, hv, hw, h⟩
    · cases h
    · cases h
  · cases h
  · cases h

/-- The next chunk, which AN_NEXT hands out and BQ_PROCESS_BLOCK filters in place. -/
theorem chunk_filters {u v w : State} (hrun : RunAt u) (hmore : u.an.pos.toNat < u.an.len.toNat)
    (hv : exec .anNext u = .next v) (hw : exec (.bqProcessBlock v.res2.toNat) { v with arg0 := v.res1 } = .next w) :
    ∃ r, bqBlock u.build.form (nextLen u.an) (outBase u.an + u.an.pos.toNat) u.bq u.dmem = .ok r ∧
      w = afterBlock { handedOut u with arg0 := (handedOut u).res1 } r := by
  obtain ⟨hblocks, hinside, hstate, hregion, hwords⟩ := hrun
  rw [if_neg (by omega)] at hstate
  obtain rfl : v = handedOut u := Host.Outcome.next.inj (hv.symm.trans (execAnNext_of_chunks hstate))
  have hle : nextLen u.an ≤ u.an.len.toNat - u.an.pos.toNat := Nat.min_le_right _ _
  have harg : (handedOut u).res1.toNat = outBase u.an + u.an.pos.toNat := u32Word_toNat (by omega)
  have hcount : (handedOut u).res2.toNat = nextLen u.an := u32Word_toNat (by omega)
  rw [hcount] at hw
  obtain ⟨r, hr, rfl⟩ := execBqProcessBlock_inside (s := { handedOut u with arg0 := (handedOut u).res1 })
    (by change (handedOut u).res1.toNat + _ ≤ u.build.dmemWords; omega) hw
  exact ⟨r, by rw [← harg]; exact hr, rfl⟩

theorem nextLen_le {u : State} (hrun : RunAt u) : u.an.pos.toNat + nextLen u.an ≤ u.an.len.toNat := by
  have hle : nextLen u.an ≤ u.an.len.toNat - u.an.pos.toNat := Nat.min_le_right _ _
  have hinside := hrun.inside
  omega

theorem handedOut_pos {u : State} (hrun : RunAt u) :
    (handedOut u).an.pos.toNat = u.an.pos.toNat + nextLen u.an :=
  u32Word_toNat (Nat.lt_of_le_of_lt (nextLen_le hrun) u.an.len.isLt)

/-- After a chunk the cursor is at the next one's beginning or at the end. -/
theorem RunAt.afterChunk {u : State} (hrun : RunAt u) (arg0 : Word) (r : Biquad × Dmem) :
    RunAt (afterBlock { handedOut u with arg0 := arg0 } r) where
  blocks := hrun.blocks
  inside := (handedOut_pos hrun).trans_le (nextLen_le hrun)
  state := by
    change (if _ then _ else _) = if (handedOut u).an.pos.toNat = u.an.len.toNat then _ else _
    rw [handedOut_pos hrun]
  region := hrun.region

/-- The host's loop over the chunks that remain filters them as one block (R119, R138). -/
theorem repeatChunk_filters {n : Nat} {u t : State} (hrun : RunAt u)
    (hn : chunkCount (u.an.len.toNat - u.an.pos.toNat) u.an.bs.toNat = n) (h : repeatChunk n u = .next t) :
    ∃ r arg0 res0 res1 res2 c,
      bqBlock u.build.form (u.an.len.toNat - u.an.pos.toNat) (outBase u.an + u.an.pos.toNat) u.bq u.dmem = .ok r ∧
        t = loopEnd u r arg0 res0 res1 res2 c := by
  induction n generalizing u with
  | zero =>
    obtain rfl : u = t := Host.Outcome.next.inj h
    have hfirst := lt_chunkCount_iff (len := u.an.len.toNat - u.an.pos.toNat) (j := 0) hrun.blocks
    have hinside := hrun.inside
    have hend : u.an.pos.toNat = u.an.len.toNat := by omega
    have hstate := hrun.state
    rw [if_pos hend] at hstate
    refine ⟨(u.bq, u.dmem), u.arg0, u.res0, u.res1, u.res2, u.result, by rw [hend, Nat.sub_self]; rfl, ?_⟩
    rw [loopEnd, ← BitVec.eq_of_toNat_eq hend, ← hstate]
    rfl
  | succ n ih =>
    obtain ⟨v, w, hv, hw, hrest⟩ := repeatChunk_succ h
    obtain ⟨hpos, hcount⟩ := chunkCount_eq_succ hrun.blocks hn
    obtain ⟨r, hr, rfl⟩ := chunk_filters hrun (by omega) hv hw
    have hle := nextLen_le hrun
    have hnext : (afterBlock { handedOut u with arg0 := (handedOut u).res1 } r).an.pos.toNat =
        u.an.pos.toNat + nextLen u.an := handedOut_pos hrun
    have hsplit : u.an.len.toNat - u.an.pos.toNat =
        nextLen u.an + (u.an.len.toNat - (u.an.pos.toNat + nextLen u.an)) := by omega
    obtain ⟨r', arg0, res0, res1, res2, c, hr', rfl⟩ := ih (hrun.afterChunk _ r)
      (by rw [hnext, Nat.sub_add_eq]; exact hcount) hrest
    refine ⟨r', arg0, res0, res1, res2, c, ?_, rfl⟩
    have hdmem : (afterBlock { handedOut u with arg0 := (handedOut u).res1 } r).dmem = r.2 :=
      congrArg (Dmem.mk · r.2.cells) (bqBlock_keeps hr).words.symm
    rw [hnext, hdmem, ← Nat.add_assoc] at hr'
    rw [hsplit, bqBlock_add, hr]
    exact hr'

/-- A run that was seeded, whose sweep fits. -/
theorem seedRun_eq_seeded {s : State} {r : SeedResult} (h : seedRun s = .ok r) (hfits : r.fits = true) :
    ∃ len g m, r = ⟨true, len, seeded s (u32Word len) g m⟩ := by
  obtain ⟨g, d, -, hstate⟩ := seedRun_ok h
  obtain ⟨fits, len, u⟩ := r
  cases hfits
  exact ⟨len, g, d.cells, congrArg (SeedResult.mk true len) hstate⟩

/-- The state AN_BEGIN leaves of a run whose sweep fits (R125). -/
def begun (s : State) (len : Nat) (g : SweepGen) (m : Memory) : State :=
  { seeded s (u32Word len) g m with
    result := .ok
    res0 := u32Word len
    an := { (seeded s (u32Word len) g m).an with state := .chunks } }

/-- The host's loop from the start of a run filters all of OUT as one block. -/
theorem repeatChunk_begun {s t : State} {len : Nat} {g : SweepGen} {m : Memory} (hbs : s.an.bs.toNat ≠ 0)
    (hregion : outBase s.an + len ≤ s.build.dmemWords) (hwords : s.build.dmemWords < 2 ^ 32) (hpos : 0 < len)
    (h : repeatChunk (chunkCount len s.an.bs.toNat) (begun s len g m) = .next t) :
    ∃ p arg0 res0 res1 res2 c,
      bqBlock s.build.form len (outBase s.an) s.bq (seeded s (u32Word len) g m).dmem = .ok p ∧
        t = loopEnd (begun s len g m) p arg0 res0 res1 res2 c := by
  have hlen : (begun s len g m).an.len.toNat = len := u32Word_toNat (by omega)
  have hcursor : (begun s len g m).an.pos.toNat = 0 := rfl
  have hrun : RunAt (begun s len g m) :=
    { blocks := hbs
      inside := by omega
      state := by rw [hlen, hcursor, if_neg (by omega)]; rfl
      region := by rw [hlen]; exact ⟨hregion, hwords⟩ }
  have hloop := repeatChunk_filters hrun (by rw [hlen, hcursor, Nat.sub_zero]; rfl) h
  rw [hlen, hcursor, Nat.sub_zero, Nat.add_zero] at hloop
  exact hloop

/-- Settles O46: AN_BEGIN seeds the run AN_RUN_BQ seeds, the host's loop filters it as one block, and AN_FINISH computes the
spectra of the same words. -/
theorem hostLoopEqualsRunBq : Obligations.HostLoopEqualsRunBq := by
  intro s t0 t1 t2 hinv hbegin hok hloop hfinish
  obtain ⟨-, rfl⟩ | ⟨hcap, r, hr, ⟨-, rfl⟩ | ⟨hfits, rfl⟩⟩ := execAnBegin_next hbegin
  · cases hok
  · cases hok
  · obtain ⟨-, hwords⟩ := hinv.build
    obtain ⟨hbs, hfit⟩ := hinv.an.configured hcap
    obtain ⟨hle, -⟩ := seedRun_written hfit hr hfits
    obtain ⟨-, hpos, -, hlen⟩ := anInv_seeded hinv.an hcap hr hfits
    obtain ⟨len, g, m, rfl⟩ := seedRun_eq_seeded hr hfits
    obtain ⟨-, hom, hmp, hend⟩ := buffers_follow hfit hle
    have hcount : (begun s len g m).an.len.toNat = len := hlen
    change repeatChunk (chunkCount (begun s len g m).an.len.toNat s.an.bs.toNat) (begun s len g m) = _ at hloop
    rw [hcount] at hloop
    dsimp only at hpos hom hmp hend
    obtain ⟨p, a0, r0, r1, r2, c, hp, rfl⟩ := repeatChunk_begun hbs (by omega) (by omega) hpos hloop
    obtain ⟨hstate, -⟩ | ⟨-, d, hd, rfl⟩ := execAnFinish_next hfinish
    · exact absurd rfl hstate
    · have hdmem : (loopEnd (begun s len g m) p a0 r0 r1 r2 c).dmem = p.2 :=
        congrArg (Dmem.mk · p.2.cells) (bqBlock_keeps hp).words.symm
      have hlen' : (loopEnd (begun s len g m) p a0 r0 r1 r2 c).an.len.toNat = len := hlen
      rw [hlen', hdmem] at hd
      rw [hlen']
      exact execAnRunBq_of_run (fun h0 => hcap (congrArg BitVec.toNat h0)) (fun h0 => hbs (congrArg BitVec.toNat h0))
        hr rfl hp hd

/-! ## The states of a run (R137) -/

/-- AN_NEXT in CHUNKS moves to PROCESSED exactly when the cursor reaches the end of the run. -/
theorem handedOut_state {s : State} (h : s.an.pos.toNat < s.an.len.toNat) :
    (handedOut s).an.state = if (handedOut s).an.pos = (handedOut s).an.len then .processed else .chunks := by
  have hle : nextLen s.an ≤ s.an.len.toNat - s.an.pos.toNat := Nat.min_le_right _ _
  have hpos : (handedOut s).an.pos.toNat = s.an.pos.toNat + nextLen s.an :=
    u32Word_toNat (by have := s.an.len.isLt; omega)
  have hiff : (handedOut s).an.pos = (handedOut s).an.len ↔ s.an.pos.toNat + nextLen s.an = s.an.len.toNat := by
    rw [← BitVec.toNat_inj, hpos]
    rfl
  rw [if_congr hiff rfl rfl]
  rfl

/-- Seeding clears the run, so AN_STATE is IDLE until the command sets it (R125, R130). -/
theorem seedRun_state {s : State} {r : SeedResult} (h : seedRun s = .ok r) : r.state.an.state = .idle := by
  obtain ⟨g, d, -, hstate⟩ := seedRun_ok h
  rw [hstate]
  rfl

/-- Settles O47: each command of the analyzer by what it answers; the others keep the AN registers. -/
theorem analyzerStateMachine : Obligations.AnalyzerStateMachine := by
  intro i s t hinv h
  cases i with
  | sysReset => cases h; rfl
  | anConfig =>
    obtain ⟨-, rfl⟩ | ⟨-, -, -, rfl⟩ | ⟨-, -, -, rfl⟩ := execAnConfig_next h
    · exact ⟨nofun, fun _ => rfl⟩
    · exact ⟨nofun, fun _ => rfl⟩
    · exact ⟨fun _ => rfl, fun hne => absurd rfl hne⟩
  | anBegin =>
    obtain ⟨-, rfl⟩ | ⟨-, r, hr, ⟨-, rfl⟩ | ⟨-, rfl⟩⟩ := execAnBegin_next h
    · exact .inr (.inr ⟨rfl, rfl⟩)
    · exact .inr (.inl ⟨rfl, seedRun_state hr⟩)
    · exact .inl ⟨rfl, rfl⟩
  | anNext =>
    refine ⟨fun hstate => ?_, fun hstate => ?_⟩
    · obtain rfl : t = handedOut s := Host.Outcome.next.inj (h.symm.trans (execAnNext_of_chunks hstate))
      exact ⟨rfl, handedOut_state (hinv.chunks hstate)⟩
    · obtain rfl : t = { s with result := .sequence } :=
        Host.Outcome.next.inj (h.symm.trans (execAnNext_of_other hstate))
      exact ⟨rfl, rfl⟩
  | anFinish =>
    obtain ⟨hstate, rfl⟩ | ⟨hstate, d, -, rfl⟩ := execAnFinish_next h
    · exact ⟨fun hs => absurd hs hstate, fun _ => ⟨rfl, rfl⟩⟩
    · exact ⟨fun _ => ⟨rfl, rfl⟩, fun hs => absurd hstate hs⟩
  | anRunBq =>
    obtain ⟨-, rfl⟩ | ⟨-, r, hr, ⟨-, rfl⟩ | ⟨-, p, d, -, -, rfl⟩⟩ := execAnRunBq_next h
    · exact .inr (.inr ⟨rfl, rfl⟩)
    · exact .inr (.inl ⟨rfl, seedRun_state hr⟩)
    · exact .inl ⟨rfl, rfl⟩
  | anSpectrum n =>
    obtain ⟨-, rfl⟩ | ⟨-, -, rfl⟩ | ⟨-, -, -, d, -, rfl⟩ := execAnSpectrum_next h
    · rfl
    · rfl
    · rfl
  | _ => exact congrArg Analyzer.state ((exec_frame h).an nofun rfl)

end Sys2Proof.Proofs
end

section
/-! PROOFS. Ratios of bins (43_analyzer.md, R24, R131 to R135): the magnitude and the phase of a ratio, and what zero,
overflowing and NaN bins give. -/

namespace Sys2Proof.Proofs

open Sys2Proof.Machine

/-! ## The range of a phase (R133) -/

/-- A product with a fixed factor grows with the magnitude of the other: rounding keeps the order (R12). -/
theorem magBits_mul32_mono {a b c : Word} (hb : isFinite32 b = true) (hc : isFinite32 c = true)
    (h : magBits a ≤ magBits b) : magBits (mul32 a c) ≤ magBits (mul32 b c) := by
  have ha : isFinite32 a = true := isFinite32_iff.2 (h.trans_lt (isFinite32_iff.1 hb))
  have hmag : unitsMag a ≤ unitsMag b := unitsOfMag_le_iff.2 h
  rw [mul32_finite ha hc, mul32_finite hb hc, magBits_roundUnits, magBits_roundUnits]
  exact roundMag_mono (by positivity) (by positivity) (Nat.mul_le_mul_right _ (Nat.mul_le_mul_right _ hmag))

/-- PI32 is 180.0 degrees. -/
theorem mul32_pi32_rad2deg : mul32 pi32 rad2deg = 0x43340000#32 := by decide +kernel

/-- An angle in degrees is at most 180.0 in magnitude. -/
theorem magBits_degrees_le {y x : Word} (hy : isNaN32 y = false) (hx : isNaN32 x = false) :
    magBits (mul32 (atan2_32 y x) rad2deg) ≤ magBits 0x43340000#32 := by
  rw [← mul32_pi32_rad2deg]
  exact magBits_mul32_mono (by decide) (by decide) (magBits_atan2_32_le hy hx)

/-- Values not above one another are equal, or differ in the order. -/
theorem gt32_of_not_eq32 {a b : Word} (ha : isNaN32 a = false) (hb : isNaN32 b = false) (hne : eq32 a b = false)
    (hge : gt32 b a = false) : gt32 a b = true := by
  rw [← Bool.not_eq_true, gt32_iff hb ha] at hge
  have hkey : orderKey a ≠ orderKey b := by simpa [eq32, ha, hb] using hne
  rw [gt32_iff ha hb]
  omega

theorem ratioPhase_eq (re im : Word) : ratioPhase (re, im) =
    if eq32 (mul32 (atan2_32 im re) rad2deg) 0xC3340000#32 then 0x43340000#32
    else mul32 (atan2_32 im re) rad2deg := rfl

/-- A NaN in a ratio makes its phase NaN (R14, R133). -/
theorem ratioPhase_nan {re im : Word} (h : isNaN32 re = true ∨ isNaN32 im = true) : ratioPhase (re, im) = qNaN := by
  rw [ratioPhase_eq, atan2_32_nan h.symm]
  decide +kernel

/-- Settles O48: the angle is at most PI32 in magnitude, so the degrees are at most 180.0, and -180.0 is replaced. -/
theorem phaseInHalfOpenRange : Obligations.PhaseInHalfOpenRange := by
  rintro ⟨re, im⟩
  refine ⟨rfl, mul32_pi32_rad2deg, fun hnum => ?_⟩
  by_cases hnan : isNaN32 re = true ∨ isNaN32 im = true
  · rw [ratioPhase_nan hnan] at hnum
    cases hnum
  · obtain ⟨hre, him⟩ := not_or.1 hnan
    have hle := magBits_degrees_le (Bool.eq_false_iff.2 him) (Bool.eq_false_iff.2 hre)
    obtain ⟨hn, hup, hlow⟩ := within_bound (bound := 0x43340000#32) (by decide) (by decide) hle
    rw [ratioPhase_eq]
    split
    · decide
    · rename_i hne
      exact ⟨gt32_of_not_eq32 hn (by decide) (Bool.eq_false_iff.2 hne) hlow, hup⟩

/-! ## One ratio (R131 to R133) -/

/-- The denominator of a ratio: the squared magnitude of the input bin (R24). -/
abbrev binNorm (c d : Word) : Word := add32 (mul32 c c) (mul32 d d)

/-- The numerator of the real part of a ratio (R24). -/
abbrev reNum (a b c d : Word) : Word := add32 (mul32 a c) (mul32 b d)

/-- The numerator of the imaginary part of a ratio (R24). -/
abbrev imNum (a b c d : Word) : Word := sub32 (mul32 b c) (mul32 a d)

theorem spectrumBin_eq (a b c d : Word) : spectrumBin (a, b) (c, d) =
    (ratioMagnitude (div32 (reNum a b c d) (binNorm c d), div32 (imNum a b c d) (binNorm c d)),
      ratioPhase (div32 (reNum a b c d) (binNorm c d), div32 (imNum a b c d) (binNorm c d))) := rfl

/-- The magnitude of a real ratio is that of its real part (R22, H2). -/
theorem ratioMagnitude_of_zero_im {re im : Word} (him : isZero32 im = true) (hre : isNaN32 re = false) :
    ratioMagnitude (re, im) = mul32 k20 (log10_32 (abs32 re)) :=
  congrArg (fun h => mul32 k20 (log10_32 h)) (hypot32_zero him hre)

/-- The phase of a real ratio is a zero or 180.0, by the sign of its real part (R21, A2). -/
theorem ratioPhase_of_zero_im {re im : Word} (him : isZero32 im = true) (hre : isNaN32 re = false) :
    ratioPhase (re, im) = if signBit re then 0x43340000#32 else withSign (signBit im) 0 := by
  rw [ratioPhase_eq, atan2_32_zero him hre]
  cases signBit re <;> cases signBit im <;> decide +kernel

/-- A ratio of two NaNs is NaN in MAG and PH. -/
theorem spectrumBin_of_nan {a b c d : Word} (hre : isNaN32 (div32 (reNum a b c d) (binNorm c d)) = true)
    (him : isNaN32 (div32 (imNum a b c d) (binNorm c d)) = true) : spectrumBin (a, b) (c, d) = (qNaN, qNaN) := by
  have hinf : ∀ {w : Word}, isNaN32 w = true → isInf32 w = false := fun {w} hw => by
    rw [← Bool.not_eq_true]
    intro hi
    rw [isNaN32_of_inf hi] at hw
    cases hw
  rw [spectrumBin_eq, ratioPhase_nan (.inl hre), ratioMagnitude, hypot32_nan (hinf hre) (hinf him) (.inl hre)]
  decide +kernel

/-- A zero ratio has the magnitude -inf and a phase of +0.0, -0.0 or 180.0. -/
theorem spectrumBin_of_zeros {a b c d : Word} (hre : isZero32 (div32 (reNum a b c d) (binNorm c d)) = true)
    (him : isZero32 (div32 (imNum a b c d) (binNorm c d)) = true) :
    (spectrumBin (a, b) (c, d)).1 = 0xFF800000#32 ∧
      (spectrumBin (a, b) (c, d)).2 ∈ [0x00000000#32, 0x80000000#32, 0x43340000#32] := by
  have hnum := isNaN32_of_zero hre
  rw [spectrumBin_eq, ratioMagnitude_of_zero_im him hnum, abs32, isZero32_iff.1 hre, ratioPhase_of_zero_im him hnum]
  have hlog : mul32 k20 (log10_32 (withSign false 0)) = 0xFF800000#32 := by decide +kernel
  refine ⟨hlog, ?_⟩
  cases signBit (div32 (reNum a b c d) (binNorm c d)) <;>
    cases signBit (div32 (imNum a b c d) (binNorm c d)) <;> decide

/-! ## Zeros and infinities in a ratio (R12, R13) -/

theorem mul32_zero_left {z x : Word} (hz : isZero32 z = true) (hx : isFinite32 x = true) : isZero32 (mul32 z x) = true := by
  rw [mul32_finite (isFinite32_of_zero hz) hx, isZero32_iff, magBits_roundUnits, unitsMag, isZero32_iff.1 hz,
    unitsOfMag_zero, Nat.zero_mul, roundMag_zero (by positivity)]

theorem add32_zeros {x y : Word} (hx : isZero32 x = true) (hy : isZero32 y = true) : isZero32 (add32 x y) = true := by
  rw [add32_of_sum_zero (isFinite32_of_zero hx) (isFinite32_of_zero hy) (by rw [units_of_zero hx, units_of_zero hy]; rfl)]
  split <;> decide

theorem sub32_zeros {x y : Word} (hx : isZero32 x = true) (hy : isZero32 y = true) : isZero32 (sub32 x y) = true :=
  add32_zeros hx (by simpa using hy)

theorem isFinite32_of_normal {w : Word} (h : isNormal32 w = true) : isFinite32 w = true := by
  simp only [isNormal32, decide_eq_true_eq] at h
  exact isFinite32_iff.2 h.2

theorem isZero32_of_normal {w : Word} (h : isNormal32 w = true) : isZero32 w = false := by
  simp only [isNormal32, decide_eq_true_eq] at h
  rw [← Bool.not_eq_true, isZero32_iff]
  omega

theorem div32_zero_left {z n : Word} (hz : isZero32 z = true) (hn : isNormal32 n = true) : isZero32 (div32 z n) = true := by
  have hn0 := isZero32_of_normal hn
  rw [div32_finite (isFinite32_of_zero hz) (isFinite32_of_normal hn) hn0, isZero32_iff, magBits_roundUnits, unitsMag,
    isZero32_iff.1 hz, unitsOfMag_zero, Nat.zero_mul, roundMag_zero (unitsMag_pos hn0)]

theorem isZero32_div32_inf {x n : Word} (hx : isFinite32 x = true) (hn : isInf32 n = true) :
    isZero32 (div32 x n) = true := by
  rw [div32_finite_inf hx hn]
  split <;> decide

/-- The word is a zero or a NaN: what products with a zero are. -/
def ZeroOrNaN (w : Word) : Prop := isZero32 w = true ∨ isNaN32 w = true

theorem zeroOrNaN_mul32 (x : Word) {z : Word} (hz : isZero32 z = true) : ZeroOrNaN (mul32 x z) := by
  cases hx : isFinite32 x with
  | true => rw [mul32_comm]; exact .inl (mul32_zero_left hz hx)
  | false =>
    obtain hx | hx := nan_or_inf hx
    · rw [mul32_nan (.inl hx)]; exact .inr (by decide)
    · rw [mul32_inf_left hx (isNaN32_of_zero hz), if_pos hz]; exact .inr (by decide)

theorem ZeroOrNaN.add32 {x y : Word} (hx : ZeroOrNaN x) (hy : ZeroOrNaN y) : ZeroOrNaN (add32 x y) := by
  obtain hx | hx := hx
  · obtain hy | hy := hy
    · exact .inl (add32_zeros hx hy)
    · rw [add32_nan (.inr hy)]; exact .inr (by decide)
  · rw [add32_nan (.inl hx)]; exact .inr (by decide)

theorem ZeroOrNaN.sub32 {x y : Word} (hx : ZeroOrNaN x) (hy : ZeroOrNaN y) : ZeroOrNaN (sub32 x y) :=
  hx.add32 (hy.imp (by simp) (by simp))

/-- Over a zero denominator they give NaN. -/
theorem ZeroOrNaN.div32_zero {x n : Word} (hx : ZeroOrNaN x) (hn : isZero32 n = true) : div32 x n = qNaN := by
  obtain hx | hx := hx
  · rw [div32_by_zero (isFinite32_of_zero hx) hn, if_pos hx]
  · exact div32_nan (.inl hx)

/-- Any other number over a zero denominator is an infinity (R13). -/
theorem isInf32_div32_zero {x n : Word} (hx : isNaN32 x = false ∧ isZero32 x = false) (hn : isZero32 n = true) :
    isInf32 (div32 x n) = true := by
  obtain ⟨hnum, hnz⟩ := hx
  have hsigned : ∀ neg, isInf32 (signedInf neg) = true := by decide
  cases hf : isFinite32 x with
  | true => rw [div32_by_zero hf hn, hnz, if_neg (by decide)]; exact hsigned _
  | false =>
    have hinf : isInf32 x = true := (nan_or_inf hf).resolve_left (by rw [hnum]; decide)
    rw [div32_inf_finite hinf (isFinite32_of_zero hn)]
    exact hsigned _

/-- Over a zero denominator a numerator gives an infinity or NaN. -/
theorem div32_zero_cases (x : Word) {n : Word} (hn : isZero32 n = true) :
    isInf32 (div32 x n) = true ∨ div32 x n = qNaN := by
  by_cases hx : isNaN32 x = false ∧ isZero32 x = false
  · exact .inl (isInf32_div32_zero hx hn)
  · refine .inr (ZeroOrNaN.div32_zero ?_ hn)
    rw [not_and_or] at hx
    exact hx.symm.imp (by simp) (by simp)

/-- An infinite component makes the magnitude +inf (R20, R22). -/
theorem ratioMagnitude_of_inf {re im : Word} (h : isInf32 re = true ∨ isInf32 im = true) :
    ratioMagnitude (re, im) = 0x7F800000#32 := by
  have hhypot : hypot32 re im = 0x7F800000#32 := by
    obtain h | h := h
    · exact hypot32_inf im h
    · rw [hypot32_comm]; exact hypot32_inf re h
  rw [ratioMagnitude, hhypot]
  decide +kernel

theorem atan2_32_inf_inf {y x : Word} (hy : isInf32 y = true) (hx : isInf32 x = true) :
    atan2_32 y x = withSign (signBit y) (magBits (if signBit x then threeQuarterPi else quarterPi)) := by
  simp [atan2_32, isNaN32_of_inf hy, isNaN32_of_inf hx, isZero32_of_inf hy, hy, hx]

/-- Two infinities have a phase of +-45.0 or +-135.0 (log 10). -/
theorem ratioPhase_of_infs {re im : Word} (hre : isInf32 re = true) (him : isInf32 im = true) :
    ratioPhase (re, im) ∈ [0x42340000#32, 0xC2340000#32, 0x43070000#32, 0xC3070000#32] := by
  rw [ratioPhase_eq, atan2_32_inf_inf him hre]
  cases signBit re <;> cases signBit im <;> decide +kernel

/-- A ratio of infinities and NaNs has a phase that is a multiple of 45.0, or NaN. -/
theorem ratioPhase_of_inf_or_nan {re im : Word} (hre : isInf32 re = true ∨ re = qNaN) (him : isInf32 im = true ∨ im = qNaN) :
    ratioPhase (re, im) ∈ [0x42340000#32, 0xC2340000#32, 0x43070000#32, 0xC3070000#32, qNaN] := by
  obtain hre | rfl := hre
  · obtain him | rfl := him
    · exact List.mem_append_left [qNaN] (ratioPhase_of_infs hre him)
    · rw [ratioPhase_nan (.inr (by decide))]; simp
  · rw [ratioPhase_nan (.inl (by decide))]; simp

/-! ## The cases of R135 -/

/-- A zero input bin gives NaN whatever the output bin. -/
theorem spectrumBin_of_zero_input (a b : Word) {c d : Word} (hc : isZero32 c = true) (hd : isZero32 d = true) :
    spectrumBin (a, b) (c, d) = (qNaN, qNaN) := by
  have hn : isZero32 (binNorm c d) = true :=
    add32_zeros (mul32_zero_left hc (isFinite32_of_zero hc)) (mul32_zero_left hd (isFinite32_of_zero hd))
  have hre : ZeroOrNaN (reNum a b c d) := (zeroOrNaN_mul32 a hc).add32 (zeroOrNaN_mul32 b hd)
  have him : ZeroOrNaN (imNum a b c d) := (zeroOrNaN_mul32 b hc).sub32 (zeroOrNaN_mul32 a hd)
  exact spectrumBin_of_nan (by rw [hre.div32_zero hn]; decide) (by rw [him.div32_zero hn]; decide)

/-- A zero output bin over a normal denominator is a zero ratio. -/
theorem spectrumBin_of_zero_output {a b c d : Word} (ha : isZero32 a = true) (hb : isZero32 b = true)
    (hc : isFinite32 c = true) (hd : isFinite32 d = true) (hn : isNormal32 (binNorm c d) = true) :
    (spectrumBin (a, b) (c, d)).1 = 0xFF800000#32 ∧
      (spectrumBin (a, b) (c, d)).2 ∈ [0x00000000#32, 0x80000000#32, 0x43340000#32] :=
  spectrumBin_of_zeros (div32_zero_left (add32_zeros (mul32_zero_left ha hc) (mul32_zero_left hb hd)) hn)
    (div32_zero_left (sub32_zeros (mul32_zero_left hb hc) (mul32_zero_left ha hd)) hn)

/-- A zero denominator under a nonzero number. -/
theorem spectrumBin_of_zero_denominator {a b c d : Word} (hn : isZero32 (binNorm c d) = true)
    (h : (isNaN32 (reNum a b c d) = false ∧ isZero32 (reNum a b c d) = false) ∨
      (isNaN32 (imNum a b c d) = false ∧ isZero32 (imNum a b c d) = false)) :
    (spectrumBin (a, b) (c, d)).1 = 0x7F800000#32 ∧
      (spectrumBin (a, b) (c, d)).2 ∈ [0x42340000#32, 0xC2340000#32, 0x43070000#32, 0xC3070000#32, qNaN] :=
  ⟨ratioMagnitude_of_inf (h.imp (isInf32_div32_zero · hn) (isInf32_div32_zero · hn)),
    ratioPhase_of_inf_or_nan (div32_zero_cases _ hn) (div32_zero_cases _ hn)⟩

theorem isNaN32_add32 {x y : Word} (h : isNaN32 x = true ∨ isNaN32 y = true) : isNaN32 (add32 x y) = true := by
  rw [add32_nan h]; decide

theorem isNaN32_sub32 {x y : Word} (h : isNaN32 x = true ∨ isNaN32 y = true) : isNaN32 (sub32 x y) = true := by
  rw [sub32_nan h]; decide

theorem isNaN32_mul32 {x y : Word} (h : isNaN32 x = true ∨ isNaN32 y = true) : isNaN32 (mul32 x y) = true := by
  rw [mul32_nan h]; decide

theorem isNaN32_div32 {x y : Word} (h : isNaN32 x = true ∨ isNaN32 y = true) : isNaN32 (div32 x y) = true := by
  rw [div32_nan h]; decide

/-- A NaN in the output bin enters both numerators. -/
theorem spectrumBin_of_nan_output {a b : Word} (c d : Word) (h : isNaN32 a = true ∨ isNaN32 b = true) :
    spectrumBin (a, b) (c, d) = (qNaN, qNaN) := by
  have hmul : ∀ {x : Word} (y : Word), isNaN32 x = true → isNaN32 (mul32 x y) = true := fun _ hx => isNaN32_mul32 (.inl hx)
  exact spectrumBin_of_nan (isNaN32_div32 (.inl (isNaN32_add32 (h.imp (hmul c) (hmul d)))))
    (isNaN32_div32 (.inl (isNaN32_sub32 (h.symm.imp (hmul c) (hmul d)))))

/-- A NaN in the input bin enters the denominator. -/
theorem spectrumBin_of_nan_input (a b : Word) {c d : Word} (h : isNaN32 c = true ∨ isNaN32 d = true) :
    spectrumBin (a, b) (c, d) = (qNaN, qNaN) := by
  have hn : isNaN32 (binNorm c d) = true :=
    isNaN32_add32 (h.imp (fun hc => isNaN32_mul32 (.inl hc)) (fun hd => isNaN32_mul32 (.inl hd)))
  exact spectrumBin_of_nan (isNaN32_div32 (.inr hn)) (isNaN32_div32 (.inr hn))

/-- A NaN sample enters a component of every bin of its transform (log 12). -/
theorem isNaN32_rdftBin {v : List Word} (k : Nat) (h : ∃ x ∈ v, isNaN32 x = true) :
    isNaN32 (rdftBin v k).1 = true ∨ isNaN32 (rdftBin v k).2 = true :=
  (rdftBin_nan_or k h).imp (fun hq => by rw [hq]; decide) (fun hq => by rw [hq]; decide)

/-- Settles O50, case by case; a NaN sample enters a component of every bin. -/
theorem zeroAndOverflowingBins : Obligations.ZeroAndOverflowingBins := by
  refine ⟨fun a b c d => ⟨spectrumBin_of_zero_input a b, spectrumBin_of_zero_output, fun hn hre him => ?_,
    fun hn => ⟨fun hre him => ?_, spectrumBin_of_zero_denominator hn⟩⟩, fun vin vout k h => ?_⟩
  · exact (spectrumBin_of_zeros (isZero32_div32_inf hre hn) (isZero32_div32_inf him hn)).1
  · exact spectrumBin_of_nan (by rw [ZeroOrNaN.div32_zero (.inl hre) hn]; decide)
      (by rw [ZeroOrNaN.div32_zero (.inl him) hn]; decide)
  · obtain h | h := h
    · exact spectrumBin_of_nan_input _ _ (isNaN32_rdftBin k h)
    · exact spectrumBin_of_nan_output _ _ (isNaN32_rdftBin k h)

end Sys2Proof.Proofs
end

section
/-! PROOFS. Exact ratios (43_analyzer.md, R139): a real positive ratio of two bins and its negation, a ratio of 1.0, and
ratios that are powers of two, which scale every intermediate value exactly. -/

namespace Sys2Proof.Proofs

open Sys2Proof.Machine

/-! ## Finite operands and signs (R12) -/

theorem isFinite32_of_not_nan_not_inf {w : Word} (hn : isNaN32 w = false) (hi : isInf32 w = false) : isFinite32 w = true := by
  cases hf : isFinite32 w with
  | true => rfl
  | false =>
    obtain h | h := nan_or_inf hf
    · rw [hn] at h; cases h
    · rw [hi] at h; cases h

/-- A finite sum has finite addends. -/
theorem finite_of_add32 {a b : Word} (h : isFinite32 (add32 a b) = true) : isFinite32 a = true ∧ isFinite32 b = true := by
  unfold add32 at h
  split at h
  · cases h
  · rename_i hnan
    obtain ⟨ha, hb⟩ := Bool.or_eq_false_iff.1 (Bool.eq_false_iff.2 hnan)
    split at h
    · rename_i hi
      split at h
      · cases h
      · rw [isInf32_of_finite h] at hi; cases hi
    · rename_i hia
      split at h
      · rename_i hi
        rw [isInf32_of_finite h] at hi; cases hi
      · rename_i hib
        exact ⟨isFinite32_of_not_nan_not_inf ha (Bool.eq_false_iff.2 hia),
          isFinite32_of_not_nan_not_inf hb (Bool.eq_false_iff.2 hib)⟩

/-- A finite product has finite factors. -/
theorem finite_of_mul32 {a b : Word} (h : isFinite32 (mul32 a b) = true) : isFinite32 a = true ∧ isFinite32 b = true := by
  have hinf : ∀ neg, isFinite32 (withSign neg infMag) = false := by decide
  unfold mul32 at h
  dsimp only at h
  split at h
  · cases h
  · rename_i hnan
    obtain ⟨ha, hb⟩ := Bool.or_eq_false_iff.1 (Bool.eq_false_iff.2 hnan)
    split at h
    · split at h
      · cases h
      · rw [hinf] at h; cases h
    · rename_i hi
      obtain ⟨hia, hib⟩ := Bool.or_eq_false_iff.1 (Bool.eq_false_iff.2 hi)
      exact ⟨isFinite32_of_not_nan_not_inf ha hia, isFinite32_of_not_nan_not_inf hb hib⟩

/-- The products in a normal denominator, and their factors, are finite. -/
theorem finite_of_binNorm {c d : Word} (h : isNormal32 (binNorm c d) = true) :
    isFinite32 (mul32 c c) = true ∧ isFinite32 (mul32 d d) = true ∧ isFinite32 c = true ∧ isFinite32 d = true := by
  obtain ⟨hc, hd⟩ := finite_of_add32 (isFinite32_of_normal h)
  exact ⟨hc, hd, (finite_of_mul32 hc).1, (finite_of_mul32 hd).1⟩

/-- A sum of squares has the sign 0. -/
theorem signBit_binNorm {c d : Word} (h : isNormal32 (binNorm c d) = true) : signBit (binNorm c d) = false := by
  obtain ⟨hcc, hdd, hc, hd⟩ := finite_of_binNorm h
  have hsc : signBit (mul32 c c) = false := by rw [mul32_finite hc hc, signBit_roundUnits]; simp
  have hsd : signBit (mul32 d d) = false := by rw [mul32_finite hd hd, signBit_roundUnits]; simp
  have hnonneg : 0 ≤ units (mul32 c c) + units (mul32 d d) := by
    rw [units_eq_signed, units_eq_signed, hsc, hsd]
    exact add_nonneg (Int.natCast_nonneg _) (Int.natCast_nonneg _)
  rw [binNorm, add32_finite hcc hdd, signBit_roundUnits, sumSign, hsc]
  split
  · rfl
  · rw [decide_eq_false_iff_not]; omega

/-! ## A real ratio and its negation -/

/-- The difference of a finite value and itself is +0.0. -/
theorem sub32_self {x : Word} (h : isFinite32 x = true) : sub32 x x = 0#32 := by
  rw [sub32_of_difference_zero h h (sub_self _), Bool.and_not_self, if_neg (by decide)]

theorem div32_zero_word {n : Word} (hn : isNormal32 n = true) (hs : signBit n = false) : div32 0#32 n = 0#32 := by
  have hz : isZero32 (div32 0#32 n) = true := div32_zero_left (by decide) hn
  refine word_ext ?_ (isZero32_iff.1 hz)
  rw [div32_finite (by decide) (isFinite32_of_normal hn) (isZero32_of_normal hn), signBit_roundUnits, hs]
  decide

theorem abs32_of_sign {q : Word} (h : signBit q = false) : abs32 q = q := by
  rw [abs32, ← h, withSign_signBit_magBits]

/-- The output bin `(a, b)` over the input bin `(c, d)` is the positive real number `q`. -/
structure RealRatio (a b c d q : Word) : Prop where
  /-- The denominator is normal. -/
  denominator : isNormal32 (binNorm c d) = true
  /-- The numerator of the real part is normal. -/
  numerator : isNormal32 (reNum a b c d) = true
  /-- The two products of the imaginary part cancel. -/
  cancels : mul32 b c = mul32 a d
  /-- They are finite. -/
  finite : isFinite32 (mul32 b c) = true
  /-- The real part is `q`. -/
  ratio : div32 (reNum a b c d) (binNorm c d) = q
  /-- `q` is a number. -/
  number : isNaN32 q = false
  /-- `q` is positive. -/
  positive : signBit q = false

/-- A positive real ratio `q` has the magnitude 20 log10(q) and the phase +0.0. -/
theorem RealRatio.bin {a b c d q : Word} (h : RealRatio a b c d q) :
    spectrumBin (a, b) (c, d) = (mul32 k20 (log10_32 q), 0#32) := by
  have him : imNum a b c d = 0#32 := by rw [imNum, ← h.cancels]; exact sub32_self h.finite
  rw [spectrumBin_eq, him, h.ratio, div32_zero_word h.denominator (signBit_binNorm h.denominator),
    ratioMagnitude_of_zero_im (by decide) h.number, ratioPhase_of_zero_im (by decide) h.number, abs32_of_sign h.positive,
    h.positive]
  rfl

/-- `y` is the negation of `x` up to the sign of a zero. -/
abbrev Negates (x y : Word) : Prop := HasUnits y (-units x)

theorem negates_neg32 {x : Word} (h : isFinite32 x = true) : Negates x (neg32 x) := neg32_finite h

theorem Negates.magnitude {x y : Word} (h : Negates x y) : unitsMag y = unitsMag x := by
  have hval := congrArg (|·|) h.2
  simp only [abs_neg, units_eq_signed, abs_signed] at hval
  exact_mod_cast hval

/-- Only a zero can negate a value of its own sign. -/
theorem Negates.sign {x y : Word} (h : Negates x y) : signBit y = (!signBit x) ∨ unitsMag x = 0 := by
  by_cases hs : signBit y = signBit x
  · have hval := h.2
    rw [units_eq_signed, units_eq_signed, hs, h.magnitude] at hval
    have hzero : signed (signBit x) (unitsMag x) = 0 := by omega
    have habs := abs_signed (signBit x) (unitsMag x)
    rw [hzero, abs_zero] at habs
    exact .inr (by omega)
  · exact .inl (Bool.eq_not_of_ne hs)

theorem signed_not (neg : Bool) (n : Nat) : signed (!neg) n = -signed neg n := by cases neg <;> simp [signed]

theorem units_mul32 {a b : Word} (ha : isFinite32 a = true) (hb : isFinite32 b = true) : units (mul32 a b) =
    signed (signBit a != signBit b) (unitsOfMag (roundMag (unitsMag a * unitsMag b) (2 ^ 149))) := by
  rw [mul32_finite ha hb, units_eq_signed, signBit_roundUnits, unitsMag_roundUnits]

/-- Negating a factor negates a product. -/
theorem Negates.mul {x y c : Word} (h : Negates x y) (hf : isFinite32 (mul32 x c) = true) :
    Negates (mul32 x c) (mul32 y c) := by
  obtain ⟨hx, hc⟩ := finite_of_mul32 hf
  constructor
  · rw [mul32_finite hx hc, isFinite32_iff, magBits_roundUnits] at hf
    rwa [mul32_finite h.1 hc, isFinite32_iff, magBits_roundUnits, h.magnitude]
  · rw [units_mul32 h.1 hc, units_mul32 hx hc, h.magnitude]
    obtain hs | hz := h.sign
    · rw [hs, ← signed_not, Bool.not_bne]
    · rw [hz, Nat.zero_mul, roundMag_zero (by positivity), unitsOfMag_zero, signed_zero, signed_zero, neg_zero]

theorem neg32_roundUnits (neg : Bool) (num den : Nat) : neg32 (roundUnits neg num den) = roundUnits (!neg) num den := by
  rw [neg32, isNaN32_roundUnits, if_neg (by decide), signBit_roundUnits, magBits_roundUnits]
  rfl

/-- A normal sum is not of value zero. -/
theorem sum_ne_zero_of_normal {x y : Word} (h : isNormal32 (add32 x y) = true) : units x + units y ≠ 0 := by
  intro hz
  obtain ⟨hx, hy⟩ := finite_of_add32 (isFinite32_of_normal h)
  have hword : isZero32 (add32 x y) = true := by
    rw [add32_of_sum_zero hx hy hz]
    split <;> decide
  rw [isZero32_of_normal h] at hword
  cases hword

/-- Negating both addends negates a normal sum. -/
theorem Negates.add {x y x' y' : Word} (hx : Negates x x') (hy : Negates y y')
    (hsum : isNormal32 (add32 x y) = true) : add32 x' y' = neg32 (add32 x y) := by
  obtain ⟨hfx, hfy⟩ := finite_of_add32 (isFinite32_of_normal hsum)
  have hne := sum_ne_zero_of_normal hsum
  have hval : units x' + units y' = -(units x + units y) := by rw [hx.2, hy.2, neg_add]
  have hsign : sumSign x' y' = !sumSign x y := by
    rw [sumSign, sumSign, hval, if_neg (neg_ne_zero.2 hne), if_neg hne, ← decide_not]
    exact decide_eq_decide.2 (by omega)
  rw [add32_finite hx.1 hy.1, add32_finite hfx hfy, neg32_roundUnits, hsign, hval, Int.natAbs_neg]

theorem div32_neg32 {p n : Word} (hp : isFinite32 p = true) (hn : isNormal32 n = true) :
    div32 (neg32 p) n = neg32 (div32 p n) := by
  have hmag : unitsMag (neg32 p) = unitsMag p := by rw [unitsMag, magBits_neg32, unitsMag]
  rw [div32_finite (by rwa [isFinite32_neg32]) (isFinite32_of_normal hn) (isZero32_of_normal hn),
    div32_finite hp (isFinite32_of_normal hn) (isZero32_of_normal hn), neg32_roundUnits, hmag,
    signBit_neg32 (isNaN32_of_finite hp), Bool.not_bne]

/-- The negation of an output bin keeps the magnitude of a positive real ratio and has the phase 180.0, whatever the sign of
the zero imaginary part: -180.0 is replaced (R133). -/
theorem RealRatio.bin_negated {a b a' b' c d q : Word} (h : RealRatio a b c d q) (ha : Negates a a')
    (hb : Negates b b') : spectrumBin (a', b') (c, d) = (mul32 k20 (log10_32 q), 0x43340000#32) := by
  obtain ⟨hac, hbd⟩ := finite_of_add32 (isFinite32_of_normal h.numerator)
  have hre : div32 (reNum a' b' c d) (binNorm c d) = neg32 q := by
    rw [reNum, (ha.mul hac).add (hb.mul hbd) h.numerator, div32_neg32 (isFinite32_of_normal h.numerator)
      h.denominator, h.ratio]
  have hbc := hb.mul h.finite
  have had := ha.mul (h.cancels ▸ h.finite)
  have him : isZero32 (div32 (imNum a' b' c d) (binNorm c d)) = true := by
    refine div32_zero_left ?_ h.denominator
    rw [imNum, sub32_of_difference_zero hbc.1 had.1 (by rw [hbc.2, had.2, h.cancels, sub_self])]
    split <;> decide
  have hnum : isNaN32 (neg32 q) = false := by rw [isNaN32_neg32, h.number]
  rw [spectrumBin_eq, hre, ratioMagnitude_of_zero_im him hnum, ratioPhase_of_zero_im him hnum, abs32_neg32,
    abs32_of_sign h.positive, signBit_neg32 h.number, h.positive]
  rfl

/-! ## The ratio 1.0 -/

/-- A nonzero finite value over itself is 1.0 (R12). -/
theorem div32_self {n : Word} (hn : isNormal32 n = true) : div32 n n = fOne := by
  have hone : unitsOfMag (magBits fOne) = 2 ^ 149 := by decide
  have hz := isZero32_of_normal hn
  rw [div32_finite (isFinite32_of_normal hn) (isFinite32_of_normal hn) hz, Nat.mul_comm, ← hone, roundUnits,
    roundMag_unitsOfMag (unitsMag_pos hz) (by decide), bne_self_eq_false]
  decide

theorem realRatio_self {c d : Word} (hn : isNormal32 (binNorm c d) = true) (hdc : isFinite32 (mul32 d c) = true) :
    RealRatio c d c d fOne where
  denominator := hn
  numerator := hn
  cancels := mul32_comm d c
  finite := hdc
  ratio := div32_self hn
  number := by decide
  positive := by decide

/-- 1.0 is 0.0 dB (R20, R132). -/
theorem magnitude_one : mul32 k20 (log10_32 fOne) = 0#32 := by decide +kernel

/-! ## Powers of two (R12, R23) -/

/-- `y` is `x` times `2^p / 2^q`, exactly. -/
structure ScalesTo (p q : Nat) (x y : Word) : Prop where
  /-- Both are finite. -/
  finite : isFinite32 x = true ∧ isFinite32 y = true
  /-- They have one sign. -/
  sign : signBit y = signBit x
  /-- The values are in that proportion. -/
  proportion : unitsMag y * 2 ^ q = unitsMag x * 2 ^ p

theorem normal_iff {w : Word} : isNormal32 w = true ↔ 2 ^ 23 ≤ magBits w ∧ magBits w < infMag := by
  rw [isNormal32, decide_eq_true_eq]

/-- Magnitudes whose exponents differ by `p - q` are in that proportion. -/
theorem unitsOfMag_of_exponents {m m' p q : Nat} (hm : 2 ^ 23 ≤ m) (hm' : 2 ^ 23 ≤ m')
    (h : m' + q * 2 ^ 23 = m + p * 2 ^ 23) : unitsOfMag m' * 2 ^ q = unitsOfMag m * 2 ^ p := by
  rw [← unitsOfMag_add_exponent q hm', ← unitsOfMag_add_exponent p hm, h]

/-- Scaling by `2^j` that is exact. -/
theorem scalesTo_scale32 {j : Int} {w : Word} (h : scalesExactly j w = true) :
    ScalesTo j.toNat (-j).toNat w (scale32 j w) := by
  obtain ⟨hz, hw⟩ | ⟨hn, hn', hs, hmag⟩ := scale32_spec h
  · have hu : unitsMag w = 0 := by rw [unitsMag, isZero32_iff.1 hz, unitsOfMag_zero]
    rw [hw]
    exact ⟨⟨isFinite32_of_zero hz, isFinite32_of_zero hz⟩, rfl, by rw [hu, Nat.zero_mul, Nat.zero_mul]⟩
  · exact ⟨⟨isFinite32_of_normal hn, isFinite32_of_normal hn'⟩, hs,
      unitsOfMag_of_exponents (normal_iff.1 hn).1 (normal_iff.1 hn').1 (by omega)⟩

/-- Rounding keeps the proportion of values that stay normal (R12). -/
theorem roundMag_scales {X Y den p q : Nat} (hden : 0 < den) (h : Y * 2 ^ q = X * 2 ^ p) (hX : 2 ^ 23 * den ≤ X)
    (hY : 2 ^ 23 * den ≤ Y) (hX' : roundMag X den < infMag) (hY' : roundMag Y den < infMag) :
    unitsOfMag (roundMag Y den) * 2 ^ q = unitsOfMag (roundMag X den) * 2 ^ p := by
  have hnormal : ∀ {Z : Nat}, 2 ^ 23 * den ≤ Z → 2 ^ 23 ≤ roundMagFree Z den := fun {Z} hZ => by
    have hle := roundMagFree_mono hden hden (Nat.mul_le_mul_right den hZ)
    rwa [show 2 ^ 23 * den = unitsOfMag (2 ^ 23) * den by rw [unitsOfMag_of_le (by decide)],
      roundMagFree_unitsOfMag _ hden] at hle
  have hfreeX : roundMag X den = roundMagFree X den := by rw [roundMag_eq] at hX' ⊢; omega
  have hfreeY : roundMag Y den = roundMagFree Y den := by rw [roundMag_eq] at hY' ⊢; omega
  rw [hfreeX, hfreeY]
  refine unitsOfMag_of_exponents (hnormal hX) (hnormal hY) ?_
  rw [← roundMagFree_mul_two_pow Y q hden hY, ← roundMagFree_mul_two_pow X p hden hX, h]

/-- A value that rounds above the smallest normal number is not below it. -/
theorem le_of_lt_roundMag {X den : Nat} (hden : 0 < den) (h : 2 ^ 23 < roundMag X den) : 2 ^ 23 * den ≤ X := by
  by_contra hlt
  have hle : roundMag X den ≤ 2 ^ 23 := roundMag_le_of_le hden (by rw [unitsOfMag_of_le (by decide)]; omega)
  omega

/-- An integer that rounds to a normal number is one. -/
theorem le_of_le_roundMag_one {X : Nat} (h : 2 ^ 23 ≤ roundMag X 1) : 2 ^ 23 ≤ X := by
  by_contra hlt
  have hle : roundMag X 1 ≤ X := roundMag_le_of_le Nat.one_pos (by rw [unitsOfMag_of_le (by omega), Nat.mul_one])
  omega

/-- A product in range has a zero factor, or is clear of underflow. -/
theorem productInRange_iff {a b : Word} : productInRange a b = true ↔
    (isZero32 a = true ∨ isZero32 b = true) ∨ (2 ^ 23 < magBits (mul32 a b) ∧ magBits (mul32 a b) < infMag) := by
  simp [productInRange, clearOfUnderflow]

theorem isZero32_iff_unitsMag {w : Word} : isZero32 w = true ↔ unitsMag w = 0 := by
  have hinj := unitsOfMag_inj (m := magBits w) (m' := 0)
  rw [unitsOfMag_zero] at hinj
  rw [isZero32_iff, unitsMag, hinj]

theorem ScalesTo.symm {p q : Nat} {x y : Word} (h : ScalesTo p q x y) : ScalesTo q p y x :=
  ⟨h.finite.symm, h.sign.symm, h.proportion.symm⟩

theorem ScalesTo.zero {p q : Nat} {x y : Word} (h : ScalesTo p q x y) (hx : isZero32 x = true) :
    isZero32 y = true := by
  have hunits := h.proportion
  rw [isZero32_iff_unitsMag.1 hx, Nat.zero_mul] at hunits
  exact isZero32_iff_unitsMag.2 ((Nat.mul_eq_zero.1 hunits).resolve_right (by positivity))

theorem scalesTo_zeros {x y : Word} (p q : Nat) (hx : isZero32 x = true) (hy : isZero32 y = true)
    (hs : signBit y = signBit x) : ScalesTo p q x y :=
  ⟨⟨isFinite32_of_zero hx, isFinite32_of_zero hy⟩, hs,
    by rw [isZero32_iff_unitsMag.1 hx, isZero32_iff_unitsMag.1 hy, Nat.zero_mul, Nat.zero_mul]⟩

theorem mul32_zero_factor {a b : Word} (ha : isFinite32 a = true) (hb : isFinite32 b = true)
    (h : isZero32 a = true ∨ isZero32 b = true) : isZero32 (mul32 a b) = true := by
  obtain h | h := h
  · exact mul32_zero_left h hb
  · rw [mul32_comm]; exact mul32_zero_left h ha

/-- Scaling a factor scales a product that stays in range. -/
theorem ScalesTo.mul {p q : Nat} {x y c : Word} (h : ScalesTo p q x y) (hc : isFinite32 c = true)
    (hx : productInRange x c = true) (hy : productInRange y c = true) :
    ScalesTo p q (mul32 x c) (mul32 y c) := by
  obtain ⟨hfx, hfy⟩ := h.finite
  have hs : signBit (mul32 y c) = signBit (mul32 x c) := by
    rw [mul32_finite hfx hc, mul32_finite hfy hc, signBit_roundUnits, signBit_roundUnits, h.sign]
  by_cases hz : isZero32 x = true ∨ isZero32 c = true
  · exact scalesTo_zeros p q (mul32_zero_factor hfx hc hz) (mul32_zero_factor hfy hc (hz.imp_left h.zero)) hs
  · obtain ⟨hlo, hhi⟩ := (productInRange_iff.1 hx).resolve_left hz
    obtain ⟨hlo', hhi'⟩ := (productInRange_iff.1 hy).resolve_left (fun h' => hz (h'.imp_left h.symm.zero))
    refine ⟨⟨isFinite32_iff.2 hhi, isFinite32_iff.2 hhi'⟩, hs, ?_⟩
    rw [mul32_finite hfx hc, magBits_roundUnits] at hlo hhi
    rw [mul32_finite hfy hc, magBits_roundUnits] at hlo' hhi'
    have hden : 0 < 2 ^ 149 := by positivity
    have hprod : unitsMag y * unitsMag c * 2 ^ q = unitsMag x * unitsMag c * 2 ^ p := by
      rw [Nat.mul_right_comm, h.proportion, Nat.mul_right_comm]
    rw [mul32_finite hfx hc, mul32_finite hfy hc, unitsMag_roundUnits, unitsMag_roundUnits]
    exact roundMag_scales hden hprod (le_of_lt_roundMag hden hlo) (le_of_lt_roundMag hden hlo') hhi hhi'

/-- The values with their signs are in the proportion too. -/
theorem ScalesTo.signed_units {p q : Nat} {x y : Word} (h : ScalesTo p q x y) :
    units y * 2 ^ q = units x * 2 ^ p := by
  have hunits : ((unitsMag y : Int)) * 2 ^ q = unitsMag x * 2 ^ p := by exact_mod_cast h.proportion
  rw [units_eq_signed, units_eq_signed, h.sign]
  cases signBit x
  · exact hunits
  · simp only [signed, if_true, neg_mul, hunits]

/-- Scaling both addends scales a sum that stays normal. -/
theorem ScalesTo.add {p q : Nat} {x y x' y' : Word} (hx : ScalesTo p q x x') (hy : ScalesTo p q y y')
    (hsum : isNormal32 (add32 x y) = true) (hsum' : isNormal32 (add32 x' y') = true) :
    ScalesTo p q (add32 x y) (add32 x' y') := by
  obtain ⟨hfx, hfx'⟩ := hx.finite
  obtain ⟨hfy, hfy'⟩ := hy.finite
  have hval : (units x' + units y') * 2 ^ q = (units x + units y) * 2 ^ p := by
    rw [add_mul, add_mul, hx.signed_units, hy.signed_units]
  have habs : (units x' + units y').natAbs * 2 ^ q = (units x + units y).natAbs * 2 ^ p := by
    have h := congrArg Int.natAbs hval
    rwa [Int.natAbs_mul, Int.natAbs_mul, Int.natAbs_pow, Int.natAbs_pow] at h
  have hsign : sumSign x' y' = sumSign x y := by
    have hneg : ∀ (z : Int) (n : Nat), z * 2 ^ n < 0 ↔ z < 0 := fun z n =>
      ⟨fun h => neg_of_mul_neg_left h (by positivity), fun h => mul_neg_of_neg_of_pos h (by positivity)⟩
    rw [sumSign, sumSign, if_neg (sum_ne_zero_of_normal hsum), if_neg (sum_ne_zero_of_normal hsum'), decide_eq_decide,
      ← hneg _ q, hval, hneg]
  obtain ⟨hlo, hhi⟩ := normal_iff.1 hsum
  obtain ⟨hlo', hhi'⟩ := normal_iff.1 hsum'
  rw [add32_finite hfx hfy] at hlo hhi ⊢
  rw [add32_finite hfx' hfy'] at hlo' hhi' ⊢
  refine ⟨⟨isFinite32_iff.2 hhi, isFinite32_iff.2 hhi'⟩, ?_, ?_⟩
  · rw [signBit_roundUnits, signBit_roundUnits, hsign]
  · rw [magBits_roundUnits] at hlo hhi hlo' hhi'
    rw [unitsMag_roundUnits, unitsMag_roundUnits]
    exact roundMag_scales Nat.one_pos habs (by rw [Nat.mul_one]; exact le_of_le_roundMag_one hlo)
      (by rw [Nat.mul_one]; exact le_of_le_roundMag_one hlo') hhi hhi'

/-- The quotient of a scaled value and the value is the scaled 1.0, exactly. -/
theorem ScalesTo.quotient {p q : Nat} {n m o : Word} (h : ScalesTo p q n m) (hn : isNormal32 n = true)
    (ho : ScalesTo p q fOne o) : div32 m n = o := by
  obtain ⟨-, hm⟩ := h.finite
  obtain ⟨-, hfo⟩ := ho.finite
  have hone : unitsMag fOne = 2 ^ 149 := by decide
  have hratio : unitsMag m * 2 ^ 149 = unitsMag o * unitsMag n := by
    refine Nat.eq_of_mul_eq_mul_right (show 0 < 2 ^ q by positivity) ?_
    calc unitsMag m * 2 ^ 149 * 2 ^ q = unitsMag m * 2 ^ q * 2 ^ 149 := Nat.mul_right_comm _ _ _
      _ = unitsMag n * (unitsMag fOne * 2 ^ p) := by rw [h.proportion, hone]; ring
      _ = unitsMag o * unitsMag n * 2 ^ q := by rw [← ho.proportion]; ring
  rw [div32_finite hm (isFinite32_of_normal hn) (isZero32_of_normal hn), hratio, h.sign, bne_self_eq_false]
  refine word_ext ?_ ?_
  · rw [signBit_roundUnits, ho.sign]; decide
  · rw [magBits_roundUnits]
    exact roundMag_unitsOfMag (unitsMag_pos (isZero32_of_normal hn)) (isFinite32_iff.1 hfo).le

/-- The products of the imaginary part cancel: both are the scaled product of the input's components. -/
theorem ScalesTo.cross {p q : Nat} {c d a b : Word} (hc : ScalesTo p q c a) (hd : ScalesTo p q d b) :
    mul32 b c = mul32 a d := by
  obtain ⟨hfc, hfa⟩ := hc.finite
  obtain ⟨hfd, hfb⟩ := hd.finite
  have hmag : unitsMag b * unitsMag c = unitsMag a * unitsMag d := by
    refine Nat.eq_of_mul_eq_mul_right (show 0 < 2 ^ q by positivity) ?_
    rw [Nat.mul_right_comm, hd.proportion, Nat.mul_right_comm (unitsMag a), hc.proportion]
    ring
  rw [mul32_finite hfb hfc, mul32_finite hfa hfd, hmag, hc.sign, hd.sign, bne_comm]

/-- An output bin `2^j` times the input bin has the real ratio `2^j` (R139). -/
theorem realRatio_scaled {j : Int} {c d : Word} (h : RatioScales j c d) :
    RealRatio (scale32 j c) (scale32 j d) c d (scale32 j fOne) := by
  have hone := scalesTo_scale32 h.power
  have hc := scalesTo_scale32 h.re
  have hd := scalesTo_scale32 h.im
  obtain ⟨hcc, hdd⟩ := h.squares
  obtain ⟨hac, hbd, hbc⟩ := h.products
  obtain ⟨hfc, -⟩ := hc.finite
  obtain ⟨hfd, hfb⟩ := hd.finite
  have hsum := (hc.mul hfc hcc hac).add (hd.mul hfd hdd hbd) h.denominator h.numerator
  exact
    { denominator := h.denominator
      numerator := h.numerator
      cancels := hc.cross hd
      finite := by
        obtain hz | ⟨-, hhi⟩ := productInRange_iff.1 hbc
        · exact isFinite32_of_zero (mul32_zero_factor hfb hfc hz)
        · exact isFinite32_iff.2 hhi
      ratio := hsum.quotient h.denominator hone
      number := isNaN32_of_finite hone.finite.2
      positive := hone.sign }

/-! ## The transform of a scaled or negated list (R23, D2, D3, D4) -/

/-- D3 bin by bin. -/
theorem rdftBin_scale32 {v : List Word} {j : Int} {k : Nat} (hd3 : RdftScalesAt v j) (hguard : rdftScaleGuard v j)
    (hk : k < v.length / 2 + 1) : rdftBin (v.map (scale32 j)) k = scalePair j (rdftBin v k) := by
  have hbins := hd3 hguard
  rw [rdft32, rdft32, List.length_map, List.map_map] at hbins
  exact List.map_inj_left.1 hbins k (List.mem_range.2 hk)

/-- The bins of a negated list are the negated bins, up to the sign of a zero imaginary part (log 13). -/
theorem negates_rdftBin {v : List Word} {k : Nat} (hre : isFinite32 (rdftBin v k).1 = true)
    (him : isFinite32 (rdftBin v k).2 = true) :
    Negates (rdftBin v k).1 (rdftBin (v.map neg32) k).1 ∧ Negates (rdftBin v k).2 (rdftBin (v.map neg32) k).2 := by
  rw [rdftBin_neg32]
  refine ⟨negates_neg32 hre, ?_⟩
  dsimp only
  split
  · rename_i hfixed
    simp only [Bool.and_eq_true, Bool.or_eq_true, beq_iff_eq] at hfixed
    obtain ⟨hv, hk⟩ := hfixed
    rw [rdftBin_im_of_finite hv hk]
    exact negates_neg32 (x := 0x80000000#32) (by decide)
  · exact negates_neg32 him

/-- The negated list over a bin, from the positive real ratio of the list itself. -/
theorem RealRatio.bin_neg_list {v : List Word} {k : Nat} {c d q : Word}
    (h : RealRatio (rdftBin v k).1 (rdftBin v k).2 c d q) :
    spectrumBin (rdftBin (v.map neg32) k) (c, d) = (mul32 k20 (log10_32 q), 0x43340000#32) := by
  obtain ⟨hac, -⟩ := finite_of_add32 (isFinite32_of_normal h.numerator)
  obtain ⟨hb, -⟩ := finite_of_mul32 h.finite
  obtain ⟨hre, him⟩ := negates_rdftBin (finite_of_mul32 hac).1 hb
  exact h.bin_negated hre him

/-- Settles O49: each clause is a positive real ratio, 1.0 or a power of two, or the negation of one. -/
theorem exactRatios : Obligations.ExactRatios := by
  refine ⟨fun c d hn hf => ?_, fun j c d h => ?_, fun v k hn hf => ?_, fun v j k hd3 hguard hk h => ?_⟩
  · have hself := realRatio_self hn hf
    obtain ⟨-, -, hc, hd⟩ := finite_of_binNorm hn
    have hneg := hself.bin_negated (negates_neg32 hc) (negates_neg32 hd)
    have hsame := hself.bin
    rw [magnitude_one] at hsame hneg
    exact ⟨hsame, hneg⟩
  · have hscaled := realRatio_scaled h
    obtain ⟨-, ha⟩ := (scalesTo_scale32 h.re).finite
    obtain ⟨-, hb⟩ := (scalesTo_scale32 h.im).finite
    exact ⟨hscaled.bin, hscaled.bin_negated (negates_neg32 ha) (negates_neg32 hb)⟩
  · have hneg := (realRatio_self hn hf).bin_neg_list
    rwa [magnitude_one] at hneg
  · have hscaled := realRatio_scaled h
    have hbin := rdftBin_scale32 hd3 hguard hk
    refine ⟨?_, RealRatio.bin_neg_list ?_⟩
    · rw [hbin]; exact hscaled.bin
    · rw [hbin]; exact hscaled

end Sys2Proof.Proofs
end

section
/-! PROOFS. Errors, RESULT and the idle block (60_exceptions.md, R142, R145, R150): a pre-execution error has no effect
but its code, no command reads RESULT, and a step without an event keeps the state. -/

namespace Sys2Proof.Proofs

open Sys2Proof.Machine

/-! ## The idle block (R150) -/

theorem step_of_idle {s : State} (h : s.hostQueue = []) : step s = .next s := by
  rw [step, serveNext, h]

/-- Settles O7: with an empty queue there is nothing to serve. -/
theorem idleBlockKeepsAllState : Obligations.IdleBlockKeepsAllState :=
  fun _ => step_of_idle

/-! ## Pre-execution errors (R142) -/

/-- What R142 asks of a command that takes `s` to `t`: a pre-execution error has changed RESULT alone. -/
def ErrorChangesOnlyResult (s t : State) : Prop :=
  isPreExecutionError t.result = true → t = s.withResult t.result

/-- A command that only raises a code has changed RESULT alone. -/
theorem ErrorChangesOnlyResult.withResult (s : State) (c : ResultCode) : ErrorChangesOnlyResult s (s.withResult c) :=
  fun _ => rfl

/-- A command that had its effects ends with OK, MAX_FREQ_REACHED or CAPACITY, which are no pre-execution errors. -/
theorem ErrorChangesOnlyResult.of_effects {s t : State} (h : isPreExecutionError t.result = false) :
    ErrorChangesOnlyResult s t :=
  fun herror => absurd (h.symm.trans herror) (by decide)

/-- Either end of the loop of SG_PROCESS is an effect, not an error (R103). -/
theorem isPreExecutionError_sweepEnd (exhausted : Bool) :
    isPreExecutionError (if exhausted then .maxFreqReached else .ok) = false := by
  cases exhausted <;> rfl

/-- Each answer of each command either only raises a code or ends with a code that is no pre-execution error. -/
theorem exec_errorChangesOnlyResult {i : Instr} {s t : State} (h : exec i s = .next t) : ErrorChangesOnlyResult s t := by
  cases i with
  | nop | sysReset | sgInit | sgSetRange | sgSetTime | sgSetGain | sgStart | bqReset | bqSetCoefs | bqProcessSample =>
    cases h; exact .of_effects rfl
  | sgProcess n =>
    obtain ⟨-, rfl⟩ | ⟨-, -, rfl⟩ | ⟨-, -, r, -, rfl⟩ := execSgProcess_next h
    · exact .withResult _ _
    · exact .withResult _ _
    · exact .of_effects (isPreExecutionError_sweepEnd r.exhausted)
  | bqProcessBlock n =>
    obtain ⟨-, rfl⟩ | ⟨-, r, -, rfl⟩ := execBqProcessBlock_next h
    · exact .withResult _ _
    · exact .of_effects rfl
  | anConfig =>
    obtain ⟨-, rfl⟩ | ⟨-, -, -, rfl⟩ | ⟨-, -, -, rfl⟩ := execAnConfig_next h
    · exact .withResult _ _
    · exact .withResult _ _
    · exact .of_effects rfl
  | anBegin =>
    obtain ⟨-, rfl⟩ | ⟨-, r, -, ⟨-, rfl⟩ | ⟨-, rfl⟩⟩ := execAnBegin_next h
    · exact .withResult _ _
    · exact .of_effects rfl
    · exact .of_effects rfl
  | anNext =>
    obtain rfl | ⟨a, r0, r1, r2, rfl⟩ := execAnNext_next h
    · exact .withResult _ _
    · exact .of_effects rfl
  | anFinish =>
    obtain ⟨-, rfl⟩ | ⟨-, d, -, rfl⟩ := execAnFinish_next h
    · exact .withResult _ _
    · exact .of_effects rfl
  | anRunBq =>
    obtain ⟨-, rfl⟩ | ⟨-, r, -, ⟨-, rfl⟩ | ⟨-, p, d, -, -, rfl⟩⟩ := execAnRunBq_next h
    · exact .withResult _ _
    · exact .of_effects rfl
    · exact .of_effects rfl
  | anSpectrum n =>
    obtain ⟨-, rfl⟩ | ⟨-, -, rfl⟩ | ⟨-, -, -, d, -, rfl⟩ := execAnSpectrum_next h
    · exact .withResult _ _
    · exact .withResult _ _
    · exact .of_effects rfl

/-- Settles O14: an illegal word only raises ILLEGAL_CMD, and any other word runs its command. -/
theorem preExecutionErrorsChangeOnlyResult : Obligations.PreExecutionErrorsChangeOnlyResult := by
  intro w s t h
  cases hw : decode w with
  | error r =>
    rw [executeWord_error hw] at h
    cases h
    exact ErrorChangesOnlyResult.withResult s .illegalCmd
  | ok i =>
    rw [executeWord_ok hw] at h
    exact exec_errorChangesOnlyResult h

/-! ## RESULT is read by no command (R145) -/

/-- Seeding a run neither reads RESULT nor writes it: the RESULT of `s` is the RESULT of the seeded state. -/
theorem seedRun_withResult (s : State) (c : ResultCode) :
    seedRun (s.withResult c) = (seedRun s).map fun r => { r with state := r.state.withResult c } := by
  have hgen : generate (s.withResult c).an (s.withResult c).dmem = generate s.an s.dmem := rfl
  rw [seedRun, seedRun, hgen]
  cases generate s.an s.dmem with
  | error f => rfl
  | ok r =>
    obtain ⟨count, exhausted, gen, d⟩ := r
    cases exhausted with
    | false => rfl
    | true =>
      dsimp only [State.withResult_an]
      cases copyWords count (inBase s.an) (outBase s.an) d with
      | error f => rfl
      | ok d' => rfl

/-- Either end of AN_BEGIN overwrites the RESULT its seeding carries along. -/
theorem execAnBegin_withResult (s : State) (c : ResultCode) : execAnBegin (s.withResult c) = execAnBegin s := by
  rw [execAnBegin, execAnBegin, seedRun_withResult]
  cases seedRun s <;> rfl

/-- Either end of AN_RUN_BQ overwrites the RESULT its seeding carries along. -/
theorem execAnRunBq_withResult (s : State) (c : ResultCode) : execAnRunBq (s.withResult c) = execAnRunBq s := by
  rw [execAnRunBq, execAnRunBq, seedRun_withResult]
  cases seedRun s <;> rfl

/-- A command that seeds no run reads registers and DMEM alone and writes RESULT last, so that RESULT before it is in no
term of its answer. -/
theorem exec_withResult (i : Instr) (s : State) (c : ResultCode) : exec i (s.withResult c) = exec i s := by
  cases i with
  | anBegin => exact execAnBegin_withResult s c
  | anRunBq => exact execAnRunBq_withResult s c
  | _ => rfl

/-- Settles O15: the other RESULT is the one `withResult` writes. -/
theorem resultDescribesTheLastCommand : Obligations.ResultDescribesTheLastCommand :=
  exec_withResult

end Sys2Proof.Proofs
end

section
/-! PROOFS. What reset leaves to the host (70_reset_and_hazards.md, R152): the commands of an analyzer that no AN_CONFIG
has configured. -/

namespace Sys2Proof.Proofs

open Sys2Proof.Machine

/-! ## No configuration (R125, R130, R134) -/

theorem execAnBegin_of_unconfigured {s : State} (hcap : s.an.cap.toNat = 0) :
    execAnBegin s = .next (s.withResult .config) := by
  rw [execAnBegin, if_pos hcap, raise_eq]

theorem execAnRunBq_of_unconfigured {s : State} (hcap : s.an.cap.toNat = 0) :
    execAnRunBq s = .next (s.withResult .config) := by
  rw [execAnRunBq, if_pos hcap, raise_eq]

/-- CONFIG comes before RANGE (R143), so the length is not looked at. -/
theorem execAnSpectrum_of_unconfigured (n : Nat) {s : State} (hcap : s.an.cap.toNat = 0) :
    execAnSpectrum n s = .next (s.withResult .config) := by
  rw [execAnSpectrum, if_pos hcap, raise_eq]

/-- Settles O36: each of the three commands tests AN_CAP first. -/
theorem unconfiguredAnalyzerReportsConfig : Obligations.UnconfiguredAnalyzerReportsConfig := by
  intro s hzero i hi
  have hcap : s.an.cap.toNat = 0 := congrArg BitVec.toNat hzero
  obtain rfl | rfl | ⟨n, rfl⟩ := hi
  · exact execAnBegin_of_unconfigured hcap
  · exact execAnRunBq_of_unconfigured hcap
  · exact execAnSpectrum_of_unconfigured n hcap

end Sys2Proof.Proofs
end
